-- ==== Sys2Proof/Word.lean ====
section
/-! DEFINITION. The word types of the block (00_scope.md R15) and the names of its register view (10_state.md R47). -/

namespace Sys2Proof

/-- A byte (00_scope.md R15). -/
abbrev Byte := BitVec 8

/-- A command word, an operand word, a register or a response datum: 32 bits (30_encoding.md R70, 00_scope.md R24). -/
abbrev Word := BitVec 32

/-- The eight registers of the register view, by the names of 10_state.md R47. -/
inductive RegName where
  | life | npix | eflen | ctrl | status | txidx | fault | txcap
deriving DecidableEq, Repr

end Sys2Proof
end

