-- ==== Sys2Proof/Syntax.lean ====
section
/-! DEFINITION. The command set: one constructor for each row of spec/opcode_table.json (30_encoding.md R74). -/

namespace Sys2Proof

/-- A command with its operands assembled (30_encoding.md R71 to R73). A pixel index or count is a number (R73: "used as
a pixel index compared with n, or as a count"); `WellFormed` says which numbers its 24-bit field can hold. -/
inductive Instr where
  /-- `INITDEF` (43_lifecycle.md R127). -/
  | initdef
  /-- `INITBB N, pin_data, pin_clock` (R128). -/
  | initbb (count : Nat) (pinData pinClock : Byte)
  /-- `INITBUS N, clock_hz` (R129). -/
  | initbus (count : Nat) (clockHz : Word)
  /-- `SETRGB i, red, green, blue` (40_pixel_encoder.md R90). -/
  | setrgb (index : Nat) (red green blue : Byte)
  /-- `SETBRI i, level`, the level as its binary32 bit pattern (R91). -/
  | setbri (index : Nat) (level : Word)
  /-- `SETRGBB i, red, green, blue, level` (R92). -/
  | setrgbb (index : Nat) (red green blue : Byte) (level : Word)
  /-- `GETPIX i` (R93). -/
  | getpix (index : Nat)
  /-- `RENDER` (42_frame_protocol.md R124). -/
  | render
  /-- `TXWR byte` (41_transport.md R110). -/
  | txwr (byte : Byte)
  /-- `FLUSH` (R111). -/
  | flush
  /-- `SETCOR flag` (43_lifecycle.md R131). -/
  | setcor (flag : Bool)
  /-- `RDREG g` (R132). -/
  | rdreg (reg : RegName)
  /-- `RELEASE` (R134). -/
  | release
  /-- `DROP` (R135). -/
  | drop
deriving DecidableEq, Repr

end Sys2Proof
end

