-- ==== Sys2Proof/WellFormed.lean ====
section
/-! DEFINITION. Which commands have an encoding: the operand checks of 30_encoding.md R79 that the operand types do not
already make ("An assembler refuses a line whose operand does not fit its field: N or i above 0xFFFFFF"). Colours, bytes
and pins are 8 bits, the flag is one bit and a register is one of eight by their types. -/

namespace Sys2Proof

/-- The number fits the 24-bit X field (30_encoding.md R71). -/
abbrev FitsX (x : Nat) : Prop := x < 2 ^ 24

/-- The operands of `i` fit their fields (30_encoding.md R79). -/
def Instr.wellFormed (i : Instr) : Bool :=
  match i with
  | .initdef => true
  | .initbb count _ _ => decide (FitsX count)
  | .initbus count _ => decide (FitsX count)
  | .setrgb index _ _ _ => decide (FitsX index)
  | .setbri index _ => decide (FitsX index)
  | .setrgbb index _ _ _ _ => decide (FitsX index)
  | .getpix index => decide (FitsX index)
  | .render => true
  | .txwr _ => true
  | .flush => true
  | .setcor _ => true
  | .rdreg _ => true
  | .release => true
  | .drop => true

end Sys2Proof
end

