-- ==== Sys2Proof/Decode.lean ====
section
/-! DEFINITION. From words to commands and back (30_encoding.md), both written from the tables of R71, R72 and R74. The
decoder is total on any list of words; what spells no command is rejected by name. The encoder follows it, then the
pseudo-commands of R80 to R82. -/

namespace Sys2Proof

/-! ## Fields -/

/-- `op = W0[31:24]` (30_encoding.md R70). -/
def opcodeOf (w : Word) : Byte := w.extractLsb' 24 8

/-- `W0[23:0]`, the header's field part (R71). -/
def headerField (w : Word) : BitVec 24 := w.extractLsb' 0 24

/-- `x = W0[23:0]` of format X, "a 24-bit unsigned pixel index i or pixel count N" (R71). -/
def xField (w : Word) : Nat := (headerField w).toNat

/-- `byte = W0[7:0]` of format B (R71). -/
def byteField (w : Word) : Byte := w.extractLsb' 0 8

/-- `red = [23:16]` of an RGB word (R72). -/
def redField (w : Word) : Byte := w.extractLsb' 16 8

/-- `green = [15:8]` of an RGB word (R72). -/
def greenField (w : Word) : Byte := w.extractLsb' 8 8

/-- `blue = [7:0]` of an RGB word (R72). -/
def blueField (w : Word) : Byte := w.extractLsb' 0 8

/-- `pin_data = [15:8]` of a PINS word (R72). -/
def pinDataField (w : Word) : Byte := w.extractLsb' 8 8

/-- `pin_clock = [7:0]` of a PINS word (R72). -/
def pinClockField (w : Word) : Byte := w.extractLsb' 0 8

/-- The register a format G header names by `g = W0[2:0]` (R71), in the numbering of 10_state.md R47. -/
def regOfNumber (g : BitVec 3) : RegName :=
  match g.toFin with
  | 0 => .life
  | 1 => .npix
  | 2 => .eflen
  | 3 => .ctrl
  | 4 => .status
  | 5 => .txidx
  | 6 => .fault
  | 7 => .txcap

/-- The number of a register (10_state.md R47). -/
def regNumber (r : RegName) : BitVec 3 :=
  match r with
  | .life => 0#3
  | .npix => 1#3
  | .eflen => 2#3
  | .ctrl => 3#3
  | .status => 4#3
  | .txidx => 5#3
  | .fault => 6#3
  | .txcap => 7#3

/-! ## Decoding -/

/-- What a list of words begins with. `rest` is what stands after the words the block takes for the command: the header
and its `k` operand words (30_encoding.md R70), also where they spell no command (R75, R76). -/
inductive Decoded where
  /-- A command. -/
  | command (i : Instr) (rest : List Word)
  /-- The command's words are not all there yet. -/
  | incomplete
  /-- An opcode R74 does not assign; no operand word is taken (R76). -/
  | unassignedOpcode (rest : List Word)
  /-- A header bit outside the row's mask is 1 (R75). -/
  | reservedHeaderBits (rest : List Word)
  /-- A reserved bit of an operand word is 1 (R75); all operand words are taken. -/
  | reservedOperandBits (rest : List Word)
deriving DecidableEq, Repr

/-- A command of header word only: its reserved header bits must be zero (R71, R75). -/
def headerOnly (reservedZero : Bool) (i : Instr) (rest : List Word) : Decoded :=
  if reservedZero then .command i rest else .reservedHeaderBits rest

/-- A command with one operand word, whose reserved bits must be zero (R72, R75). -/
def withOneOperand (reservedZero : Word → Bool) (make : Word → Instr) (rest : List Word) : Decoded :=
  match rest with
  | [] => .incomplete
  | w1 :: rest => if reservedZero w1 then .command (make w1) rest else .reservedOperandBits rest

/-- A command with two operand words; only the first has reserved bits (R72, R75). -/
def withTwoOperands (reservedZero : Word → Bool) (make : Word → Word → Instr) (rest : List Word) : Decoded :=
  match rest with
  | w1 :: w2 :: rest => if reservedZero w1 then .command (make w1 w2) rest else .reservedOperandBits rest
  | _ => .incomplete

/-- RGB `[31:24] = 0` (R72). -/
def rgbReservedZero (w : Word) : Bool := w.extractLsb' 24 8 == 0#8

/-- PINS `[31:16] = 0` (R72). -/
def pinsReservedZero (w : Word) : Bool := w.extractLsb' 16 16 == 0#16

/-- The decoder, one row of the opcode map R74 a line. -/
def decode (ws : List Word) : Decoded :=
  match ws with
  | [] => .incomplete
  | w :: rest =>
    if opcodeOf w = 0x01#8 then headerOnly (headerField w == 0#24) .initdef rest
    else if opcodeOf w = 0x02#8 then
      withOneOperand pinsReservedZero (fun p => .initbb (xField w) (pinDataField p) (pinClockField p)) rest
    else if opcodeOf w = 0x03#8 then withOneOperand (fun _ => true) (fun hz => .initbus (xField w) hz) rest
    else if opcodeOf w = 0x10#8 then
      withOneOperand rgbReservedZero (fun c => .setrgb (xField w) (redField c) (greenField c) (blueField c)) rest
    else if opcodeOf w = 0x11#8 then withOneOperand (fun _ => true) (fun level => .setbri (xField w) level) rest
    else if opcodeOf w = 0x12#8 then
      withTwoOperands rgbReservedZero
        (fun c level => .setrgbb (xField w) (redField c) (greenField c) (blueField c) level) rest
    else if opcodeOf w = 0x13#8 then .command (.getpix (xField w)) rest
    else if opcodeOf w = 0x20#8 then headerOnly (headerField w == 0#24) .render rest
    else if opcodeOf w = 0x21#8 then headerOnly (w.extractLsb' 8 16 == 0#16) (.txwr (byteField w)) rest
    else if opcodeOf w = 0x22#8 then headerOnly (headerField w == 0#24) .flush rest
    else if opcodeOf w = 0x30#8 then headerOnly (w.extractLsb' 1 23 == 0#23) (.setcor (w.getLsbD 0)) rest
    else if opcodeOf w = 0x31#8 then
      headerOnly (w.extractLsb' 3 21 == 0#21) (.rdreg (regOfNumber (w.extractLsb' 0 3))) rest
    else if opcodeOf w = 0x3E#8 then headerOnly (headerField w == 0#24) .release rest
    else if opcodeOf w = 0x3F#8 then headerOnly (headerField w == 0#24) .drop rest
    else .unassignedOpcode rest

/-! ## Encoding -/

/-- The opcode of a command (R74). -/
def Instr.opcode (i : Instr) : Byte :=
  match i with
  | .initdef => 0x01#8
  | .initbb _ _ _ => 0x02#8
  | .initbus _ _ => 0x03#8
  | .setrgb _ _ _ _ => 0x10#8
  | .setbri _ _ => 0x11#8
  | .setrgbb _ _ _ _ _ => 0x12#8
  | .getpix _ => 0x13#8
  | .render => 0x20#8
  | .txwr _ => 0x21#8
  | .flush => 0x22#8
  | .setcor _ => 0x30#8
  | .rdreg _ => 0x31#8
  | .release => 0x3E#8
  | .drop => 0x3F#8

/-- A header word: the opcode above the 24-bit field part (R70, R71). -/
def headerWord (op : Byte) (field : BitVec 24) : Word := op ++ field

/-- A header in format X (R71). -/
def headerX (op : Byte) (x : Nat) : Word := headerWord op (BitVec.ofNat 24 x)

/-- An RGB operand word (R72). -/
def rgbWord (red green blue : Byte) : Word := 0#8 ++ red ++ green ++ blue

/-- A PINS operand word (R72). -/
def pinsWord (pinData pinClock : Byte) : Word := 0#16 ++ pinData ++ pinClock

/-- The words of a command (30_encoding.md R79's right column). -/
def encode (i : Instr) : List Word :=
  match i with
  | .initdef => [headerWord 0x01#8 0#24]
  | .initbb count pinData pinClock => [headerX 0x02#8 count, pinsWord pinData pinClock]
  | .initbus count hz => [headerX 0x03#8 count, hz]
  | .setrgb index red green blue => [headerX 0x10#8 index, rgbWord red green blue]
  | .setbri index level => [headerX 0x11#8 index, level]
  | .setrgbb index red green blue level => [headerX 0x12#8 index, rgbWord red green blue, level]
  | .getpix index => [headerX 0x13#8 index]
  | .render => [headerWord 0x20#8 0#24]
  | .txwr byte => [headerWord 0x21#8 (0#16 ++ byte)]
  | .flush => [headerWord 0x22#8 0#24]
  | .setcor flag => [headerWord 0x30#8 (0#23 ++ BitVec.ofBool flag)]
  | .rdreg r => [headerWord 0x31#8 (0#21 ++ regNumber r)]
  | .release => [headerWord 0x3E#8 0#24]
  | .drop => [headerWord 0x3F#8 0#24]

/-- `k`, the number of operand words an opcode takes; 0 for an unassigned one (R70, R74, R76). -/
def operandWords (op : Byte) : Nat :=
  if op = 0x12#8 then 2
  else if op = 0x02#8 ∨ op = 0x03#8 ∨ op = 0x10#8 ∨ op = 0x11#8 then 1
  else 0

/-! ## Pseudo-commands (30_encoding.md R80 to R82) -/

/-- `CLEAR N`: `SETRGB i, 0, 0, 0` for i = 0, 1, ..., N-1 in that order (R80). -/
def clearExpansion (count : Nat) : List Instr := (List.range count).map fun i => .setrgb i 0 0 0

/-- `SETALL N, red, green, blue, level`: `SETRGBB i, ...` for i = 0, 1, ..., N-1 in that order (R81). -/
def setallExpansion (count : Nat) (red green blue : Byte) (level : Word) : List Instr :=
  (List.range count).map fun i => .setrgbb i red green blue level

/-- `SHOW`: `RENDER` (R82). -/
def showExpansion : List Instr := [.render]

/-! ## Table words -/

/-- The words of the command whose bits, numbered as the opcode table numbers them (bit 0 the least significant bit of
`W0`, the next word's bits counting on), are `w` below `nbits` and 0 above: the header and its operand words. -/
def tableWords (nbits w : Nat) : List Word :=
  let bits := w % 2 ^ nbits
  let w0 : Word := BitVec.ofNat 32 bits
  [w0, BitVec.ofNat 32 (bits / 2 ^ 32), BitVec.ofNat 32 (bits / 2 ^ 64)].take (1 + operandWords (opcodeOf w0))

/-- The command the decoder reads from such words; none where it rejects them. -/
def decodeTableWord (nbits w : Nat) : Option Instr :=
  match decode (tableWords nbits w) with
  | .command i _ => some i
  | .incomplete => none
  | .unassignedOpcode _ => none
  | .reservedHeaderBits _ => none
  | .reservedOperandBits _ => none

end Sys2Proof
end

