-- ==== Sys2Proof/Config.lean ====
section
/-! DEFINITION. What is fixed for one machine (the parameters of 00_scope.md R8 to R12) and the values the spec leaves
free: the collaborators' answers (R22, R23), the level of a line nothing has driven (10_state.md R46) and the content of
the transmit buffer that nothing has stored (R41). The free values are constants without a body. -/

namespace Sys2Proof

/-- What a collaborator call comes to (00_scope.md R22, R23): `Ok`, the device's own error kind (PeripheralError from a
GPIO call, BusError from a bus call), IoError, or no return at all. -/
inductive DrawResult where
  | ok | deviceError | ioError | noReturn
deriving DecidableEq, Repr, Inhabited

/-- One answer of the environment to one collaborator call. `effect` says what a call that did not return Ok did all the
same (decision D43): how many bytes of a `BUS.write` went out (20_memory.md R57), and, by being non-zero, that a
`GPIO.write` changed its line (R56). A call that returned Ok has its whole effect, whatever `effect` is. -/
structure Draw where
  result : DrawResult
  effect : Nat
deriving DecidableEq, Repr, Inhabited

/-- The implementation parameters (00_scope.md R8 to R12). Fixed for one machine: no step writes them. -/
structure Params where
  /-- `CAP`, the capacity of the bus buffer in bytes (R8). -/
  cap : Nat
  /-- `NUM_PIXELS_MAX`, the depth of the pixel store (R9). -/
  numPixelsMax : Nat
  /-- `DEFAULT_PIN_DATA` (R11). -/
  defaultPinData : Byte
  /-- `DEFAULT_PIN_CLOCK` (R11). -/
  defaultPinClock : Byte
  /-- `BUS_ID` (R12). -/
  busId : Nat
  /-- `CHIP_SELECT` (R12). -/
  chipSelect : Nat
  /-- `BUS_MODE` (R12). -/
  busMode : Nat
deriving DecidableEq, Repr, Inhabited

/-- The constraints the spec puts on the parameters: `CAP >= 1` (R8), `1 <= NUM_PIXELS_MAX <= 2^24 - 1` (R9), and two
distinct default pins (R11). -/
abbrev Params.Valid (p : Params) : Prop :=
  1 ≤ p.cap ∧ 1 ≤ p.numPixelsMax ∧ p.numPixelsMax ≤ 2 ^ 24 - 1 ∧ p.defaultPinData ≠ p.defaultPinClock

namespace Config

/-- `SPI_BUFFER_BYTES`, the source's capacity (00_scope.md R8). -/
def spiBufferBytes : Nat := 4096

/-- `DEFAULT_NUM_PIXELS` (00_scope.md R10). -/
def defaultNumPixels : Nat := 8

/-- FREE. Picks `NUM_PIXELS_MAX` at reset (00_scope.md R9, decision D9 OPEN). DESIGN CHOICE, entry 6. -/
opaque freeNumPixelsMax : Nat

/-- FREE. `DEFAULT_PIN_DATA` at reset (00_scope.md R11, decision D11 OPEN). DESIGN CHOICE, entry 6. -/
opaque freePinData : Byte

/-- FREE. Picks `DEFAULT_PIN_CLOCK` at reset, distinct from the data pin (R11). DESIGN CHOICE, entry 6. -/
opaque freePinGap : Nat

/-- FREE. `BUS_ID`, `CHIP_SELECT` and `BUS_MODE` at reset (00_scope.md R12, decision D12 OPEN). DESIGN CHOICE, entry 6. -/
opaque freeBusId : Nat

/-- FREE. See `freeBusId`. -/
opaque freeChipSelect : Nat

/-- FREE. See `freeBusId`. -/
opaque freeBusMode : Nat

/-- The parameters a machine has at reset: the source's capacity, and any values the constraints of R9 and R11 allow. -/
def params : Params where
  cap := spiBufferBytes
  numPixelsMax := 1 + freeNumPixelsMax % (2 ^ 24 - 1)
  defaultPinData := freePinData
  defaultPinClock := freePinData + BitVec.ofNat 8 (1 + freePinGap % 255)
  busId := freeBusId
  chipSelect := freeChipSelect
  busMode := freeBusMode

/-- FREE. The answer to the `k`-th collaborator call of a run, where the state does not already hold it
(00_scope.md R22). DESIGN CHOICE of form, entry 2. -/
opaque freeDraw : Nat → Draw

/-- FREE. The level of pin `p` from the `k`-th event of the trace on, until a `GPIO.write` sets it (10_state.md R46). -/
opaque freeLevel : Nat → Byte → Bool

/-- FREE. What `buf[j]` holds where nothing has stored a byte (10_state.md R41: "the reset content of buf is unspecified"). -/
opaque freeBufByte : Nat → Byte

end Config

end Sys2Proof
end

