-- ==== Sys2Proof/Machine/State.lean ====
section
/-! DEFINITION. The state of the block: the tuple of 10_state.md R26, the inputs of the step (R26: "they are inputs of the
step") and the observation (00_scope.md R25), all plain data; the reasons a step can stop; and the state after power-on
reset (70_reset_and_hazards.md R159). -/

namespace Sys2Proof.Machine

/-! ## The reasons a step stops -/

/-- Why the machine stops. (The block's own faults are no stops: they are recorded in `State.fault` and the machine goes
on, 60_exceptions.md R145.) -/
inductive Fault where
  /-- Raised by `step` alone, in a state in which a collaborator call has not returned: "The block then has no step and
  gives no response (a hang)" (00_scope.md R23). Safe: it is what the spec says. -/
  | collaboratorHang
deriving DecidableEq, Repr

/-- Why the model gives an instruction no meaning. -/
inductive Refusal where
  /-- Raised by `exec` for an instruction without a meaning; no arm of this model raises it. Safe. -/
  | notModelled (mnemonic : String)
deriving DecidableEq, Repr

/-! ## The block's names -/

/-- The lifecycle (10_state.md R27; 60_exceptions.md R153: the block's only modes). -/
inductive Life where
  | unconfigured | active | released
deriving DecidableEq, Repr

/-- The transport variant (10_state.md R30). -/
inductive Backend where
  | bitbang | bus
deriving DecidableEq, Repr

/-- The source's three errors (60_exceptions.md R140). -/
inductive ErrKind where
  | peripheralError | busError | ioError
deriving DecidableEq, Repr

/-- The block's faults, codes 0x81 to 0x87 of 60_exceptions.md R144. -/
inductive FaultCode where
  | illegalCommand | noHandle | afterRelease | handleActive | indexRange | badConfig | bufferFull
deriving DecidableEq, Repr

/-- A status (60_exceptions.md R144): OK, an error, a fault, or the Halted refusal. No other code is ever produced. -/
inductive Status where
  | ok
  | error (kind : ErrKind)
  | fault (code : FaultCode)
  | halted
deriving DecidableEq, Repr

/-- The render sequencer position (10_state.md R43). -/
inductive SeqPos where
  | idle
  | start (j : Nat)
  | pixel (i j : Nat)
  | endFrame (j : Nat)
  | flush
deriving DecidableEq, Repr

/-! ## The observation (00_scope.md R25) -/

/-- A collaborator call with its arguments (00_scope.md R20, R21). A level is `true` for high. -/
inductive Call where
  | gpioAcquire (pin : Byte)
  | gpioSetOutput (pin : Byte)
  | gpioWrite (pin : Byte) (level : Bool)
  | gpioRelease (pin : Byte)
  | busOpen (busId chipSelect : Nat) (clockHz : Word) (mode : Nat)
  | busWrite (bytes : List Byte)
deriving DecidableEq, Repr

/-- An event: a collaborator call with what was drawn for it, or a response to the host (R24). -/
inductive Event where
  | call (c : Call) (d : Draw)
  | response (status : Status) (data : Word)
deriving DecidableEq, Repr

/-! ## Storage -/

/-- A storage space (20_memory.md R50): the stored bytes by address, addresses strictly rising. -/
abbrev Memory := List Host.Cell

/-! ## The state -/

/-- The state. The first fifteen fields are the tuple of 10_state.md R26, in its order. -/
structure State where
  /-- The lifecycle (R27). -/
  life : Life
  /-- The first fault raised, if any (R28); `none` is the code 0. -/
  fault : Option FaultCode
  /-- The status of the last command other than RDREG (R29). -/
  status : Status
  /-- The transport variant (R30). -/
  backend : Backend
  /-- The data pin (R31). -/
  pinData : Byte
  /-- The clock pin (R31). -/
  pinClock : Byte
  /-- The bus clock speed in hertz (R32). -/
  clockHz : Word
  /-- The pixel count (R33). -/
  n : Nat
  /-- The end-frame length in bytes (R34). -/
  L : Nat
  /-- `clear_on_release` (R35). -/
  cor : Bool
  /-- The pixel store P, byte address `4i + k` for byte k of pixel i (R36, 20_memory.md R51). -/
  pix : Memory
  /-- The transport has been released (R40). -/
  txReleased : Bool
  /-- The transmit buffer T, by offset (R41, 20_memory.md R52). -/
  buf : Memory
  /-- `write_index`: the number of bytes held in T (R41). -/
  idx : Nat
  /-- The render sequencer position (R43). -/
  seq : SeqPos
  /-- INPUT. The parameters of this machine (00_scope.md R8 to R12). -/
  params : Params
  /-- INPUT. The command words the host presents, first to last (30_encoding.md R70). -/
  cmds : List Word
  /-- INPUT. The answers to the coming collaborator calls, first to last (00_scope.md R22), as far as they are settled. -/
  draws : List Draw
  /-- The model's own: how many collaborator calls have been made; past the end of `draws` the answers are `Config.freeDraw` of it. -/
  drawNo : Nat
  /-- OBSERVATION. The events so far, oldest first (00_scope.md R25). -/
  trace : List Event
  /-- The model's own: a collaborator call has not returned and never will (00_scope.md R23). -/
  hung : Bool
deriving DecidableEq, Repr

/-- Power-on reset (70_reset_and_hazards.md R159). `pinData`, `pinClock` and `clockHz` are unspecified there: 0, DESIGN
CHOICE, entry 7. The pixel buffer has length 0 and no byte of either storage space is listed. -/
def State.reset : State where
  life := .unconfigured
  fault := none
  status := .ok
  backend := .bitbang
  pinData := 0
  pinClock := 0
  clockHz := 0
  n := 0
  L := 0
  cor := false
  pix := []
  txReleased := false
  buf := []
  idx := 0
  seq := .idle
  params := Config.params
  cmds := []
  draws := []
  drawNo := 0
  trace := []
  hung := false

end Sys2Proof.Machine
end

