-- ==== Sys2Proof/Machine/Ops.lean ====
section
/-! DEFINITION. The named operations every meaning is built from: storage (20_memory.md R50 to R53), collaborator calls
(00_scope.md R20 to R23), how a command ends (R18, 60_exceptions.md R145, R146), the order of checks (R147), and
power-on reset (70_reset_and_hazards.md R159). -/

namespace Sys2Proof.Machine

/-! ## Storage spaces in canonical form -/

/-- The byte stored at an address, if one is listed. -/
def Memory.stored (m : Memory) (a : Nat) : Option Byte :=
  match m with
  | [] => none
  | c :: rest => if c.1 = a then some c.2 else Memory.stored rest a

/-- Store a byte, keeping the addresses strictly rising. -/
def Memory.put (m : Memory) (a : Nat) (v : Byte) : Memory :=
  match m with
  | [] => [(a, v)]
  | c :: rest =>
    if a < c.1 then (a, v) :: c :: rest
    else if a = c.1 then (a, v) :: rest
    else c :: Memory.put rest a v

/-- List no byte at an address. -/
def Memory.unlist (m : Memory) (a : Nat) : Memory := m.filter fun c => c.1 != a

/-- The listed addresses are strictly rising. -/
abbrev Memory.Rising (m : Memory) : Prop := m.Pairwise fun c d => c.1 < d.1

/-! ### The pixel store P (20_memory.md R51) -/

/-- What an unlisted address of P reads as: its byte of the default pixel `E7 00 00 00` (10_state.md R38). Entry 8. -/
def pixDefault (a : Nat) : Byte := if a % 4 = 0 then 0xE7#8 else 0x00#8

/-- The byte of P at a byte address. -/
def pixRead (m : Memory) (a : Nat) : Byte := (m.stored a).getD (pixDefault a)

/-- Write one byte of P; a byte equal to the default is not listed. -/
def pixWrite (m : Memory) (a : Nat) (v : Byte) : Memory := if v = pixDefault a then m.unlist a else m.put a v

/-- `MemWrite(a, m, v)`: bytes to a, a+1, ..., the first from the most significant byte of v (R51). -/
def pixWriteBytes (m : Memory) (a : Nat) (bytes : List Byte) : Memory :=
  match bytes with
  | [] => m
  | v :: rest => pixWriteBytes (pixWrite m a v) (a + 1) rest

/-- `MemRead(4i, 4)`: the four bytes of pixel i, b0 in bits 31..24 (R51). -/
def pixWord (m : Memory) (i : Nat) : Word :=
  pixRead m (4 * i) ++ pixRead m (4 * i + 1) ++ pixRead m (4 * i + 2) ++ pixRead m (4 * i + 3)

/-- The canonical form of P: rising addresses, and no byte listed that an unlisted address reads as anyway. -/
abbrev pixWf (m : Memory) : Prop := m.Rising ∧ ∀ c ∈ m, c.2 ≠ pixDefault c.1

/-! ### The transmit buffer T (20_memory.md R52) -/

/-- The byte of T at an offset; where nothing has stored one, a free value (10_state.md R41). Entry 9. -/
def bufRead (m : Memory) (j : Nat) : Byte := (m.stored j).getD (Config.freeBufByte j)

/-- `buf[j] <- v` (41_transport.md R102). An unlisted offset reads as no value in particular, so every stored byte is listed. -/
def bufWrite (m : Memory) (j : Nat) (v : Byte) : Memory := m.put j v

/-- `buf[0..idx-1]`, the bytes held and not yet sent (10_state.md R48). -/
def heldBytes (s : State) : List Byte := (List.range s.idx).map fun j => bufRead s.buf j

/-! ## Collaborator calls -/

/-- What a call returns to the block (00_scope.md R22), or that it does not return (R23). -/
inductive CallResult where
  | ok
  | err (kind : ErrKind)
  | noReturn
deriving DecidableEq, Repr

/-- The call's own error kind: PeripheralError from a GPIO call, BusError from a bus call (00_scope.md R22, 60_exceptions.md R140). -/
def Call.deviceErrKind (c : Call) : ErrKind :=
  match c with
  | .gpioAcquire _ => .peripheralError
  | .gpioSetOutput _ => .peripheralError
  | .gpioWrite _ _ => .peripheralError
  | .gpioRelease _ => .peripheralError
  | .busOpen _ _ _ _ => .busError
  | .busWrite _ => .busError

/-- The outcome a draw stands for at a call (00_scope.md R22, R23). -/
def Call.resultOf (c : Call) (d : Draw) : CallResult :=
  match d.result with
  | .ok => .ok
  | .deviceError => .err c.deviceErrKind
  | .ioError => .err .ioError
  | .noReturn => .noReturn

/-- The answer the environment gives to the `k`-th of the coming calls. -/
def State.drawAt (s : State) (k : Nat) : Draw := (s.draws[k]?).getD (Config.freeDraw (s.drawNo + k))

/-- One collaborator call: the event is observed, the answer is used up. A call that does not return hangs the block (R23). -/
def collab (c : Call) (s : State) : State × CallResult :=
  ({ s with
      draws := s.draws.tail
      drawNo := s.drawNo + 1
      trace := s.trace ++ [.call c (s.drawAt 0)]
      hung := s.hung || (s.drawAt 0).result == .noReturn },
   c.resultOf (s.drawAt 0))

/-! ## Micro-operations and their outcomes (00_scope.md R18) -/

/-- How a micro-operation comes out: `Ok`, `Err(kind)`, `raise Fault(code)`, or a call in it does not return. -/
inductive Res where
  | ok
  | err (kind : ErrKind)
  | fault (code : FaultCode)
  | hang
deriving DecidableEq, Repr

/-- `TRY e; f`: on Ok go on with f, else the enclosing micro-operation ends with the same outcome (00_scope.md R18). -/
def andThen (r : State × Res) (f : State → State × Res) : State × Res :=
  match r.2 with
  | .ok => f r.1
  | .err k => (r.1, .err k)
  | .fault c => (r.1, .fault c)
  | .hang => (r.1, .hang)

/-- A call's outcome as a micro-operation's. -/
def CallResult.toRes (r : CallResult) : Res :=
  match r with
  | .ok => .ok
  | .err k => .err k
  | .noReturn => .hang

/-- `TRY call` (00_scope.md R18). -/
def tryCall (c : Call) (s : State) : State × Res := ((collab c s).1, (collab c s).2.toRes)

/-- An outcome with an error discarded. -/
def Res.ignored (r : Res) : Res :=
  match r with
  | .ok => .ok
  | .err _ => .ok
  | .fault c => .fault c
  | .hang => .hang

/-- `IGNORE call`: the outcome is discarded (00_scope.md R18, 60_exceptions.md R143). A call that does not return still hangs (R23). -/
def ignoreCall (c : Call) (s : State) : State × Res := ((tryCall c s).1, (tryCall c s).2.ignored)

/-! ## How a command ends -/

/-- `seq <- p` (10_state.md R43). -/
def setSeq (p : SeqPos) (s : State) : State := { s with seq := p }

/-- The response, with `status` written: `status <- st; response (st, data)`. -/
def finish (st : Status) (data : Word) (s : State) : State :=
  { s with status := st, trace := s.trace ++ [.response st data] }

/-- A response that writes no state (RDREG, 43_lifecycle.md R132; Halted, 60_exceptions.md R146). -/
def respond (st : Status) (data : Word) (s : State) : State :=
  { s with trace := s.trace ++ [.response st data] }

/-- `raise Fault(c)`: `fault <- c`, `status <- c`, response `(c, 0)` (60_exceptions.md R145). The block's one exception
entry: no register saves anything else (R148), no handler runs and nothing returns from it (R149). -/
def raiseFault (c : FaultCode) (s : State) : State :=
  { s with fault := some c, status := .fault c, trace := s.trace ++ [.response (.fault c) 0] }

/-- The end of a command whose body is a micro-operation: `status <- r; response (r, 0)`, with `seq` IDLE again
(10_state.md R43). A body that hangs ends in no response (00_scope.md R23). -/
def endCommand (r : State × Res) : State :=
  match r.2 with
  | .ok => finish .ok 0 (setSeq .idle r.1)
  | .err k => finish (.error k) 0 (setSeq .idle r.1)
  | .fault c => raiseFault c (setSeq .idle r.1)
  | .hang => r.1

/-! ## The order of checks (60_exceptions.md R147) -/

/-- The three columns of 43_lifecycle.md R125 that check the lifecycle. -/
inductive CmdClass where
  /-- INITDEF, INITBB, INITBUS. -/
  | construction
  /-- SETRGB, SETBRI, SETRGBB, GETPIX, RENDER, TXWR, FLUSH, SETCOR. -/
  | handle
  /-- RELEASE, DROP. -/
  | releasing
deriving DecidableEq, Repr

/-- The fault the lifecycle gives a command, if any (43_lifecycle.md R125). -/
def lifecycleFault (cls : CmdClass) (life : Life) : Option FaultCode :=
  match cls, life with
  | .construction, .unconfigured => none
  | .construction, .active => some .handleActive
  | .construction, .released => none
  | .handle, .unconfigured => some .noHandle
  | .handle, .active => none
  | .handle, .released => some .afterRelease
  | .releasing, .unconfigured => some .noHandle
  | .releasing, .active => none
  | .releasing, .released => none

/-- The checks of a decoded command in the order of R147: Halted, lifecycle, operand range, then execution.
(IllegalCommand, its step 2, is the decoder's; RDREG, its step 3, goes through none of these.) -/
def checked (cls : CmdClass) (rangeFault : Option FaultCode) (body : State → State) (s : State) : State :=
  match s.fault with
  | some _ => respond .halted 0 s
  | none =>
    match lifecycleFault cls s.life with
    | some c => raiseFault c s
    | none =>
      match rangeFault with
      | some c => raiseFault c s
      | none => body s

/-- `i >= n` gives IndexRange (60_exceptions.md R147, step 5). -/
def indexFault (i : Nat) (s : State) : Option FaultCode := if s.n ≤ i then some .indexRange else none

/-- `N = 0` or `N > NUM_PIXELS_MAX` gives BadConfig (R147, step 5). -/
def countFault (count : Nat) (s : State) : Option FaultCode :=
  if count = 0 ∨ s.params.numPixelsMax < count then some .badConfig else none

/-- Equal data and clock pins give BadConfig, after the count (R147, step 5; 00_scope.md R13). -/
def pinsFault (count : Nat) (pinData pinClock : Byte) (s : State) : Option FaultCode :=
  match countFault count s with
  | some c => some c
  | none => if pinData = pinClock then some .badConfig else none

/-! ## Power-on reset (70_reset_and_hazards.md R159) -/

/-- Power-on reset of a running machine: every field of the block as `State.reset` has it; the parameters, the inputs
still to come and what was observed so far are not the block's to reset. It comes from outside: no step does it. Entry 18. -/
def State.powerOn (s : State) : State :=
  { State.reset with params := s.params, cmds := s.cmds, draws := s.draws, drawNo := s.drawNo, trace := s.trace }

end Sys2Proof.Machine
end

