-- ==== Sys2Proof/Machine/Operands.lean ====
section
/-! DEFINITION. The one computation on a host operand: the brightness code of a LEVEL word, by binary32 arithmetic
(00_scope.md R19, 40_pixel_encoder.md R85), and the encoder functions (R84, R85). A non-negative binary32 value is held as
the whole number of 2^-149 that it is, so that nothing is lost before the rounding. -/

namespace Sys2Proof.Machine

/-- The sign bit of a binary32 word. -/
def f32Sign (w : Word) : Bool := w.getLsbD 31

/-- The exponent field, bits 30..23. -/
def f32Exponent (w : Word) : Nat := (w.extractLsb' 23 8).toNat

/-- The fraction, bits 22..0. -/
def f32Fraction (w : Word) : Nat := (w.extractLsb' 0 23).toNat

/-- `isNaN`: exponent field 0xFF with a non-zero fraction (00_scope.md R19). -/
def isNaN (w : Word) : Bool := f32Exponent w == 0xFF && f32Fraction w != 0

/-- The magnitude of a binary32 word in units of 2^-149: the fraction alone for a subnormal, else the significand with its
leading 1, scaled by the exponent. An infinity comes out larger than every finite magnitude. -/
def f32Units (w : Word) : Nat :=
  if f32Exponent w = 0 then f32Fraction w else (2 ^ 23 + f32Fraction w) * 2 ^ (f32Exponent w - 1)

/-- 1.0 in units of 2^-149. -/
def unitsOfOne : Nat := 2 ^ 149

/-- `clamp(level, 0, 1)` of a word that is no NaN, in units of 2^-149 (R85: `v < 0.0` gives +0.0, `v > 1.0` gives 1.0;
-0.0 counts as 0, "same result"). -/
def clampedUnits (w : Word) : Nat :=
  if f32Sign w then 0 else if unitsOfOne < f32Units w then unitsOfOne else f32Units w

/-- Round a number of units to a binary32 significand of 24 bits, to nearest, ties to even (00_scope.md R19). -/
def roundF32 (x : Nat) : Nat :=
  let drop := x.log2 + 1 - 24
  let kept := x / 2 ^ drop
  let lost := x % 2 ^ drop
  let up := 2 ^ drop < 2 * lost ∨ (2 * lost = 2 ^ drop ∧ drop ≠ 0 ∧ kept % 2 = 1)
  (if up then kept + 1 else kept) * 2 ^ drop

/-- `bri_code(w)` (R85): 0 for a NaN (R87), else `floor(mul_f32(31.0, clamp(level, 0, 1)))`. -/
def briCode (w : Word) : Nat := if isNaN w then 0 else roundF32 (31 * clampedUnits w) / unitsOfOne

/-- `encode_brightness(w) = 0xE0 | bri_code(w)`, 8 bits (R85). -/
def encodeBrightness (w : Word) : Byte := 0xE0#8 ||| BitVec.ofNat 8 (briCode w)

/-- `encode(red, green, blue)`: the bytes `[blue, green, red]`, unchanged (R84). -/
def encodeColour (red green blue : Byte) : List Byte := [blue, green, red]

end Sys2Proof.Machine
end

