-- ==== Sys2Proof/Machine/Encoder.lean ====
section
/-! DEFINITION. The PixelEncoder commands SETRGB, SETBRI, SETRGBB and GETPIX (40_pixel_encoder.md §2). None calls a
collaborator. -/

namespace Sys2Proof.Machine

/-- Write bytes to pixel store addresses `a, a+1, ...` and end with `(OK, 0)`. -/
def storePixelBytes (a : Nat) (bytes : List Byte) (s : State) : State :=
  finish .ok 0 { s with pix := pixWriteBytes s.pix a bytes }

/-- SETRGB (R90): `MemWrite(4i + 1, 3, {blue, green, red})`. -/
def execSetrgb (index : Nat) (red green blue : Byte) (s : State) : Host.Outcome State Fault Refusal :=
  .next (checked .handle (indexFault index s) (storePixelBytes (4 * index + 1) (encodeColour red green blue)) s)

/-- SETBRI (R91): `MemWrite(4i, 1, encode_brightness(W1))`. -/
def execSetbri (index : Nat) (level : Word) (s : State) : Host.Outcome State Fault Refusal :=
  .next (checked .handle (indexFault index s) (storePixelBytes (4 * index) [encodeBrightness level]) s)

/-- SETRGBB (R92): `MemWrite(4i, 4, {encode_brightness(W2), blue, green, red})`. -/
def execSetrgbb (index : Nat) (red green blue : Byte) (level : Word) (s : State) : Host.Outcome State Fault Refusal :=
  .next (checked .handle (indexFault index s)
    (storePixelBytes (4 * index) (encodeBrightness level :: encodeColour red green blue)) s)

/-- GETPIX (R93): `data <- MemRead(4i, 4)`. -/
def execGetpix (index : Nat) (s : State) : Host.Outcome State Fault Refusal :=
  .next (checked .handle (indexFault index s) (fun s => finish .ok (pixWord s.pix index) s) s)

end Sys2Proof.Machine
end

