-- ==== Sys2Proof/Machine/Flags.lean ====
section
/-! DEFINITION. The codes the host reads: status and fault codes (60_exceptions.md R144) and the register view
(10_state.md R47). The block has no condition codes (R45). -/

namespace Sys2Proof.Machine

/-- The code of an error (60_exceptions.md R144). -/
def ErrKind.code (k : ErrKind) : Byte :=
  match k with
  | .peripheralError => 0x01#8
  | .busError => 0x02#8
  | .ioError => 0x03#8

/-- The code of a fault (R144). -/
def FaultCode.code (c : FaultCode) : Byte :=
  match c with
  | .illegalCommand => 0x81#8
  | .noHandle => 0x82#8
  | .afterRelease => 0x83#8
  | .handleActive => 0x84#8
  | .indexRange => 0x85#8
  | .badConfig => 0x86#8
  | .bufferFull => 0x87#8

/-- The code of a status (R144). -/
def Status.code (st : Status) : Byte :=
  match st with
  | .ok => 0x00#8
  | .error k => k.code
  | .fault c => c.code
  | .halted => 0x88#8

/-- The 8 bits of `fault`: 0 means no fault (10_state.md R28). -/
def faultByte (f : Option FaultCode) : Byte :=
  match f with
  | none => 0x00#8
  | some c => c.code

/-- The 2 bits of `life` (10_state.md R27). -/
def Life.bits (l : Life) : BitVec 2 :=
  match l with
  | .unconfigured => 0#2
  | .active => 1#2
  | .released => 2#2

/-- The bit of `backend` (R30). -/
def Backend.bit (b : Backend) : BitVec 1 :=
  match b with
  | .bitbang => 0#1
  | .bus => 1#1

/-- Register `g` of the register view (10_state.md R47); a bit no row names reads 0. -/
def State.readReg (s : State) (r : RegName) : Word :=
  match r with
  | .life => 0#26 ++ BitVec.ofBool s.txReleased ++ s.backend.bit ++ 0#2 ++ s.life.bits
  | .npix => 0#8 ++ BitVec.ofNat 24 s.n
  | .eflen => 0#11 ++ BitVec.ofNat 21 s.L
  | .ctrl => 0#31 ++ BitVec.ofBool s.cor
  | .status => 0#24 ++ s.status.code
  | .txidx => BitVec.ofNat 32 s.idx
  | .fault => 0#24 ++ faultByte s.fault
  | .txcap =>
    match s.backend, s.life with
    | .bus, .active => BitVec.ofNat 32 s.params.cap
    | .bus, .released => BitVec.ofNat 32 s.params.cap
    | .bus, .unconfigured => 0#32
    | .bitbang, _ => 0#32

end Sys2Proof.Machine
end

