-- ==== Sys2Proof/Machine/Transport.lean ====
section
/-! DEFINITION. The Transport: the micro-operations TWrite, TFlush and TRelease of both variants (41_transport.md §1 to
§3) and the commands TXWR and FLUSH (§4). -/

namespace Sys2Proof.Machine

/-! ## Variant A: bit-bang -/

/-- The bits of a byte, `v[7]` first (R97: `for j = 7 down to 0`; R55). -/
def bitsMsbFirst (v : Byte) : List Bool :=
  [v.getLsbD 7, v.getLsbD 6, v.getLsbD 5, v.getLsbD 4, v.getLsbD 3, v.getLsbD 2, v.getLsbD 1, v.getLsbD 0]

/-- One bit: the data line to its level, then the clock high, then low (R97, R98). -/
def writeBit (b : Bool) (s : State) : State × Res :=
  andThen (tryCall (.gpioWrite s.pinData b) s) fun s =>
    andThen (tryCall (.gpioWrite s.pinClock true) s) fun s => tryCall (.gpioWrite s.pinClock false) s

/-- Bits in order, stopping at the first that does not come out Ok (R99). -/
def writeBits (bits : List Bool) (s : State) : State × Res :=
  match bits with
  | [] => (s, .ok)
  | b :: rest => andThen (writeBit b s) (writeBits rest)

/-- `TWrite_bb(bytes)` (R97). -/
def twriteBitbang (bytes : List Byte) (s : State) : State × Res :=
  match bytes with
  | [] => (s, .ok)
  | v :: rest => andThen (writeBits (bitsMsbFirst v) s) (twriteBitbang rest)

/-- `TRelease_bb()` (R101): once, data pin first, both outcomes ignored. -/
def treleaseBitbang (s : State) : State × Res :=
  if s.txReleased then (s, .ok)
  else
    andThen (ignoreCall (.gpioRelease s.pinData) { s with txReleased := true }) fun s =>
      ignoreCall (.gpioRelease s.pinClock) s

/-! ## Variant B: hardware bus -/

/-- `TRY BUS.write(buf[0..idx-1]); idx <- 0`: send what is held; on an error `idx` and `buf` stay (R103, R105, R106). -/
def sendHeld (s : State) : State × Res :=
  andThen (tryCall (.busWrite (heldBytes s)) s) fun s => ({ s with idx := 0 }, .ok)

/-- The body of `TWrite_bus`'s loop: append one byte, and send the buffer as soon as it is full (R102, R104). -/
def appendByte (v : Byte) (s : State) : State × Res :=
  if s.idx = s.params.cap then (s, .fault .bufferFull)
  else if s.idx + 1 = s.params.cap then sendHeld { s with buf := bufWrite s.buf s.idx v, idx := s.idx + 1 }
  else ({ s with buf := bufWrite s.buf s.idx v, idx := s.idx + 1 }, .ok)

/-- `TWrite_bus(bytes)` (R102). -/
def twriteBus (bytes : List Byte) (s : State) : State × Res :=
  match bytes with
  | [] => (s, .ok)
  | v :: rest => andThen (appendByte v s) (twriteBus rest)

/-- `TFlush_bus()` (R105): nothing held, no call. -/
def tflushBus (s : State) : State × Res := if s.idx = 0 then (s, .ok) else sendHeld s

/-- `TRelease_bus()` (R107): once, no call, what is held is discarded. -/
def treleaseBus (s : State) : State × Res :=
  if s.txReleased then (s, .ok) else ({ s with txReleased := true, idx := 0 }, .ok)

/-! ## The contract (R94 to R96), by `backend` (10_state.md R30) -/

/-- `TWrite(bytes)`. -/
def twrite (bytes : List Byte) (s : State) : State × Res :=
  match s.backend with
  | .bitbang => twriteBitbang bytes s
  | .bus => twriteBus bytes s

/-- `TFlush()`; on bit-bang it makes no call (R100). -/
def tflush (s : State) : State × Res :=
  match s.backend with
  | .bitbang => (s, .ok)
  | .bus => tflushBus s

/-- `TRelease()`. -/
def trelease (s : State) : State × Res :=
  match s.backend with
  | .bitbang => treleaseBitbang s
  | .bus => treleaseBus s

/-! ## Commands -/

/-- TXWR (R110): `r <- TWrite([byte]); status <- r; response (r, 0)`. -/
def execTxwr (byte : Byte) (s : State) : Host.Outcome State Fault Refusal :=
  .next (checked .handle none (fun s => endCommand (twrite [byte] s)) s)

/-- FLUSH (R111): `r <- TFlush(); status <- r; response (r, 0)`. -/
def execFlush (s : State) : Host.Outcome State Fault Refusal :=
  .next (checked .handle none (fun s => endCommand (tflush s)) s)

end Sys2Proof.Machine
end

