-- ==== Sys2Proof/Machine/Render.lean ====
section
/-! DEFINITION. The FrameProtocol: the frame, `Render()` and the command RENDER (42_frame_protocol.md). -/

namespace Sys2Proof.Machine

/-- The end-frame length `4 + ceil(N / 16)` (R115), with `ceil(N/16) = floor((N + 15) / 16)` (00_scope.md R16). -/
def endFrameLen (count : Nat) : Nat := 4 + (count + 15) / 16

/-- The start frame, 4 bytes of 0x00, with the sequencer position of each (R113, 10_state.md R43). -/
def startFrame : List (SeqPos × Byte) := (List.range 4).map fun j => (.start j, 0x00#8)

/-- The frame of pixel i: its 4 stored bytes b0, b1, b2, b3 (R114). -/
def pixelFrame (m : Memory) (i : Nat) : List (SeqPos × Byte) :=
  (List.range 4).map fun j => (.pixel i j, pixRead m (4 * i + j))

/-- The end frame, `L` bytes of 0x00 (R117). -/
def endFrame (len : Nat) : List (SeqPos × Byte) := (List.range len).map fun j => (.endFrame j, 0x00#8)

/-- The whole frame in order: start frame, pixels from index 0, end frame (R112, R121). -/
def frame (s : State) : List (SeqPos × Byte) :=
  startFrame ++ ((List.range s.n).flatMap (pixelFrame s.pix) ++ endFrame s.L)

/-- Steps 1 to 3 of `Render()`: each byte is handed to the transport with `seq` at its position. How the bytes are split
into `TWrite` calls is unobservable (R120), and "seq advances ... one byte at a time as TWrite takes each byte" (R112). -/
def sendFrame (bytes : List (SeqPos × Byte)) (s : State) : State × Res :=
  match bytes with
  | [] => (s, .ok)
  | b :: rest => andThen (twrite [b.2] (setSeq b.1 s)) (sendFrame rest)

/-- `Render()` (R112): the frame, then the flush; a failing step ends it (R119). -/
def render (s : State) : State × Res :=
  andThen (sendFrame (frame s) s) fun s =>
    andThen (tflush (setSeq .flush s)) fun s => (setSeq .idle s, .ok)

/-- RENDER (R124): `r <- Render(); status <- r; response (r, 0)`. -/
def execRender (s : State) : Host.Outcome State Fault Refusal :=
  .next (checked .handle none (fun s => endCommand (render s)) s)

end Sys2Proof.Machine
end

