-- ==== Sys2Proof/Machine/Lifecycle.lean ====
section
/-! DEFINITION. The BufferLifecycle: construction (INITDEF, INITBB, INITBUS), control (SETCOR, RDREG) and release
(RELEASE, DROP) (43_lifecycle.md). -/

namespace Sys2Proof.Machine

/-! ## Construction -/

/-- The fields `InitCommon` sets alike for both variants (R126). No byte of the pixel store is listed, so every pixel
reads as the default (10_state.md R38); the content of `buf` is unspecified, so none of its bytes is listed (entry 10). -/
def initCommon (b : Backend) (count : Nat) (s : State) : State :=
  { s with
    life := .active
    backend := b
    n := count
    L := endFrameLen count
    cor := true
    pix := []
    txReleased := false
    buf := []
    idx := 0
    seq := .idle }

/-- `IGNORE GPIO.release(p)` for each pin, in order (R130). -/
def releasePins (pins : List Byte) (s : State) : State × Res :=
  match pins with
  | [] => (s, .ok)
  | p :: rest => andThen (ignoreCall (.gpioRelease p) s) (releasePins rest)

/-- `InitFail(k, acquired)` (R130): release what was acquired, then report k; no other field changes. -/
def initFail (k : ErrKind) (acquired : List Byte) (s : State) : State :=
  match (releasePins acquired s).2 with
  | .ok => finish (.error k) 0 (releasePins acquired s).1
  | .err _ => finish (.error k) 0 (releasePins acquired s).1
  | .fault _ => finish (.error k) 0 (releasePins acquired s).1
  | .hang => (releasePins acquired s).1

/-- The calls of a construction in order, each with the pins to release if it fails; then the construction (R128, R129). -/
def construct (calls : List (Call × List Byte)) (complete : State → State) (s : State) : State :=
  match calls with
  | [] => finish .ok 0 (complete s)
  | c :: rest =>
    match (collab c.1 s).2 with
    | .ok => construct rest complete (collab c.1 s).1
    | .err k => initFail k c.2 (collab c.1 s).1
    | .noReturn => (collab c.1 s).1

/-- The calls of INITBB, in its order (R128). -/
def bitbangCalls (pinData pinClock : Byte) : List (Call × List Byte) :=
  [(.gpioAcquire pinData, []), (.gpioSetOutput pinData, [pinData]), (.gpioAcquire pinClock, [pinData]),
   (.gpioSetOutput pinClock, [pinData, pinClock])]

/-- The body of INITBB (R128). -/
def constructBitbang (count : Nat) (pinData pinClock : Byte) (s : State) : State :=
  construct (bitbangCalls pinData pinClock)
    (fun s => { initCommon .bitbang count s with pinData := pinData, pinClock := pinClock }) s

/-- INITBB (R128). -/
def execInitbb (count : Nat) (pinData pinClock : Byte) (s : State) : Host.Outcome State Fault Refusal :=
  .next (checked .construction (pinsFault count pinData pinClock s) (constructBitbang count pinData pinClock) s)

/-- INITDEF (R127): "exactly INITBB" with 8 pixels and the default pins. -/
def execInitdef (s : State) : Host.Outcome State Fault Refusal :=
  .next (checked .construction
    (pinsFault Config.defaultNumPixels s.params.defaultPinData s.params.defaultPinClock s)
    (constructBitbang Config.defaultNumPixels s.params.defaultPinData s.params.defaultPinClock) s)

/-- The body of INITBUS (R129). -/
def constructBus (count : Nat) (clockHz : Word) (s : State) : State :=
  construct [(.busOpen s.params.busId s.params.chipSelect clockHz s.params.busMode, [])]
    (fun s => { initCommon .bus count s with clockHz := clockHz }) s

/-- INITBUS (R129). -/
def execInitbus (count : Nat) (clockHz : Word) (s : State) : Host.Outcome State Fault Refusal :=
  .next (checked .construction (countFault count s) (constructBus count clockHz) s)

/-! ## Control -/

/-- SETCOR (R131): `cor <- flag`. -/
def execSetcor (flag : Bool) (s : State) : Host.Outcome State Fault Refusal :=
  .next (checked .handle none (fun s => finish .ok 0 { s with cor := flag }) s)

/-- RDREG (R132): runs in every lifecycle state and while a fault is recorded, and writes nothing, not even `status`. -/
def execRdreg (r : RegName) (s : State) : Host.Outcome State Fault Refusal :=
  .next (respond .ok (s.readReg r) s)

/-! ## Release -/

/-- `for i = 0 to n-1: MemWrite(4i + 1, 3, 0x000000)`: every colour byte 0, every brightness byte kept (R133). -/
def clearColours (count : Nat) (m : Memory) : Memory :=
  match count with
  | 0 => m
  | i + 1 => pixWriteBytes (clearColours i m) (4 * i + 1) [0x00#8, 0x00#8, 0x00#8]

/-- The clear and the render of a release, if `cor = 1` (R133). -/
def releaseRender (s : State) : State × Res :=
  if s.cor then render { s with pix := clearColours s.n s.pix } else (s, .ok)

/-- `TRelease(); life <- RELEASED`, then the response with status `st` (R133). -/
def teardown (st : Status) (s : State) : State :=
  match (trelease s).2 with
  | .ok => finish st 0 { (trelease s).1 with life := .released, seq := .idle }
  | .err _ => finish st 0 { (trelease s).1 with life := .released, seq := .idle }
  | .fault _ => finish st 0 { (trelease s).1 with life := .released, seq := .idle }
  | .hang => (trelease s).1

/-- `Release(explicit)` (R133). In RELEASED it is the no-op that returns OK (R136). An error of the render is reported to
an explicit caller and dropped for an automatic one, and the teardown runs either way (60_exceptions.md R150); a fault in
the render ends the command at once (R138). -/
def releaseHandle (explicit : Bool) (s : State) : State :=
  match s.life with
  | .released => finish .ok 0 s
  | .unconfigured | .active =>
    match (releaseRender s).2 with
    | .ok => teardown .ok (releaseRender s).1
    | .err k => teardown (if explicit then .error k else .ok) (releaseRender s).1
    | .fault c => raiseFault c (setSeq .idle (releaseRender s).1)
    | .hang => (releaseRender s).1

/-- RELEASE (R134). -/
def execRelease (s : State) : Host.Outcome State Fault Refusal :=
  .next (checked .releasing none (releaseHandle true) s)

/-- DROP (R135). -/
def execDrop (s : State) : Host.Outcome State Fault Refusal :=
  .next (checked .releasing none (releaseHandle false) s)

end Sys2Proof.Machine
end

