-- ==== Sys2Proof/Machine/Dispatch.lean ====
section
/-! DEFINITION. One arm per command, each one direct call of its meaning. -/

namespace Sys2Proof.Machine

def exec (i : Instr) (s : State) : Host.Outcome State Fault Refusal :=
  match i with
  | .initdef => Sys2Proof.Machine.execInitdef s
  | .initbb count pinData pinClock => Sys2Proof.Machine.execInitbb count pinData pinClock s
  | .initbus count clockHz => Sys2Proof.Machine.execInitbus count clockHz s
  | .setrgb index red green blue => Sys2Proof.Machine.execSetrgb index red green blue s
  | .setbri index level => Sys2Proof.Machine.execSetbri index level s
  | .setrgbb index red green blue level => Sys2Proof.Machine.execSetrgbb index red green blue level s
  | .getpix index => Sys2Proof.Machine.execGetpix index s
  | .render => Sys2Proof.Machine.execRender s
  | .txwr byte => Sys2Proof.Machine.execTxwr byte s
  | .flush => Sys2Proof.Machine.execFlush s
  | .setcor flag => Sys2Proof.Machine.execSetcor flag s
  | .rdreg reg => Sys2Proof.Machine.execRdreg reg s
  | .release => Sys2Proof.Machine.execRelease s
  | .drop => Sys2Proof.Machine.execDrop s

end Sys2Proof.Machine
end

