-- ==== Sys2Proof/Machine/Fetch.lean ====
section
/-! DEFINITION. How the block takes a command from the host (00_scope.md R24, 30_encoding.md R70), and what it does with
words that spell none (R75, R76, 60_exceptions.md R146, R147). -/

namespace Sys2Proof.Machine

/-- A command that is ill-formed: Halted while a fault is recorded, else `raise Fault(IllegalCommand)` (60_exceptions.md
R147, steps 1 and 2). -/
def refuseIllegal (s : State) : State :=
  match s.fault with
  | some _ => respond .halted 0 s
  | none => raiseFault .illegalCommand s

/-- Take the next command's words and run it; with no complete command there, the block is idle and keeps all state
(60_exceptions.md R158). -/
def takeCommand (s : State) : Host.Outcome State Fault Refusal :=
  match decode s.cmds with
  | .command i rest => exec i { s with cmds := rest }
  | .incomplete => .next s
  | .unassignedOpcode rest => .next (refuseIllegal { s with cmds := rest })
  | .reservedHeaderBits rest => .next (refuseIllegal { s with cmds := rest })
  | .reservedOperandBits rest => .next (refuseIllegal { s with cmds := rest })

/-- The state whose host presents exactly the words of one command of the opcode table. -/
def presentWords (nbits w : Nat) (s : State) : State := { s with cmds := tableWords nbits w }

end Sys2Proof.Machine
end

