-- ==== Sys2Proof/Machine/Step.lean ====
section
/-! DEFINITION. One step: one host command, taken and run to completion (00_scope.md R7, R24). -/

namespace Sys2Proof.Machine

/-- One step. A block that waits for a call that never returns "has no step and gives no response" (00_scope.md R23). -/
def step (s : State) : Host.Outcome State Fault Refusal :=
  match s.hung with
  | true => .fault .collaboratorHang
  | false => takeCommand s

/-- The state with one table word's command (its operand words zero) next on the host interface. Entry 17. -/
def State.withFetchWord (s : State) (nbits w : Nat) : State := presentWords nbits w s

end Sys2Proof.Machine
end

