-- ==== Sys2Proof/Machine/Assembler.lean ====
section
/-! DEFINITION. The assembler of 30_encoding.md §4 (R79 to R82): one command a line, from its text to its words. It is
text only and no part of the block (decision D41); what the rules do not say of the text is entry 22. -/

namespace Sys2Proof.Machine

/-! ## Text -/

/-- A blank between words of a line. -/
def isBlank (c : Char) : Bool := c == ' ' || c == '\t'

/-- A text without the blanks around it. -/
def trimBlanks (cs : List Char) : List Char := ((cs.dropWhile isBlank).reverse.dropWhile isBlank).reverse

/-- The texts between commas. -/
def splitCommas (cs : List Char) : List (List Char) :=
  match cs with
  | [] => [[]]
  | c :: rest =>
    match splitCommas rest with
    | [] => [[c]]
    | first :: others => if c = ',' then [] :: first :: others else (c :: first) :: others

/-- The operand texts of a line's text after its mnemonic. -/
def operandTexts (cs : List Char) : List (List Char) :=
  match trimBlanks cs with
  | [] => []
  | c :: rest => (splitCommas (c :: rest)).map trimBlanks

/-! ## Numbers -/

/-- The digits, each at the place of its value. -/
def digits : List Char := "0123456789ABCDEF".toList

/-- The value of a digit of a base up to 16, a letter in either case. -/
def digitValue (base : Nat) (c : Char) : Option Nat := (digits.take base).idxOf? c.toUpper

/-- The number a run of digits of a base spells, first digit most significant; at least one digit. -/
def readNumeral (base : Nat) (cs : List Char) : Option Nat :=
  if cs = [] then none else cs.foldlM (fun acc c => (digitValue base c).map (acc * base + ·)) 0

/-- "Numbers are decimal or `0x` hexadecimal" (R79). -/
def readNumber (cs : List Char) : Option Nat :=
  match cs with
  | '0' :: 'x' :: rest => readNumeral 16 rest
  | _ => readNumeral 10 cs

/-- A number no greater than a limit: "An assembler refuses a line whose operand does not fit its field" (R79). -/
def readUpTo (limit : Nat) (cs : List Char) : Option Nat :=
  match readNumber cs with
  | some x => if x ≤ limit then some x else none
  | none => none

/-- A colour, byte or pin. -/
def readByte (cs : List Char) : Option Byte := (readUpTo 0xFF cs).map (BitVec.ofNat 8)

/-- `N` or `i`. -/
def readIndex (cs : List Char) : Option Nat := readUpTo 0xFFFFFF cs

/-- A 32-bit operand word. -/
def readWord (cs : List Char) : Option Word := (readUpTo 0xFFFFFFFF cs).map (BitVec.ofNat 32)

/-- The flag of SETCOR. -/
def readFlag (cs : List Char) : Option Bool := (readUpTo 1 cs).map (· == 1)

/-- A register, by its name in 10_state.md R47 or by its number (R79). -/
def readReg (cs : List Char) : Option RegName :=
  if cs = "LIFE".toList then some .life
  else if cs = "NPIX".toList then some .npix
  else if cs = "EFLEN".toList then some .eflen
  else if cs = "CTRL".toList then some .ctrl
  else if cs = "STATUS".toList then some .status
  else if cs = "TXIDX".toList then some .txidx
  else if cs = "FAULT".toList then some .fault
  else if cs = "TXCAP".toList then some .txcap
  else (readUpTo 7 cs).map fun g => regOfNumber (BitVec.ofNat 3 g)

/-! ## Levels -/

/-- The binary32 bit pattern nearest `num / den`, ties to even; beyond the largest finite value, infinity (R79). The
quotient is taken in units of 2^-149; `drop` bits of it do not fit a significand, and the pattern counts up through the
exponents as the significand does. -/
def nearestPattern (num den : Nat) : Nat :=
  let scaled := num * 2 ^ 149
  let drop := (scaled / den).log2 + 1 - 24
  let unit := 2 ^ drop * den
  let kept := scaled / unit
  let lost := scaled % unit
  let up := unit < 2 * lost ∨ (2 * lost = unit ∧ kept % 2 = 1)
  min (drop * 2 ^ 23 + (if up then kept + 1 else kept)) 0x7F800000

/-- The pattern of a decimal number with or without a fraction. -/
def readDecimal (cs : List Char) : Option Nat :=
  match readNumeral 10 (cs.takeWhile (· != '.')), cs.dropWhile (· != '.') with
  | some whole, [] => some (nearestPattern whole 1)
  | some whole, _ :: fraction =>
    (readNumeral 10 fraction).map fun f =>
      nearestPattern (whole * 10 ^ fraction.length + f) (10 ^ fraction.length)
  | none, _ => none

/-- A level: "a decimal number, converted to binary32 by round-to-nearest-even ..., or a raw bit pattern written
`f32:0xHHHHHHHH`" (R79). A minus sign sets the sign bit. -/
def readLevel (cs : List Char) : Option Word :=
  match cs with
  | 'f' :: '3' :: '2' :: ':' :: '0' :: 'x' :: digits =>
    if digits.length = 8 then (readNumeral 16 digits).map (BitVec.ofNat 32) else none
  | '-' :: magnitude => (readDecimal magnitude).map fun p => BitVec.ofNat 32 (2 ^ 31 + p)
  | _ => (readDecimal cs).map (BitVec.ofNat 32)

/-! ## Lines -/

/-- The commands of a mnemonic with its operands, in the operand orders of R79; the pseudo-commands of R80 to R82. -/
def assembleCommand (mnemonic : List Char) (operands : List (List Char)) : Option (List Instr) :=
  match operands with
  | [] =>
    if mnemonic = "INITDEF".toList then some [.initdef]
    else if mnemonic = "RENDER".toList then some [.render]
    else if mnemonic = "FLUSH".toList then some [.flush]
    else if mnemonic = "RELEASE".toList then some [.release]
    else if mnemonic = "DROP".toList then some [.drop]
    else if mnemonic = "SHOW".toList then some showExpansion
    else none
  | [a] =>
    if mnemonic = "GETPIX".toList then (readIndex a).map fun i => [.getpix i]
    else if mnemonic = "TXWR".toList then (readByte a).map fun v => [.txwr v]
    else if mnemonic = "SETCOR".toList then (readFlag a).map fun b => [.setcor b]
    else if mnemonic = "RDREG".toList then (readReg a).map fun g => [.rdreg g]
    else if mnemonic = "CLEAR".toList then (readIndex a).map clearExpansion
    else none
  | [a, b] =>
    if mnemonic = "INITBUS".toList then do return [.initbus (← readIndex a) (← readWord b)]
    else if mnemonic = "SETBRI".toList then do return [.setbri (← readIndex a) (← readLevel b)]
    else none
  | [a, b, c] =>
    if mnemonic = "INITBB".toList then do return [.initbb (← readIndex a) (← readByte b) (← readByte c)]
    else none
  | [a, b, c, d] =>
    if mnemonic = "SETRGB".toList then do
      return [.setrgb (← readIndex a) (← readByte b) (← readByte c) (← readByte d)]
    else none
  | [a, b, c, d, e] =>
    if mnemonic = "SETRGBB".toList then do
      return [.setrgbb (← readIndex a) (← readByte b) (← readByte c) (← readByte d) (← readLevel e)]
    else if mnemonic = "SETALL".toList then do
      return setallExpansion (← readIndex a) (← readByte b) (← readByte c) (← readByte d) (← readLevel e)
    else none
  | _ => none

/-- The commands of a line: "a mnemonic, then operands separated by commas. `;` starts a comment" (R79). A line without a
mnemonic has none; a line the assembler refuses gives `none`. -/
def assembleLine (line : String) : Option (List Instr) :=
  match trimBlanks (line.toList.takeWhile (· != ';')) with
  | [] => some []
  | c :: rest =>
    assembleCommand ((c :: rest).takeWhile fun c => !isBlank c) (operandTexts ((c :: rest).dropWhile fun c => !isBlank c))

/-- The words of a line. -/
def assembleWords (line : String) : Option (List Word) := (assembleLine line).map fun is => is.flatMap encode

end Sys2Proof.Machine
end

