-- ==== Sys2Proof/Machine/Observe.lean ====
section
/-! DEFINITION. What the LED chain receives, read off the trace: the bus byte stream (20_memory.md R57), the line levels
(10_state.md R46) and the bit-bang bit and byte streams (20_memory.md R56). -/

namespace Sys2Proof.Machine

/-- The event is a collaborator call, not a response. -/
def Event.isCall (e : Event) : Bool :=
  match e with
  | .call _ _ => true
  | .response _ _ => false

/-! ## The bus (R57) -/

/-- The bytes of one event that went out on the bus: all of a `BUS.write` that returned Ok, a drawn prefix of any other. -/
def busSent (e : Event) : List Byte :=
  match e with
  | .call (.busWrite bytes) d => if d.result = .ok then bytes else bytes.take d.effect
  | .call (.gpioAcquire _) _ => []
  | .call (.gpioSetOutput _) _ => []
  | .call (.gpioWrite _ _) _ => []
  | .call (.gpioRelease _) _ => []
  | .call (.busOpen _ _ _ _) _ => []
  | .response _ _ => []

/-- The bytes the chain received on the bus, in trace order. -/
def busStream (trace : List Event) : List Byte := trace.flatMap busSent

/-- The bytes of one event, if it is a `BUS.write` that returned Ok. -/
def busAccepted (e : Event) : List Byte :=
  match e with
  | .call (.busWrite bytes) d => if d.result = .ok then bytes else []
  | .call (.gpioAcquire _) _ => []
  | .call (.gpioSetOutput _) _ => []
  | .call (.gpioWrite _ _) _ => []
  | .call (.gpioRelease _) _ => []
  | .call (.busOpen _ _ _ _) _ => []
  | .response _ _ => []

/-- "The concatenation, in trace order, of the bytes arguments of every BUS.write call that returned Ok" (R57). -/
def busAcceptedStream (trace : List Event) : List Byte := trace.flatMap busAccepted

/-! ## The lines (R46, R56) -/

/-- The `GPIO.write` changed its line: always if it returned Ok, else as drawn (R56, decision D43). -/
def lineChanged (d : Draw) : Bool := d.result == .ok || d.effect != 0

/-- The level of pin `p` after the event at position `k` of the trace, from its level before. A pin that is acquired, set
up or released is at a level nothing specifies until it is written (R46, 41_transport.md R101). Entry 15. -/
def levelAfter (p : Byte) (k : Nat) (level : Bool) (e : Event) : Bool :=
  match e with
  | .call (.gpioWrite q v) d => if q = p ∧ lineChanged d then v else level
  | .call (.gpioAcquire q) _ => if q = p then Config.freeLevel k p else level
  | .call (.gpioSetOutput q) _ => if q = p then Config.freeLevel k p else level
  | .call (.gpioRelease q) _ => if q = p then Config.freeLevel k p else level
  | .call (.busOpen _ _ _ _) _ => level
  | .call (.busWrite _) _ => level
  | .response _ _ => level

/-- The level of pin `p` after a run of events that begins at position `k`. -/
def levelFrom (p : Byte) (k : Nat) (level : Bool) (trace : List Event) : Bool :=
  match trace with
  | [] => level
  | e :: rest => levelFrom p (k + 1) (levelAfter p k level e) rest

/-- The level of pin `p` at the end of the trace (R46). -/
def lineLevel (p : Byte) (trace : List Event) : Bool := levelFrom p 0 (Config.freeLevel 0 p) trace

/-- The event carries a bit: a `GPIO.write(pin_clock, 1)` that returned Ok, or one that did not and by its draw raised the
line (R56; 95_test_vectors.md V-T2: "with or without its rising edge"). Entry 26. -/
def clocksBit (pinClock : Byte) (e : Event) : Bool :=
  match e with
  | .call (.gpioWrite q true) d => q == pinClock && lineChanged d
  | .call (.gpioWrite _ false) _ => false
  | .call (.gpioAcquire _) _ => false
  | .call (.gpioSetOutput _) _ => false
  | .call (.gpioRelease _) _ => false
  | .call (.busOpen _ _ _ _) _ => false
  | .call (.busWrite _) _ => false
  | .response _ _ => false

/-- The bits a run of events carries, from the data line's level before it: each clock rise carries the data line's level
(R56). -/
def bitsFrom (pinData pinClock : Byte) (k : Nat) (level : Bool) (trace : List Event) : List Bool :=
  match trace with
  | [] => []
  | e :: rest =>
    (if clocksBit pinClock e then [level] else []) ++
      bitsFrom pinData pinClock (k + 1) (levelAfter pinData k level e) rest

/-- Bits grouped 8 at a time, most significant first; a last group of fewer than 8 is no byte (R56). -/
def bytesOfBits (bits : List Bool) : List Byte :=
  match bits with
  | b7 :: b6 :: b5 :: b4 :: b3 :: b2 :: b1 :: b0 :: rest =>
    (BitVec.ofBool b7 ++ BitVec.ofBool b6 ++ BitVec.ofBool b5 ++ BitVec.ofBool b4 ++ BitVec.ofBool b3 ++
      BitVec.ofBool b2 ++ BitVec.ofBool b1 ++ BitVec.ofBool b0) :: bytesOfBits rest
  | _ => []

/-- The bytes the chain on a pair of pins received by bit-banging (R56). -/
def bitbangStream (pinData pinClock : Byte) (trace : List Event) : List Byte :=
  bytesOfBits (bitsFrom pinData pinClock 0 (Config.freeLevel 0 pinData) trace)

end Sys2Proof.Machine
end

