-- ==== Sys2Proof/Safety.lean ====
section
/-! DEFINITION. The terms the claims are made in: what a run may not end in, the invariant of the machine, and names for
what the rules say a command does. -/

namespace Sys2Proof.Machine

/-! ## Safe states -/

/-- No fault is recorded ("a recorded fault [is] a state no claim may end in", 60_exceptions.md R145) and no collaborator
call is outstanding forever (00_scope.md R23). -/
def State.Safe (s : State) : Prop := s.fault = none ∧ s.hung = false

/-! ## The invariant -/

/-- The positions `seq` can take for a handle of `n` pixels and an end frame of `L` bytes (10_state.md R43). -/
def SeqPos.Legal (n L : Nat) (p : SeqPos) : Prop :=
  match p with
  | .idle => True
  | .start j => j < 4
  | .pixel i j => i < n ∧ j < 4
  | .endFrame j => j < L
  | .flush => True

/-- What holds of every state a run reaches, between commands and in a hang. -/
structure State.Inv (s : State) : Prop where
  /-- The parameters meet their constraints (00_scope.md R8, R9, R11). -/
  params_valid : s.params.Valid
  /-- P is in canonical form. -/
  pix_wf : pixWf s.pix
  /-- P has addresses `0..4n-1` only (20_memory.md R51). -/
  pix_inside : ∀ c ∈ s.pix, c.1 < 4 * s.n
  /-- `pix[i].b0[7:5] = 0b111` (10_state.md R37). -/
  marker : ∀ i < s.n, (pixRead s.pix (4 * i)).extractLsb' 5 3 = 0b111#3
  /-- T is in canonical form. -/
  buf_rising : s.buf.Rising
  /-- T has offsets `0..CAP-1` only (20_memory.md R52). -/
  buf_inside : ∀ c ∈ s.buf, c.1 < s.params.cap
  /-- Every held byte was stored: no free value is ever sent. -/
  buf_held : ∀ j < s.idx, (s.buf.stored j).isSome
  /-- `0 ≤ write_index ≤ capacity` (10_state.md R41). -/
  idx_le : s.idx ≤ s.params.cap
  /-- "When backend = BITBANG, idx is 0 throughout" (R41). -/
  idx_bitbang : s.backend = .bitbang → s.idx = 0
  /-- Before any construction every field has its reset value (R30, R33 to R35, R40, R41). -/
  unconfigured : s.life = .unconfigured →
    s.n = 0 ∧ s.L = 0 ∧ s.cor = false ∧ s.backend = .bitbang ∧ s.txReleased = false ∧ s.idx = 0
  /-- A handle has an admitted pixel count and the end frame it gives (00_scope.md R9, 10_state.md R34). -/
  configured : s.life ≠ .unconfigured → 1 ≤ s.n ∧ s.n ≤ s.params.numPixelsMax ∧ s.L = endFrameLen s.n
  /-- A bit-bang handle has two distinct pins (00_scope.md R13). -/
  pins_distinct : s.life ≠ .unconfigured → s.backend = .bitbang → s.pinData ≠ s.pinClock
  /-- An active handle's transport is not released, but for a release that hangs (R40). -/
  active_transport : s.life = .active → s.hung = false → s.txReleased = false
  /-- "life = 2, tx_released = 1 and idx = 0" (R49). -/
  released_transport : s.life = .released → s.txReleased = true ∧ s.idx = 0
  /-- `seq` is at a position of the frame (R43). -/
  seq_legal : s.seq.Legal s.n s.L
  /-- "It is IDLE between commands" (R43). -/
  seq_idle : s.hung = false → s.seq = .idle
  /-- A recorded fault is the last status, and the status is a fault only then (60_exceptions.md R145, R146). -/
  fault_is_status : ∀ c, s.fault = some c ↔ s.status = .fault c
  /-- The Halted refusal is never written to `status` (R146). -/
  status_not_halted : s.status ≠ .halted
  /-- A hang is a last call that does not return (00_scope.md R23). -/
  hung_last : s.hung = true → ∃ c d, s.trace.getLast? = some (.call c d) ∧ d.result = .noReturn
  /-- One draw per call. -/
  draw_count : s.drawNo = (s.trace.filter Event.isCall).length

/-! ## Answers of the environment -/

/-- The next `k` collaborator calls return Ok. -/
def State.AnswersOk (s : State) (k : Nat) : Prop := ∀ j < k, (s.drawAt j).result = .ok

/-- The next `k` collaborator calls return, well or ill (`COLLAB_LIVE`, 00_scope.md R23). -/
def State.AnswersReturn (s : State) (k : Nat) : Prop := ∀ j < k, (s.drawAt j).result ≠ .noReturn

/-- The events of making these calls in this order, each with the answer it gets. -/
def State.callEvents (s : State) (calls : List Call) : List Event :=
  calls.zipIdx.map fun c => .call c.1 (s.drawAt c.2)

/-- The state once these calls have been made: their events observed, their answers used up, nothing else. -/
def State.called (s : State) (calls : List Call) : State :=
  { s with
    draws := s.draws.drop calls.length
    drawNo := s.drawNo + calls.length
    trace := s.trace ++ s.callEvents calls }

/-! ## How commands end -/

/-- The command ends in `raise Fault(c)` and has no other effect (60_exceptions.md R145). -/
def RaisesFault (i : Instr) (s : State) (c : FaultCode) : Prop :=
  exec i s = .next { s with fault := some c, status := .fault c, trace := s.trace ++ [.response (.fault c) 0] }

/-- The command gets `(Halted, 0)` and has no other effect (60_exceptions.md R146). -/
def GivesHalted (i : Instr) (s : State) : Prop :=
  exec i s = .next { s with trace := s.trace ++ [.response .halted 0] }

/-- The command answers `(OK, data)` and leaves `u`, but for `status` and the response. -/
def Completes (i : Instr) (s : State) (st : Status) (data : Word) (u : State) : Prop :=
  exec i s = .next { u with status := st, trace := u.trace ++ [.response st data] }

/-- Checks 1 and 4 of 60_exceptions.md R147 for a command that needs a handle (43_lifecycle.md R125, second column). -/
def HandleChecks (i : Instr) (s : State) : Prop :=
  (s.fault ≠ none → GivesHalted i s) ∧
  (s.fault = none → s.life = .unconfigured → RaisesFault i s .noHandle) ∧
  (s.fault = none → s.life = .released → RaisesFault i s .afterRelease)

/-- The same with check 5 for a pixel index `x`. -/
def IndexChecks (i : Instr) (x : Nat) (s : State) : Prop :=
  HandleChecks i s ∧ (s.fault = none → s.life = .active → s.n ≤ x → RaisesFault i s .indexRange)

/-- Checks 1, 4 and the count part of check 5 for a construction of `count` pixels. -/
def ConstructionChecks (i : Instr) (count : Nat) (s : State) : Prop :=
  (s.fault ≠ none → GivesHalted i s) ∧
  (s.fault = none → s.life = .active → RaisesFault i s .handleActive) ∧
  (s.fault = none → s.life ≠ .active → (count = 0 ∨ s.params.numPixelsMax < count) → RaisesFault i s .badConfig)

/-- A command that needs a handle passes checks 1 and 4. -/
abbrev State.Ready (s : State) : Prop := s.fault = none ∧ s.life = .active

/-- A construction of `count` pixels passes checks 1, 4 and the count part of 5. -/
abbrev State.Constructible (s : State) (count : Nat) : Prop :=
  s.fault = none ∧ s.life ≠ .active ∧ 1 ≤ count ∧ count ≤ s.params.numPixelsMax

/-! ## Frames and calls -/

/-- The three GPIO calls of one bit (41_transport.md R98). -/
def bitPulse (pinData pinClock : Byte) (b : Bool) : List Call :=
  [.gpioWrite pinData b, .gpioWrite pinClock true, .gpioWrite pinClock false]

/-- The 24 GPIO calls of one byte: bit 7 first, down to bit 0 (41_transport.md R97, R98). -/
def byteCalls (pinData pinClock : Byte) (v : Byte) : List Call :=
  ([7, 6, 5, 4, 3, 2, 1, 0].map fun j => bitPulse pinData pinClock (v.getLsbD j)).flatten

/-- The calls of a run of bytes on the block's pins. -/
def State.bitbangCallsOf (s : State) (bytes : List Byte) : List Call :=
  bytes.flatMap (byteCalls s.pinData s.pinClock)

/-- The bytes of a frame over given pixel bytes: 4 zeros, the pixels' four bytes from index 0, L zeros
(42_frame_protocol.md R121). -/
def frameBytesOf (n L : Nat) (pixelByte : Nat → Byte) : List Byte :=
  List.replicate 4 0x00#8 ++
    ((List.range n).flatMap fun i => [pixelByte (4 * i), pixelByte (4 * i + 1), pixelByte (4 * i + 2), pixelByte (4 * i + 3)]) ++
    List.replicate L 0x00#8

/-- The bytes RENDER presents to the transport. -/
def State.frameBytes (s : State) : List Byte := frameBytesOf s.n s.L (pixRead s.pix)

/-- The pixel byte a release renders: brightness kept, colour 0 (43_lifecycle.md R133). -/
def clearedByte (m : Memory) (a : Nat) : Byte := if a % 4 = 0 then pixRead m a else 0x00#8

/-- The bytes of the frame a release with `cor = 1` renders. -/
def State.clearedFrameBytes (s : State) : List Byte := frameBytesOf s.n s.L (clearedByte s.pix)

/-- The bus transmissions that `bytes` (held bytes and new ones) make on their way through a buffer of `cap` bytes: one
`BUS.write` of `cap` bytes for each full buffer (41_transport.md R102, R108). -/
def fullChunkCalls (cap : Nat) (bytes : List Byte) : List Call :=
  (List.range (bytes.length / cap)).map fun j => .busWrite ((bytes.drop (j * cap)).take cap)

/-- What is left of them in the buffer. -/
def chunkRest (cap : Nat) (bytes : List Byte) : List Byte := bytes.drop (bytes.length / cap * cap)

/-- The flush's call, if anything is left (41_transport.md R105). -/
def restCalls (cap : Nat) (bytes : List Byte) : List Call :=
  if (chunkRest cap bytes).length = 0 then [] else [.busWrite (chunkRest cap bytes)]

/-- All transmissions of a bus render or flush of these bytes (42_frame_protocol.md R123). -/
def busCallsOf (cap : Nat) (bytes : List Byte) : List Call := fullChunkCalls cap bytes ++ restCalls cap bytes

/-! ## Tables and notions of the spec -/

/-- The opcode map of R74: op, k, match, mask. -/
def opcodeMap : List (Byte × Nat × Word × Word) :=
  [(0x01, 0, 0x01000000, 0xFFFFFFFF), (0x02, 1, 0x02000000, 0xFF000000), (0x03, 1, 0x03000000, 0xFF000000),
   (0x10, 1, 0x10000000, 0xFF000000), (0x11, 1, 0x11000000, 0xFF000000), (0x12, 2, 0x12000000, 0xFF000000),
   (0x13, 0, 0x13000000, 0xFF000000), (0x20, 0, 0x20000000, 0xFFFFFFFF), (0x21, 0, 0x21000000, 0xFFFFFF00),
   (0x22, 0, 0x22000000, 0xFFFFFFFF), (0x30, 0, 0x30000000, 0xFFFFFFFE), (0x31, 0, 0x31000000, 0xFFFFFFF8),
   (0x3E, 0, 0x3E000000, 0xFFFFFFFF), (0x3F, 0, 0x3F000000, 0xFFFFFFFF)]

/-- The thresholds of R86: `T[0] = 0`, then the binary32 values nearest k/31 as bit patterns. -/
def briThresholds : List Nat :=
  [0, 0x3D042108, 0x3D842108, 0x3DC6318C, 0x3E042108, 0x3E25294A, 0x3E46318C, 0x3E6739CE, 0x3E842108, 0x3E94A529,
   0x3EA5294A, 0x3EB5AD6B, 0x3EC6318C, 0x3ED6B5AD, 0x3EE739CE, 0x3EF7BDEF, 0x3F042108, 0x3F0C6319, 0x3F14A529,
   0x3F1CE73A, 0x3F25294A, 0x3F2D6B5B, 0x3F35AD6B, 0x3F3DEF7C, 0x3F46318C, 0x3F4E739D, 0x3F56B5AD, 0x3F5EF7BE,
   0x3F6739CE, 0x3F6F7BDF, 0x3F77BDEF, 0x3F800000]

/-- The bit pattern of the clamped value of R85: negative values and -0.0 give that of 0, values above 1.0 that of 1.0. -/
def clampedPattern (w : Word) : Nat := if w.getLsbD 31 then 0 else min w.toNat 0x3F800000

/-- A number of 2^-149 units that a binary32 significand of 24 bits can hold (in the range of the products of R85). -/
def F32Representable (x : Nat) : Prop := ∃ m e, m < 2 ^ 24 ∧ x = m * 2 ^ e

/-- The command neither writes pixel `x` nor builds or releases a handle. -/
def keepsPixel (x : Nat) (i : Instr) : Bool :=
  match i with
  | .initdef => false
  | .initbb _ _ _ => false
  | .initbus _ _ => false
  | .setrgb y _ _ _ => y != x
  | .setbri y _ => y != x
  | .setrgbb y _ _ _ _ => y != x
  | .getpix _ => true
  | .render => true
  | .txwr _ => true
  | .flush => true
  | .setcor _ => true
  | .rdreg _ => true
  | .release => false
  | .drop => false

/-- Commands one after another, stopping at the first that gives no next state. -/
def execAll (is : List Instr) (s : State) : Host.Outcome State Fault Refusal :=
  match is with
  | [] => .next s
  | i :: rest =>
    match exec i s with
    | .next t => execAll rest t
    | .fault f => .fault f
    | .refused r => .refused r

end Sys2Proof.Machine
end

