-- ==== Sys2Proof/Certificates/Slice0/Obligations.lean ====
section
/-! DEFINITION. The statements for the provers, from the numbered rules of spec/. Where a title or docstring names a log
entry, that clause is the model's choice, not the spec's. -/

open Sys2Proof Sys2Proof.Machine

/-! ## Encoding (30_encoding.md) -/

/-- R83: the worked assembly lines have the worked encodings, and those decode as the commands, whatever words follow. -/
def Obligations.WorkedEncodings : Prop :=
  (assembleWords "INITDEF" = some [0x01000000] ∧
    assembleWords "INITBB 8, 23, 24" = some [0x02000008, 0x00001718] ∧
    assembleWords "INITBUS 3, 8000000" = some [0x03000003, 0x007A1200] ∧
    assembleWords "SETRGBB 0, 255, 0, 0, 1.0" = some [0x12000000, 0x00FF0000, 0x3F800000] ∧
    assembleWords "SETRGBB 1, 0, 255, 0, 0.5" = some [0x12000001, 0x0000FF00, 0x3F000000] ∧
    assembleWords "SETBRI 2, 0.2" = some [0x11000002, 0x3E4CCCCD] ∧
    assembleWords "GETPIX 2" = some [0x13000002] ∧
    assembleWords "TXWR 0xA5" = some [0x210000A5] ∧
    assembleWords "SETCOR 0" = some [0x30000000] ∧
    assembleWords "RDREG TXIDX" = some [0x31000005] ∧
    assembleWords "RELEASE" = some [0x3E000000]) ∧
  ∀ rest : List Word,
    decode (0x01000000 :: rest) = .command .initdef rest ∧
    decode (0x02000008 :: 0x00001718 :: rest) = .command (.initbb 8 23 24) rest ∧
    decode (0x03000003 :: 0x007A1200 :: rest) = .command (.initbus 3 8000000) rest ∧
    decode (0x12000000 :: 0x00FF0000 :: 0x3F800000 :: rest) = .command (.setrgbb 0 255 0 0 0x3F800000) rest ∧
    decode (0x12000001 :: 0x0000FF00 :: 0x3F000000 :: rest) = .command (.setrgbb 1 0 255 0 0x3F000000) rest ∧
    decode (0x11000002 :: 0x3E4CCCCD :: rest) = .command (.setbri 2 0x3E4CCCCD) rest ∧
    decode (0x13000002 :: rest) = .command (.getpix 2) rest ∧
    decode (0x210000A5 :: rest) = .command (.txwr 0xA5) rest ∧
    decode (0x30000000 :: rest) = .command (.setcor false) rest ∧
    decode (0x31000005 :: rest) = .command (.rdreg .txidx) rest ∧
    decode (0x3E000000 :: rest) = .command .release rest

/-- R70 to R74: decoding the words of a well-formed command gives it back, every operand at every value, and leaves the
words after it. -/
def Obligations.DecodeOfEncodeIsTheCommand : Prop :=
  ∀ (i : Instr) (rest : List Word), i.wellFormed = true → decode (encode i ++ rest) = .command i rest

/-- R70 to R75: only the words of a command decode to it, so each word string has one meaning and none is spelled twice. -/
def Obligations.EncodeOfDecodeIsTheWords : Prop :=
  ∀ (ws : List Word) (i : Instr) (rest : List Word),
    decode ws = .command i rest → i.wellFormed = true ∧ ws = encode i ++ rest

/-- R74: a header selects a row exactly if `W0 & mask = match`; the row's k operand words are taken; a header that selects
no row spells no command, and one whose op is in no row is unassigned. -/
def Obligations.HeaderSelectsItsRow : Prop :=
  (∀ row ∈ opcodeMap, ∀ (w : Word) (rest : List Word), w &&& row.2.2.2 = row.2.2.1 →
    (rest.length < row.2.1 → decode (w :: rest) = .incomplete) ∧
    (row.2.1 ≤ rest.length →
      (∃ i, i.opcode = row.1 ∧ decode (w :: rest) = .command i (rest.drop row.2.1)) ∨
      decode (w :: rest) = .reservedOperandBits (rest.drop row.2.1))) ∧
  (∀ (w : Word) (rest : List Word), (∀ row ∈ opcodeMap, w &&& row.2.2.2 ≠ row.2.2.1) →
    decode (w :: rest) = .reservedHeaderBits rest ∨ decode (w :: rest) = .unassignedOpcode rest) ∧
  (∀ (w : Word) (rest : List Word), (∀ row ∈ opcodeMap, opcodeOf w ≠ row.1) → decode (w :: rest) = .unassignedOpcode rest)

/-- R75: a reserved header bit, or a reserved bit of an RGB or PINS word, makes the command illegal: all its words are
taken, IllegalCommand is raised, and nothing else happens, whatever the lifecycle. -/
def Obligations.ReservedBitsAreIllegal : Prop :=
  ∀ (s : State) (rest : List Word), s.hung = false → s.fault = none →
    (∀ w, s.cmds = w :: rest → (∃ row ∈ opcodeMap, opcodeOf w = row.1 ∧ w &&& row.2.2.2 ≠ row.2.2.1) →
      step s = .next { s with
        cmds := rest, fault := some .illegalCommand, status := .fault .illegalCommand
        trace := s.trace ++ [.response (.fault .illegalCommand) 0] }) ∧
    (∀ w w1, s.cmds = w :: w1 :: rest →
      (opcodeOf w = 0x10#8 ∧ w1.extractLsb' 24 8 ≠ 0#8 ∨ opcodeOf w = 0x02#8 ∧ w1.extractLsb' 16 16 ≠ 0#16) →
      step s = .next { s with
        cmds := rest, fault := some .illegalCommand, status := .fault .illegalCommand
        trace := s.trace ++ [.response (.fault .illegalCommand) 0] }) ∧
    (∀ w w1 w2, s.cmds = w :: w1 :: w2 :: rest → opcodeOf w = 0x12#8 → w1.extractLsb' 24 8 ≠ 0#8 →
      step s = .next { s with
        cmds := rest, fault := some .illegalCommand, status := .fault .illegalCommand
        trace := s.trace ++ [.response (.fault .illegalCommand) 0] })

/-- R76: the unassigned opcodes take no operand words and raise IllegalCommand; the all-zero word is one. -/
def Obligations.UnassignedOpcodesAreIllegal : Prop :=
  ∀ (s : State) (w : Word) (rest : List Word), s.hung = false → s.fault = none → s.cmds = w :: rest →
    (opcodeOf w = 0x00 ∨ (0x04 ≤ opcodeOf w ∧ opcodeOf w ≤ 0x0F) ∨ (0x14 ≤ opcodeOf w ∧ opcodeOf w ≤ 0x1F) ∨
      (0x23 ≤ opcodeOf w ∧ opcodeOf w ≤ 0x2F) ∨ (0x32 ≤ opcodeOf w ∧ opcodeOf w ≤ 0x3D) ∨ 0x40 ≤ opcodeOf w) →
    step s = .next { s with
      cmds := rest, fault := some .illegalCommand, status := .fault .illegalCommand
      trace := s.trace ++ [.response (.fault .illegalCommand) 0] }

/-- R80, R133: running the commands of `CLEAR N`, as the only words the host presents, on a handle of N pixels leaves
every colour byte 0, every brightness byte kept and everything else but the responses alone. -/
def Obligations.ClearExpansionClearsColours : Prop :=
  ∀ s : State, s.Ready → s.hung = false → s.n < 2 ^ 24 → s.status = .ok →
    s.cmds = (clearExpansion s.n).flatMap encode →
    ∃ m, core.run s.n s = .next { s with
        cmds := [], pix := m, trace := s.trace ++ List.replicate s.n (.response .ok 0) } ∧
      ∀ a, pixRead m a = if a < 4 * s.n then clearedByte s.pix a else pixRead s.pix a

/-! ## Taking commands (00_scope.md R24, 60_exceptions.md) -/

/-- R70, R147: a step runs the command its words decode to, with the words taken. -/
def Obligations.StepRunsDecodedCommand : Prop :=
  ∀ (s : State) (i : Instr) (rest : List Word), s.hung = false → decode s.cmds = .command i rest →
    step s = exec i { s with cmds := rest }

/-- R158, R70: with no complete command there the block is idle and keeps all state (entry 1: the words as a list). -/
def Obligations.IdleBlockKeepsState : Prop :=
  ∀ s : State, s.hung = false →
    (s.cmds = [] ∨ ∃ w rest, s.cmds = w :: rest ∧ rest.length < operandWords (opcodeOf w)) → step s = .next s

/-- R23: a block that waits for a call that never returns has no step (entry 4: the stop's name). -/
def Obligations.HungBlockHasNoStep : Prop :=
  ∀ s : State, s.hung = true → step s = .fault .collaboratorHang

/-- R146: while a fault is recorded, a command other than a well-formed RDREG has its words taken, gets `(Halted, 0)` and
changes no state. -/
def Obligations.HaltedBlockRefusesCommands : Prop :=
  ∀ (s : State) (w : Word) (rest : List Word), s.hung = false → s.fault ≠ none → s.cmds = w :: rest →
    operandWords (opcodeOf w) ≤ rest.length → (∀ g r, decode s.cmds ≠ .command (.rdreg g) r) →
    step s = .next { s with
      cmds := rest.drop (operandWords (opcodeOf w)), trace := s.trace ++ [.response .halted 0] }

/-- R28: `fault` holds the first fault raised: a step never changes a recorded fault, records one only with its response,
and power-on reset clears it. -/
def Obligations.RecordedFaultIsSticky : Prop :=
  (∀ s t : State, step s = .next t →
    (∀ c, s.fault = some c → t.fault = some c) ∧
    (∀ c, s.fault = none → t.fault = some c → t.trace.getLast? = some (.response (.fault c) 0) ∧ t.status = .fault c)) ∧
  ∀ s : State, s.powerOn.fault = none

/-- R153: the lifecycle changes only so: a construction enters ACTIVE, a release leaves it for RELEASED, power-on reset
enters UNCONFIGURED. -/
def Obligations.OnlyConstructionAndReleaseChangeLife : Prop :=
  (∀ s t : State, step s = .next t → t.life ≠ s.life →
    ∃ i rest, decode s.cmds = .command i rest ∧
      ((i.opcode = 0x01#8 ∨ i.opcode = 0x02#8 ∨ i.opcode = 0x03#8) ∧ t.life = .active ∨
       (i.opcode = 0x3E#8 ∨ i.opcode = 0x3F#8) ∧ s.life = .active ∧ t.life = .released)) ∧
  ∀ s : State, s.powerOn.life = .unconfigured

/-- R33: the pixel count, and with it the end-frame length, the variant, the pins and the clock speed, are written only by
a successful construction; no step writes the parameters; the reset value of the count is 0. -/
def Obligations.HandleIsFixedForItsLifetime : Prop :=
  (∀ s t : State, step s = .next t → t.params = s.params ∧
    (¬ (t.n = s.n ∧ t.L = s.L ∧ t.backend = s.backend ∧ t.pinData = s.pinData ∧ t.pinClock = s.pinClock ∧
        t.clockHz = s.clockHz) →
      ∃ i rest, decode s.cmds = .command i rest ∧ (i.opcode = 0x01#8 ∨ i.opcode = 0x02#8 ∨ i.opcode = 0x03#8) ∧
        s.life ≠ .active ∧ t.life = .active ∧ t.status = .ok)) ∧
  State.reset.n = 0

/-- R24, R29, R143: a step that takes a command makes calls and then gives one response, whose status is the one written,
but for the two that write none (RDREG, Halted); only a hang gives none. -/
def Obligations.OneResponsePerCommand : Prop :=
  ∀ s t : State, step s = .next t → decode s.cmds ≠ .incomplete →
    ∃ calls, (∀ e ∈ calls, e.isCall = true) ∧
      t.drawNo = s.drawNo + calls.length ∧
      ((t.hung = true ∧ t.trace = s.trace ++ calls) ∨
       (t.hung = false ∧ ∃ st data, t.trace = s.trace ++ calls ++ [.response st data] ∧
         (t.status = st ∨
           t.status = s.status ∧ calls = [] ∧ (st = .halted ∨ ∃ g r, decode s.cmds = .command (.rdreg g) r))))

/-- R155: a command of a configured handle calls only the collaborator its backend names, and only the pins of the handle. -/
def Obligations.HandleReachesOnlyItsCollaborator : Prop :=
  ∀ (i : Instr) (s t : State), s.life = .active → exec i s = .next t →
    ∃ added, t.trace = s.trace ++ added ∧ ∀ c d, .call c d ∈ added →
      (s.backend = .bitbang → (∃ b, c = .gpioWrite s.pinData b) ∨ (∃ b, c = .gpioWrite s.pinClock b) ∨
        c = .gpioRelease s.pinData ∨ c = .gpioRelease s.pinClock) ∧
      (s.backend = .bus → ∃ bytes, c = .busWrite bytes)

/-! ## Pixel commands (40_pixel_encoder.md) -/

/-- R90: the encoding and the checks of SETRGB; admitted, it writes the three colour bytes of one pixel and nothing else. -/
def Obligations.SetrgbWritesColour : Prop :=
  (∀ (x : BitVec 24) (w : Word) (rest : List Word),
    decode ((0x10#8 ++ x) :: w :: rest) =
      if w.extractLsb' 24 8 = 0#8 then
        .command (.setrgb x.toNat (w.extractLsb' 16 8) (w.extractLsb' 8 8) (w.extractLsb' 0 8)) rest
      else .reservedOperandBits rest) ∧
  ∀ (x : Nat) (red green blue : Byte) (s : State),
    IndexChecks (.setrgb x red green blue) x s ∧
    (s.Ready → x < s.n → ∃ m, Completes (.setrgb x red green blue) s .ok 0 { s with pix := m } ∧
      pixRead m (4 * x + 1) = blue ∧ pixRead m (4 * x + 2) = green ∧ pixRead m (4 * x + 3) = red ∧
      ∀ a, (a < 4 * x + 1 ∨ 4 * x + 3 < a) → pixRead m a = pixRead s.pix a)

/-- R91: the encoding and the checks of SETBRI; admitted, it writes the brightness byte of one pixel and nothing else. -/
def Obligations.SetbriWritesBrightness : Prop :=
  (∀ (x : BitVec 24) (w : Word) (rest : List Word),
    decode ((0x11#8 ++ x) :: w :: rest) = .command (.setbri x.toNat w) rest) ∧
  ∀ (x : Nat) (level : Word) (s : State),
    IndexChecks (.setbri x level) x s ∧
    (s.Ready → x < s.n → ∃ m, Completes (.setbri x level) s .ok 0 { s with pix := m } ∧
      pixRead m (4 * x) = 0xE0#8 ||| BitVec.ofNat 8 (briCode level) ∧
      ∀ a, a ≠ 4 * x → pixRead m a = pixRead s.pix a)

/-- R92: the encoding and the checks of SETRGBB; admitted, it writes the four bytes of one pixel and nothing else. -/
def Obligations.SetrgbbWritesPixel : Prop :=
  (∀ (x : BitVec 24) (w level : Word) (rest : List Word),
    decode ((0x12#8 ++ x) :: w :: level :: rest) =
      if w.extractLsb' 24 8 = 0#8 then
        .command (.setrgbb x.toNat (w.extractLsb' 16 8) (w.extractLsb' 8 8) (w.extractLsb' 0 8) level) rest
      else .reservedOperandBits rest) ∧
  ∀ (x : Nat) (red green blue : Byte) (level : Word) (s : State),
    IndexChecks (.setrgbb x red green blue level) x s ∧
    (s.Ready → x < s.n → ∃ m, Completes (.setrgbb x red green blue level) s .ok 0 { s with pix := m } ∧
      pixRead m (4 * x) = 0xE0#8 ||| BitVec.ofNat 8 (briCode level) ∧
      pixRead m (4 * x + 1) = blue ∧ pixRead m (4 * x + 2) = green ∧ pixRead m (4 * x + 3) = red ∧
      ∀ a, (a < 4 * x ∨ 4 * x + 3 < a) → pixRead m a = pixRead s.pix a)

/-- R93: the encoding and the checks of GETPIX; admitted, it answers the four bytes of one pixel and writes nothing. -/
def Obligations.GetpixReadsPixel : Prop :=
  (∀ (x : BitVec 24) (rest : List Word), decode ((0x13#8 ++ x) :: rest) = .command (.getpix x.toNat) rest) ∧
  ∀ (x : Nat) (s : State),
    IndexChecks (.getpix x) x s ∧
    (s.Ready → x < s.n → ∃ data : Word, Completes (.getpix x) s .ok data s ∧
      data.extractLsb' 24 8 = pixRead s.pix (4 * x) ∧ data.extractLsb' 16 8 = pixRead s.pix (4 * x + 1) ∧
      data.extractLsb' 8 8 = pixRead s.pix (4 * x + 2) ∧ data.extractLsb' 0 8 = pixRead s.pix (4 * x + 3) ∧
      (s.Inv → data.extractLsb' 29 3 = 0b111#3))

/-- R89: after SETRGBB and any commands that do not write the pixel, GETPIX gives back the colour and the brightness code. -/
def Obligations.PixelRoundTrip : Prop :=
  ∀ (x : Nat) (red green blue : Byte) (level : Word) (s t : State), s.Ready → x < s.n →
    exec (.setrgbb x red green blue level) s = .next t →
    ∀ (later : List Instr) (u : State), (∀ i ∈ later, keepsPixel x i = true) → execAll later t = .next u → u.Ready →
      ∃ data : Word, Completes (.getpix x) u .ok data u ∧
        data.extractLsb' 0 8 = red ∧ data.extractLsb' 8 8 = green ∧ data.extractLsb' 16 8 = blue ∧
        (data.extractLsb' 24 5).toNat = briCode level ∧ data.extractLsb' 29 3 = 0b111#3

/-- R86: for every level that is no NaN the brightness code of R85, computed by the rounded binary32 product, is the
largest k whose threshold the clamped value reaches. (Entry 14, PRESUMED: the product's rounding is the spec's general
knowledge, not its source's word.) -/
def Obligations.BrightnessCodeIsLargestThreshold : Prop :=
  ∀ w : Word, isNaN w = false →
    ∃ t, briThresholds[briCode w]? = some t ∧ t ≤ clampedPattern w ∧
      ∀ (k u : Nat), briThresholds[k]? = some u → u ≤ clampedPattern w → k ≤ briCode w

/-- R87, R88: every NaN gives 0xE0, every level below 0 (and -0.0) gives 0xE0, every level above 1.0 gives 0xFF. (Entry 14,
PRESUMED: the NaN's code is the spec's own decision from general knowledge, D17.) -/
def Obligations.BrightnessOutsideUnitInterval : Prop :=
  ∀ w : Word,
    ((w.extractLsb' 23 8 = 0xFF#8 ∧ w.extractLsb' 0 23 ≠ 0#23) → encodeBrightness w = 0xE0#8) ∧
    (¬ (w.extractLsb' 23 8 = 0xFF#8 ∧ w.extractLsb' 0 23 ≠ 0#23) →
      (w.getLsbD 31 = true → encodeBrightness w = 0xE0#8) ∧ (w.getLsbD 31 = false → 0x3F800000 < w.toNat → encodeBrightness w = 0xFF#8))

/-- Entry 14, PRESUMED: the product is rounded to nearest, ties to even, a rounding that R19 takes from general knowledge:
no representable value is nearer, and where another is equally near the significand taken is even. -/
def Obligations.ProductRoundsToNearestEven : Prop :=
  ∀ x : Nat, F32Representable (roundF32 x) ∧
    (∀ q, F32Representable q → (x - roundF32 x) + (roundF32 x - x) ≤ (x - q) + (q - x)) ∧
    (∀ q, F32Representable q → q ≠ roundF32 x → (x - roundF32 x) + (roundF32 x - x) = (x - q) + (q - x) →
      ∃ m e, 2 ^ 23 ≤ m ∧ m < 2 ^ 24 ∧ m % 2 = 0 ∧ roundF32 x = m * 2 ^ e)

/-- Entry 8: the canonical form makes equal pixel stores equal data: what is read decides what is listed. -/
def Obligations.CanonicalPixelStoreIsItsContent : Prop :=
  ∀ m m' : Memory, pixWf m → pixWf m' → (∀ a, pixRead m a = pixRead m' a) → m = m'

/-! ## Transport (41_transport.md) -/

/-- R97, R98, R110: on bit-bang, with every call Ok, TXWR makes the byte's 24 calls, three a bit, bit 7 first. -/
def Obligations.BitbangTxwrMakesTheBitCalls : Prop :=
  ∀ (v : Byte) (s : State), s.Ready → s.backend = .bitbang → s.AnswersOk 24 →
    Completes (.txwr v) s .ok 0 { s.called (byteCalls s.pinData s.pinClock v) with seq := .idle } ∧
    byteCalls s.pinData s.pinClock v =
      [.gpioWrite s.pinData (v.getLsbD 7), .gpioWrite s.pinClock true, .gpioWrite s.pinClock false,
       .gpioWrite s.pinData (v.getLsbD 6), .gpioWrite s.pinClock true, .gpioWrite s.pinClock false,
       .gpioWrite s.pinData (v.getLsbD 5), .gpioWrite s.pinClock true, .gpioWrite s.pinClock false,
       .gpioWrite s.pinData (v.getLsbD 4), .gpioWrite s.pinClock true, .gpioWrite s.pinClock false,
       .gpioWrite s.pinData (v.getLsbD 3), .gpioWrite s.pinClock true, .gpioWrite s.pinClock false,
       .gpioWrite s.pinData (v.getLsbD 2), .gpioWrite s.pinClock true, .gpioWrite s.pinClock false,
       .gpioWrite s.pinData (v.getLsbD 1), .gpioWrite s.pinClock true, .gpioWrite s.pinClock false,
       .gpioWrite s.pinData (v.getLsbD 0), .gpioWrite s.pinClock true, .gpioWrite s.pinClock false]

/-- R55, R56, R98: on two distinct pins the chain reads the bytes bit-banged Ok, in order and MSB first, off the trace, and
each byte leaves the clock line low and the data line at its bit 0. After any events, a clock-high write adds the data
line's level as one bit exactly if it returned Ok or by its draw raised the line (entry 26). -/
def Obligations.BitbangBytesReachTheWire : Prop :=
  (∀ (bytes : List Byte) (s : State) (k : Nat) (level : Bool), s.pinData ≠ s.pinClock → s.AnswersOk (24 * bytes.length) →
    bytesOfBits (bitsFrom s.pinData s.pinClock k level (s.callEvents (s.bitbangCallsOf bytes))) = bytes ∧
    ∀ v, bytes.getLast? = some v →
      levelFrom s.pinClock k level (s.callEvents (s.bitbangCallsOf bytes)) = false ∧
      levelFrom s.pinData k level (s.callEvents (s.bitbangCallsOf bytes)) = v.getLsbD 0) ∧
  ∀ (pinData pinClock : Byte) (k : Nat) (level : Bool) (trace : List Event) (d : Draw),
    bitsFrom pinData pinClock k level (trace ++ [.call (.gpioWrite pinClock true) d]) =
      bitsFrom pinData pinClock k level trace ++
        if d.result = .ok ∨ d.effect ≠ 0 then [levelFrom pinData k level trace] else []

/-- R99, R142, R23: on bit-bang the first call that does not return Ok is TXWR's last; an error is the response and is not
sticky, and a call that never returns leaves no response (entry 4: the step that makes it, and the flag). -/
def Obligations.BitbangTxwrStopsAtTheFirstError : Prop :=
  ∀ (v : Byte) (s : State) (k : Nat), s.Ready → s.backend = .bitbang → k < 24 → s.AnswersOk k →
    let made := s.called ((byteCalls s.pinData s.pinClock v).take (k + 1))
    ((s.drawAt k).result = .deviceError →
      Completes (.txwr v) s (.error .peripheralError) 0 { made with seq := .idle }) ∧
    ((s.drawAt k).result = .ioError → Completes (.txwr v) s (.error .ioError) 0 { made with seq := .idle }) ∧
    ((s.drawAt k).result = .noReturn → exec (.txwr v) s = .next { made with hung := true })

/-- R125, R147, R74: the encodings and the checks of the commands that need a handle and take no pixel index. -/
def Obligations.HandleCommandsAreChecked : Prop :=
  (∀ (v : Byte) (rest : List Word), decode ((0x21#8 ++ 0#16 ++ v) :: rest) = .command (.txwr v) rest) ∧
  (∀ rest : List Word, decode (0x22000000#32 :: rest) = .command .flush rest) ∧
  (∀ rest : List Word, decode (0x20000000#32 :: rest) = .command .render rest) ∧
  (∀ (b : Bool) (rest : List Word), decode ((0x30#8 ++ 0#23 ++ BitVec.ofBool b) :: rest) = .command (.setcor b) rest) ∧
  ∀ (v : Byte) (b : Bool) (s : State),
    HandleChecks (.txwr v) s ∧ HandleChecks .flush s ∧ HandleChecks .render s ∧ HandleChecks (.setcor b) s

/-- R100: on bit-bang, FLUSH makes no call and succeeds. -/
def Obligations.BitbangFlushMakesNoCall : Prop :=
  ∀ s : State, s.Ready → s.backend = .bitbang → Completes .flush s .ok 0 { s with seq := .idle }

/-- R102, R103, R104, R23: on the bus, TXWR of a byte appends it; the byte that fills the buffer is sent with the rest at
once and empties it on Ok; on an error `idx` stays at CAP and the bytes stay; a call that never returns leaves no response
(entry 4: the step that makes it, and the flag); with `idx = CAP` it raises BufferFull and appends nothing. -/
def Obligations.BusTxwrAppendsAndSendsFullBuffer : Prop :=
  ∀ (v : Byte) (s : State), s.Ready → s.backend = .bus →
    (s.idx + 1 < s.params.cap → ∃ m,
      Completes (.txwr v) s .ok 0 { s with buf := m, idx := s.idx + 1, seq := .idle } ∧
      bufRead m s.idx = v ∧ ∀ j, j ≠ s.idx → bufRead m j = bufRead s.buf j) ∧
    (s.idx + 1 = s.params.cap → ∃ m, bufRead m s.idx = v ∧ (∀ j, j ≠ s.idx → bufRead m j = bufRead s.buf j) ∧
      let made := { s.called [.busWrite (heldBytes s ++ [v])] with buf := m, seq := .idle }
      ((s.drawAt 0).result = .ok → Completes (.txwr v) s .ok 0 { made with idx := 0 }) ∧
      ((s.drawAt 0).result = .deviceError →
        Completes (.txwr v) s (.error .busError) 0 { made with idx := s.params.cap }) ∧
      ((s.drawAt 0).result = .ioError →
        Completes (.txwr v) s (.error .ioError) 0 { made with idx := s.params.cap }) ∧
      ((s.drawAt 0).result = .noReturn →
        exec (.txwr v) s = .next { made with idx := s.params.cap, seq := s.seq, hung := true })) ∧
    (s.idx = s.params.cap → exec (.txwr v) s = .next { s with
      fault := some .bufferFull, status := .fault .bufferFull, seq := .idle
      trace := s.trace ++ [.response (.fault .bufferFull) 0] })

/-- R105, R106, R23: on the bus, FLUSH with nothing held makes no call; else it sends exactly the held bytes in one call,
which empties the buffer on Ok and leaves it as it was otherwise; a call that never returns leaves no response (entry 4: the
step that makes it, and the flag). -/
def Obligations.BusFlushSendsWhatIsHeld : Prop :=
  ∀ s : State, s.Ready → s.backend = .bus →
    (s.idx = 0 → Completes .flush s .ok 0 { s with seq := .idle }) ∧
    (s.idx ≠ 0 →
      let made := { s.called [.busWrite ((List.range s.idx).map (bufRead s.buf))] with seq := .idle }
      ((s.drawAt 0).result = .ok → Completes .flush s .ok 0 { made with idx := 0 }) ∧
      ((s.drawAt 0).result = .deviceError → Completes .flush s (.error .busError) 0 made) ∧
      ((s.drawAt 0).result = .ioError → Completes .flush s (.error .ioError) 0 made) ∧
      ((s.drawAt 0).result = .noReturn → exec .flush s = .next { made with seq := s.seq, hung := true }))

/-- R108: from `idx < CAP`, writing m bytes with every transmission Ok makes `floor((idx + m) / CAP)` calls of CAP bytes each,
in order, and holds the remaining `(idx + m) mod CAP` bytes; a flush then makes one call for them if there are any. -/
def Obligations.BusWriteChunkCounts : Prop :=
  ∀ (bytes : List Byte) (s : State), s.idx < s.params.cap →
    let all := heldBytes s ++ bytes
    let chunks := fullChunkCalls s.params.cap all
    chunks.length = (s.idx + bytes.length) / s.params.cap ∧
    (∀ c ∈ chunks, ∃ b, c = .busWrite b ∧ b.length = s.params.cap) ∧
    (s.AnswersOk ((s.idx + bytes.length) / s.params.cap) → ∃ m,
      let t := { s.called chunks with buf := m, idx := (s.idx + bytes.length) % s.params.cap }
      twriteBus bytes s = (t, .ok) ∧ heldBytes t = chunkRest s.params.cap all ∧
      (t.idx = 0 → tflushBus t = (t, .ok)) ∧
      (t.idx ≠ 0 → (s.drawAt ((s.idx + bytes.length) / s.params.cap)).result = .ok →
        tflushBus t = ({ s.called (chunks ++ [.busWrite (chunkRest s.params.cap all)]) with buf := m, idx := 0 }, .ok)))

/-- R120: how a byte sequence is split into `TWrite` calls is unobservable, on both variants and whatever the answers. -/
def Obligations.WriteSplitIsUnobservable : Prop :=
  ∀ (xs ys : List Byte) (s : State), twrite (xs ++ ys) s = andThen (twrite xs s) (twrite ys)

/-- R57, R65, R166: on the bus nothing is lost or reordered, whatever the answers: the bytes of the transmissions that
returned Ok, then the bytes held, are those before the command followed by a prefix of what the command presents, and by
all of it if the command succeeds. -/
def Obligations.BusLosesAndReordersNothing : Prop :=
  ∀ (i : Instr) (presented : List Byte) (s t : State), s.Ready → s.backend = .bus →
    ((∃ v, i = .txwr v ∧ presented = [v]) ∨ (i = .flush ∧ presented = []) ∨ (i = .render ∧ presented = s.frameBytes)) →
    exec i s = .next t →
    ∃ sent, sent <+: presented ∧
      busAcceptedStream t.trace ++ heldBytes t = busAcceptedStream s.trace ++ heldBytes s ++ sent ∧
      (t.trace.getLast? = some (.response .ok 0) → sent = presented)

/-- R21: every `BUS.write` a step makes carries 1 to CAP bytes, from any state of the invariant. -/
def Obligations.BusWritesCarryOneToCapBytes : Prop :=
  ∀ s t : State, s.Inv → step s = .next t →
    ∃ added, t.trace = s.trace ++ added ∧
      ∀ bytes d, .call (.busWrite bytes) d ∈ added → 1 ≤ bytes.length ∧ bytes.length ≤ s.params.cap

/-- R41: `buf[j]` for `j >= idx` is never transmitted and unobservable: two states that differ only there give, under any
command, the same events and differ afterwards only in bytes not held. -/
def Obligations.BufferBeyondIndexIsUnobservable : Prop :=
  ∀ (i : Instr) (s : State) (m : Memory), (∀ j < s.idx, bufRead m j = bufRead s.buf j) →
    ∃ t t', exec i s = .next t ∧ exec i { s with buf := m } = .next t' ∧
      t' = { t with buf := t'.buf } ∧ ∀ j < t.idx, bufRead t'.buf j = bufRead t.buf j

/-- Decision D43, R56, R57: the block does not see what a failed call did: two environments whose settled answers differ
only in the drawn effects give, under any command, the same state, calls and responses. -/
def Obligations.EffectOfFailedCallIsInvisible : Prop :=
  ∀ (i : Instr) (s : State) (ds : List Draw), ds.map (·.result) = s.draws.map (·.result) →
    ∃ t t', exec i s = .next t ∧ exec i { s with draws := ds } = .next t' ∧
      t' = { t with draws := t'.draws, trace := t'.trace } ∧
      t'.draws.map (·.result) = t.draws.map (·.result) ∧
      ∃ added added', t.trace = s.trace ++ added ∧ t'.trace = s.trace ++ added' ∧
        List.Forall₂ (fun e e' => e = e' ∨ ∃ c d d', e = .call c d ∧ e' = .call c d' ∧ d.result = d'.result) added added'

/-! ## Frame (42_frame_protocol.md) -/

/-- R115, R116, R118: the end-frame length `4 + ceil(N/16)` a construction computes equals the source's
`4 + floor(N/16 + 0.94)` over the admitted range (in units of 1/1600), has the listed values, and gives every handle more
than N/2 clock edges: 8L bits. -/
def Obligations.EndFrameLengths : Prop :=
  (∀ N : Nat, 1 ≤ N → N ≤ 2 ^ 24 - 1 →
    endFrameLen N = 4 + (100 * N + 94 * 16) / 1600 ∧
    N ≤ 16 * (endFrameLen N - 4) ∧ 16 * (endFrameLen N - 4) < N + 16) ∧
  [1, 8, 15, 16, 17, 32, 33, 144, 1000, 2 ^ 24 - 1].map endFrameLen = [5, 5, 5, 5, 6, 6, 7, 13, 67, 1048580] ∧
  ∀ s : State, s.Inv → s.life ≠ .unconfigured → s.n < 2 * (8 * s.L)

/-- R121: the bytes a render of a handle presents: `8 + 4N + ceil(N/16)` of them, the first 4 and the last L zero, and byte
`4 + 4i + k` byte k of pixel i. -/
def Obligations.FrameLayout : Prop :=
  ∀ s : State, s.L = endFrameLen s.n →
    (frame s).map (·.2) = s.frameBytes ∧
    s.frameBytes.length = 8 + 4 * s.n + (s.n + 15) / 16 ∧
    (∀ j < 4, s.frameBytes[j]? = some 0x00#8) ∧
    (∀ i < s.n, ∀ k < 4, s.frameBytes[4 + 4 * i + k]? = some (pixRead s.pix (4 * i + k))) ∧
    (∀ j < s.L, s.frameBytes[4 + 4 * s.n + j]? = some 0x00#8)

/-- R122, R124: on bit-bang, with every call Ok, RENDER makes the 24 calls of each frame byte, no other call, and only reads
the pixels. -/
def Obligations.BitbangRenderSendsTheFrame : Prop :=
  ∀ s : State, s.Ready → s.backend = .bitbang → s.AnswersOk (24 * (4 + 4 * s.n + s.L)) →
    Completes .render s .ok 0 { s.called (s.bitbangCallsOf s.frameBytes) with seq := .idle } ∧
    (s.bitbangCallsOf s.frameBytes).length = 24 * (4 + 4 * s.n + s.L)

/-- R119, R23: on bit-bang, the first call of a render that does not return Ok is its last. (Entries 4 and 20: what a call
that never returns leaves.) -/
def Obligations.BitbangRenderStopsAtTheFirstError : Prop :=
  ∀ (s : State) (k : Nat), s.Ready → s.backend = .bitbang → k < 24 * (4 + 4 * s.n + s.L) → s.AnswersOk k →
    let made := s.called ((s.bitbangCallsOf s.frameBytes).take (k + 1))
    ((s.drawAt k).result = .deviceError →
      Completes .render s (.error .peripheralError) 0 { made with seq := .idle }) ∧
    ((s.drawAt k).result = .ioError → Completes .render s (.error .ioError) 0 { made with seq := .idle }) ∧
    ((s.drawAt k).result = .noReturn →
      ∃ p, p.Legal s.n s.L ∧ exec .render s = .next { made with seq := p, hung := true })

/-- R123: on the bus, a render from `idx = i0 < CAP` with every transmission Ok makes `floor((i0 + F) / CAP)` calls of CAP
bytes and one of the remaining bytes if there are any, and ends with `idx = 0`; what was held goes first. -/
def Obligations.BusRenderSendsTheFrame : Prop :=
  ∀ s : State, s.Ready → s.backend = .bus → s.idx < s.params.cap →
    let calls := busCallsOf s.params.cap (heldBytes s ++ s.frameBytes)
    s.AnswersOk calls.length →
    (∃ m, Completes .render s .ok 0 { s.called calls with buf := m, idx := 0, seq := .idle }) ∧
    calls.length = (s.idx + (4 + 4 * s.n + s.L)) / s.params.cap +
      (if (s.idx + (4 + 4 * s.n + s.L)) % s.params.cap = 0 then 0 else 1) ∧
    (s.idx = 0 → 4 + 4 * s.n + s.L ≤ s.params.cap → calls = [.busWrite s.frameBytes])

/-- R119, R103, R106, R104, R23: the first transmission of a bus render that does not return Ok is its last. The bytes it
tried to send stay held: the k-th CAP of them with `idx = CAP`, or what is left for the flush. An error is reported and is
not sticky; a call that never returns leaves no response (entries 4 and 20). A render that finds the buffer full raises
BufferFull before any call. -/
def Obligations.BusRenderReportsTheError : Prop :=
  ∀ s : State, s.Ready → s.backend = .bus →
    (s.idx < s.params.cap →
      let all := heldBytes s ++ s.frameBytes
      let full := (s.idx + (4 + 4 * s.n + s.L)) / s.params.cap
      let calls := busCallsOf s.params.cap all
      ∀ k < calls.length, s.AnswersOk k → ∃ m,
        let made := { s.called (calls.take (k + 1)) with
          buf := m
          idx := if k < full then s.params.cap else (s.idx + (4 + 4 * s.n + s.L)) % s.params.cap }
        heldBytes made = (if k < full then (all.drop (k * s.params.cap)).take s.params.cap else chunkRest s.params.cap all) ∧
        ((s.drawAt k).result = .deviceError → Completes .render s (.error .busError) 0 { made with seq := .idle }) ∧
        ((s.drawAt k).result = .ioError → Completes .render s (.error .ioError) 0 { made with seq := .idle }) ∧
        ((s.drawAt k).result = .noReturn →
          ∃ p, p.Legal s.n s.L ∧ (k < full ↔ p ≠ .flush) ∧ exec .render s = .next { made with seq := p, hung := true })) ∧
    (s.idx = s.params.cap → exec .render s = .next { s with
      fault := some .bufferFull, status := .fault .bufferFull, seq := .idle
      trace := s.trace ++ [.response (.fault .bufferFull) 0] })

/-! ## Construction (43_lifecycle.md §2) -/

/-- R126, R128, R13: INITBB with its checks passed and every call Ok acquires and sets up the data pin, then the clock pin,
writes no level, and builds a handle with every pixel at the default. -/
def Obligations.InitbbBuildsTheHandle : Prop :=
  ∀ (N : Nat) (pd pc : Byte) (s : State),
    ConstructionChecks (.initbb N pd pc) N s ∧
    (s.Constructible N → pd = pc → RaisesFault (.initbb N pd pc) s .badConfig) ∧
    (s.Constructible N → pd ≠ pc → s.AnswersOk 4 → ∃ m b,
      Completes (.initbb N pd pc) s .ok 0
        { s.called [.gpioAcquire pd, .gpioSetOutput pd, .gpioAcquire pc, .gpioSetOutput pc] with
          life := .active, backend := .bitbang, pinData := pd, pinClock := pc, n := N, L := 4 + (N + 15) / 16
          cor := true, pix := m, txReleased := false, buf := b, idx := 0, seq := .idle } ∧
      ∀ i < N, pixWord m i = 0xE7000000#32)

/-- R130: a construction whose k-th call fails releases the pins it acquired, in order, whatever those calls return, reports
the error and changes no other field. -/
def Obligations.InitbbFailureReleasesThePins : Prop :=
  ∀ (N : Nat) (pd pc : Byte) (s : State) (k : Nat), s.Constructible N → pd ≠ pc → k < 4 → s.AnswersOk k →
    let calls := [Call.gpioAcquire pd, .gpioSetOutput pd, .gpioAcquire pc, .gpioSetOutput pc]
    let acquired := ([[], [pd], [pd], [pd, pc]] : List (List Byte))[k]?.getD []
    let made := s.called (calls.take (k + 1) ++ acquired.map .gpioRelease)
    (∀ j < acquired.length, (s.drawAt (k + 1 + j)).result ≠ .noReturn) →
    ((s.drawAt k).result = .deviceError → Completes (.initbb N pd pc) s (.error .peripheralError) 0 made) ∧
    ((s.drawAt k).result = .ioError → Completes (.initbb N pd pc) s (.error .ioError) 0 made)

/-- R127: INITDEF is INITBB with 8 pixels and the default pins, in every state; so it completes as that does. -/
def Obligations.InitdefIsInitbbOfTheDefaults : Prop :=
  (∀ rest : List Word, decode (0x01000000#32 :: rest) = .command .initdef rest) ∧
  ∀ s : State, exec .initdef s = exec (.initbb 8 s.params.defaultPinData s.params.defaultPinClock) s ∧
    (s.Constructible 8 → s.params.defaultPinData ≠ s.params.defaultPinClock → s.AnswersOk 4 → ∃ t,
      exec .initdef s = .next t ∧ t.life = .active ∧ t.backend = .bitbang ∧ t.n = 8 ∧ t.L = 5 ∧ t.cor = true ∧
      t.pinData = s.params.defaultPinData ∧ t.pinClock = s.params.defaultPinClock ∧ t.status = .ok ∧
      ∀ i < 8, pixWord t.pix i = 0xE7000000#32)

/-- R129, R126, R130, R14: INITBUS opens the bus once, with the parameters and the host's clock speed unchanged; on Ok it
builds a handle with every pixel at the default, on an error it reports it and changes no other field; a call that never
returns leaves no response (R23; entry 4: the step that makes it, and the flag). -/
def Obligations.InitbusOpensTheBus : Prop :=
  ∀ (N : Nat) (hz : Word) (s : State),
    ConstructionChecks (.initbus N hz) N s ∧
    (s.Constructible N →
      let made := s.called [.busOpen s.params.busId s.params.chipSelect hz s.params.busMode]
      ((s.drawAt 0).result = .ok → ∃ m b,
        Completes (.initbus N hz) s .ok 0
          { made with
            life := .active, backend := .bus, clockHz := hz, n := N, L := 4 + (N + 15) / 16
            cor := true, pix := m, txReleased := false, buf := b, idx := 0, seq := .idle } ∧
        ∀ i < N, pixWord m i = 0xE7000000#32) ∧
      ((s.drawAt 0).result = .deviceError → Completes (.initbus N hz) s (.error .busError) 0 made) ∧
      ((s.drawAt 0).result = .ioError → Completes (.initbus N hz) s (.error .ioError) 0 made) ∧
      ((s.drawAt 0).result = .noReturn → exec (.initbus N hz) s = .next { made with hung := true }))

/-! ## Control and release (43_lifecycle.md §3, §4) -/

/-- R131: SETCOR writes the flag and nothing else. -/
def Obligations.SetcorWritesTheFlag : Prop :=
  ∀ (b : Bool) (s : State), s.Ready → Completes (.setcor b) s .ok 0 { s with cor := b }

/-- R132, R47: RDREG, numbered as the map numbers it, answers the register in every state, halted or not, and changes
nothing, not even `status`. (Entry 12: TXIDX and TXCAP are read as 32-bit numbers.) -/
def Obligations.RdregReadsTheRegisterView : Prop :=
  (∀ rest : List Word,
    decode (0x31000000 :: rest) = .command (.rdreg .life) rest ∧ decode (0x31000001 :: rest) = .command (.rdreg .npix) rest ∧
    decode (0x31000002 :: rest) = .command (.rdreg .eflen) rest ∧ decode (0x31000003 :: rest) = .command (.rdreg .ctrl) rest ∧
    decode (0x31000004 :: rest) = .command (.rdreg .status) rest ∧ decode (0x31000005 :: rest) = .command (.rdreg .txidx) rest ∧
    decode (0x31000006 :: rest) = .command (.rdreg .fault) rest ∧ decode (0x31000007 :: rest) = .command (.rdreg .txcap) rest) ∧
  ∀ (g : RegName) (s : State), s.n < 2 ^ 24 → s.L < 2 ^ 21 → s.idx < 2 ^ 32 → s.params.cap < 2 ^ 32 →
    ∃ data : Word, exec (.rdreg g) s = .next { s with trace := s.trace ++ [.response .ok data] } ∧
      data.toNat = match g with
        | .life =>
          (match s.life with | .unconfigured => 0 | .active => 1 | .released => 2) +
            (match s.backend with | .bitbang => 0 | .bus => 16) + (if s.txReleased then 32 else 0)
        | .npix => s.n
        | .eflen => s.L
        | .ctrl => if s.cor then 1 else 0
        | .status =>
          (match s.status with
            | .ok => 0x00 | .error .peripheralError => 0x01 | .error .busError => 0x02 | .error .ioError => 0x03
            | .fault .illegalCommand => 0x81 | .fault .noHandle => 0x82 | .fault .afterRelease => 0x83
            | .fault .handleActive => 0x84 | .fault .indexRange => 0x85 | .fault .badConfig => 0x86
            | .fault .bufferFull => 0x87 | .halted => 0x88)
        | .txidx => s.idx
        | .fault =>
          (match s.fault with
            | none => 0x00 | some .illegalCommand => 0x81 | some .noHandle => 0x82 | some .afterRelease => 0x83
            | some .handleActive => 0x84 | some .indexRange => 0x85 | some .badConfig => 0x86
            | some .bufferFull => 0x87)
        | .txcap => if s.backend = .bus ∧ s.life ≠ .unconfigured then s.params.cap else 0

/-- R134, R135, R136, R125: the encodings and checks of RELEASE and DROP; in RELEASED either is a no-op that returns OK. -/
def Obligations.ReleasedHandleReleaseIsNoop : Prop :=
  (∀ rest : List Word, decode (0x3E000000#32 :: rest) = .command .release rest ∧
    decode (0x3F000000#32 :: rest) = .command .drop rest) ∧
  ∀ i ∈ [Instr.release, Instr.drop], ∀ s : State,
    (s.fault ≠ none → GivesHalted i s) ∧
    (s.fault = none → s.life = .unconfigured → RaisesFault i s .noHandle) ∧
    (s.fault = none → s.life = .released → Completes i s .ok 0 s)

/-- R133, R137, R101: on bit-bang with `cor = 1` and every write Ok, RELEASE and DROP clear every colour, keep every
brightness byte, send that frame, release the data pin and then the clock pin whatever those calls return, and end RELEASED. -/
def Obligations.BitbangReleaseBlanksAndReleasesPins : Prop :=
  ∀ i ∈ [Instr.release, Instr.drop], ∀ s : State, s.Ready → s.backend = .bitbang → s.cor = true → s.txReleased = false →
    s.AnswersOk (24 * (4 + 4 * s.n + s.L)) → s.AnswersReturn (24 * (4 + 4 * s.n + s.L) + 2) →
    ∃ m, Completes i s .ok 0
        { s.called (s.bitbangCallsOf s.clearedFrameBytes ++ [.gpioRelease s.pinData, .gpioRelease s.pinClock]) with
          pix := m, txReleased := true, life := .released, seq := .idle } ∧
      ∀ a, pixRead m a = if a < 4 * s.n then clearedByte s.pix a else pixRead s.pix a

/-- R133, R137, R107: the same on the bus, where the release itself makes no call. -/
def Obligations.BusReleaseBlanksAndDrains : Prop :=
  ∀ i ∈ [Instr.release, Instr.drop], ∀ s : State, s.Ready → s.backend = .bus → s.cor = true → s.idx < s.params.cap →
    let calls := busCallsOf s.params.cap (heldBytes s ++ s.clearedFrameBytes)
    s.AnswersOk calls.length →
    ∃ m b, Completes i s .ok 0
        { s.called calls with
          pix := m, buf := b, idx := 0, txReleased := true, life := .released, seq := .idle } ∧
      ∀ a, pixRead m a = if a < 4 * s.n then clearedByte s.pix a else pixRead s.pix a

/-- R133, R101, R107: with `cor = 0` a release clears and renders nothing; on bit-bang it releases the two pins, on the bus
it makes no call and what is held is never sent. -/
def Obligations.ReleaseWithoutClearOnlyReleases : Prop :=
  ∀ i ∈ [Instr.release, Instr.drop], ∀ s : State, s.Ready → s.cor = false → s.txReleased = false →
    (s.backend = .bitbang → s.AnswersReturn 2 →
      Completes i s .ok 0
        { s.called [.gpioRelease s.pinData, .gpioRelease s.pinClock] with
          txReleased := true, life := .released, seq := .idle }) ∧
    (s.backend = .bus → Completes i s .ok 0 { s with txReleased := true, idx := 0, life := .released, seq := .idle })

/-- R133, R134, R135, R150, R101, R107: when the release's render fails the transport is released all the same (on bit-bang
both pins, on the bus without a call, what is held discarded) and the block ends RELEASED; RELEASE reports the error, DROP
reports OK. -/
def Obligations.ReleaseTearsDownAfterRenderError : Prop :=
  ∀ (s : State) (k : Nat), s.Ready → s.cor = true → s.txReleased = false → s.AnswersOk k →
    ∃ m, (∀ a, pixRead m a = if a < 4 * s.n then clearedByte s.pix a else pixRead s.pix a) ∧
      (s.backend = .bitbang → k < 24 * (4 + 4 * s.n + s.L) → s.AnswersReturn (k + 3) →
        let ended := { s.called
            ((s.bitbangCallsOf s.clearedFrameBytes).take (k + 1) ++ [.gpioRelease s.pinData, .gpioRelease s.pinClock]) with
          pix := m, txReleased := true, life := .released, seq := .idle }
        ((s.drawAt k).result = .deviceError →
          Completes .release s (.error .peripheralError) 0 ended ∧ Completes .drop s .ok 0 ended) ∧
        ((s.drawAt k).result = .ioError →
          Completes .release s (.error .ioError) 0 ended ∧ Completes .drop s .ok 0 ended)) ∧
      (s.backend = .bus → s.idx < s.params.cap →
        let calls := busCallsOf s.params.cap (heldBytes s ++ s.clearedFrameBytes)
        k < calls.length → ∃ b,
          let ended := { s.called (calls.take (k + 1)) with
            pix := m, buf := b, idx := 0, txReleased := true, life := .released, seq := .idle }
          ((s.drawAt k).result = .deviceError →
            Completes .release s (.error .busError) 0 ended ∧ Completes .drop s .ok 0 ended) ∧
          ((s.drawAt k).result = .ioError →
            Completes .release s (.error .ioError) 0 ended ∧ Completes .drop s .ok 0 ended))

/-- R138: BufferFull inside the release's render halts at once: the colours are cleared, nothing is called or released, and
`life` stays ACTIVE. -/
def Obligations.BufferFullInReleaseHalts : Prop :=
  ∀ i ∈ [Instr.release, Instr.drop], ∀ s : State, s.Ready → s.backend = .bus → s.cor = true → s.idx = s.params.cap →
    ∃ m, exec i s = .next { s with
        pix := m, fault := some .bufferFull, status := .fault .bufferFull, seq := .idle
        trace := s.trace ++ [.response (.fault .bufferFull) 0] } ∧
      ∀ a, pixRead m a = if a < 4 * s.n then clearedByte s.pix a else pixRead s.pix a

/-- R135, R150: whatever the collaborators answer, if every call returns and no fault is raised, a DROP answers `(OK, 0)` and
ends RELEASED with the transport released. -/
def Obligations.DropNeverSurfacesAnError : Prop :=
  ∀ s t : State, s.Ready → s.hung = false → exec .drop s = .next t → t.hung = false → t.fault = none →
    t.status = .ok ∧ t.trace.getLast? = some (.response .ok 0) ∧ t.life = .released ∧ t.txReleased = true

/-! ## The whole machine -/

/-- R26 to R43: every step keeps the invariant. -/
def Obligations.StepKeepsInvariant : Prop :=
  ∀ s t : State, s.Inv → step s = .next t → t.Inv

/-- R159: the reset state meets the invariant, whatever the parameters it is given (entry 6). -/
def Obligations.ResetMeetsInvariant : Prop := State.reset.Inv

/-- R159: what power-on reset leaves, from any state (entry 18); of the unspecified fields nothing is said. It calls no
collaborator, a machine that met the invariant meets it again, and after reset the block waits for its first command. -/
def Obligations.PowerOnResetValues : Prop :=
  step State.reset = .next State.reset ∧ State.reset.trace = [] ∧ ∀ s : State,
    s.powerOn.life = .unconfigured ∧ s.powerOn.fault = none ∧ s.powerOn.status = .ok ∧ s.powerOn.backend = .bitbang ∧
    s.powerOn.n = 0 ∧ s.powerOn.L = 0 ∧ s.powerOn.cor = false ∧ s.powerOn.txReleased = false ∧ s.powerOn.idx = 0 ∧
    s.powerOn.seq = .idle ∧ s.powerOn.pix = [] ∧ s.powerOn.trace = s.trace ∧ s.powerOn.params = s.params ∧
    (s.Inv → s.powerOn.Inv)
end

