-- ==== Sys2Proof/Laws/Decode.lean ====
section
/-! SUPPORT. The fields of encoded words, each read back once, and the decoder row by row. -/

namespace Sys2Proof

@[simp] theorem opcodeOf_headerWord (op : Byte) (f : BitVec 24) : opcodeOf (headerWord op f) = op := by
  simp only [opcodeOf, headerWord]; ext i hi; simp; grind

@[simp] theorem headerField_headerWord (op : Byte) (f : BitVec 24) : headerField (headerWord op f) = f := by
  simp only [headerField, headerWord]; ext i hi; simp; grind

@[simp] theorem opcodeOf_headerX (op : Byte) (x : Nat) : opcodeOf (headerX op x) = op := opcodeOf_headerWord op _

/-- A 24-bit number survives its X field. -/
theorem xField_headerX (op : Byte) {x : Nat} (h : FitsX x) : xField (headerX op x) = x := by
  simp only [xField, headerX, headerField_headerWord, BitVec.toNat_ofNat]
  exact Nat.mod_eq_of_lt h

@[simp] theorem redField_rgbWord (r g b : Byte) : redField (rgbWord r g b) = r := by
  simp only [redField, rgbWord]; ext i hi; simp; grind

@[simp] theorem greenField_rgbWord (r g b : Byte) : greenField (rgbWord r g b) = g := by
  simp only [greenField, rgbWord]; ext i hi; simp; grind

@[simp] theorem blueField_rgbWord (r g b : Byte) : blueField (rgbWord r g b) = b := by
  simp only [blueField, rgbWord]; ext i hi; simp; grind

@[simp] theorem rgbReservedZero_rgbWord (r g b : Byte) : rgbReservedZero (rgbWord r g b) = true := by
  simp only [rgbReservedZero, rgbWord, beq_iff_eq]; ext i hi; simp; grind

@[simp] theorem pinDataField_pinsWord (d c : Byte) : pinDataField (pinsWord d c) = d := by
  simp only [pinDataField, pinsWord]; ext i hi; simp; grind

@[simp] theorem pinClockField_pinsWord (d c : Byte) : pinClockField (pinsWord d c) = c := by
  simp only [pinClockField, pinsWord]; ext i hi; simp; grind

@[simp] theorem pinsReservedZero_pinsWord (d c : Byte) : pinsReservedZero (pinsWord d c) = true := by
  simp only [pinsReservedZero, pinsWord, beq_iff_eq]; ext i hi; simp; grind

@[simp] theorem byteField_headerWord (op v : Byte) : byteField (headerWord op (0#16 ++ v)) = v := by
  simp only [byteField, headerWord]; ext i hi; simp; grind

@[simp] theorem regOfNumber_regNumber (r : RegName) : regOfNumber (regNumber r) = r := by cases r <;> rfl

theorem regNumber_regOfNumber (g : BitVec 3) : regNumber (regOfNumber g) = g := by
  revert g; decide

/-- A word is its opcode and its field part. -/
theorem headerWord_fields (w : Word) : headerWord (opcodeOf w) (headerField w) = w := by
  simp only [headerWord, opcodeOf, headerField]
  ext i hi
  simp
  grind

/-- A header in format X is its opcode and its number. -/
theorem headerX_fields (w : Word) : headerX (opcodeOf w) (xField w) = w := by
  rw [headerX, xField, BitVec.ofNat_toNat, BitVec.setWidth_eq, headerWord_fields]

theorem fitsX_xField (w : Word) : FitsX (xField w) := (headerField w).isLt

/-- An RGB word whose reserved bits are zero is its three colours. -/
theorem rgbWord_fields {w : Word} (h : rgbReservedZero w = true) :
    rgbWord (redField w) (greenField w) (blueField w) = w := by
  simp only [rgbReservedZero, beq_iff_eq] at h
  simp only [rgbWord, redField, greenField, blueField, ← h]
  ext i hi
  simp
  grind

/-- A PINS word whose reserved bits are zero is its two pins. -/
theorem pinsWord_fields {w : Word} (h : pinsReservedZero w = true) :
    pinsWord (pinDataField w) (pinClockField w) = w := by
  simp only [pinsReservedZero, beq_iff_eq] at h
  simp only [pinsWord, pinDataField, pinClockField, ← h]
  ext i hi
  simp
  grind

/-! ## The decoder, one lemma per row of 30_encoding.md R74 -/

theorem decode_initdef {w : Word} (h : opcodeOf w = 0x01#8) (rest : List Word) :
    decode (w :: rest) = headerOnly (headerField w == 0#24) .initdef rest := by simp [decode, h]

theorem decode_initbb {w : Word} (h : opcodeOf w = 0x02#8) (rest : List Word) :
    decode (w :: rest) =
      withOneOperand pinsReservedZero (fun p => .initbb (xField w) (pinDataField p) (pinClockField p)) rest := by
  simp [decode, h]

theorem decode_initbus {w : Word} (h : opcodeOf w = 0x03#8) (rest : List Word) :
    decode (w :: rest) = withOneOperand (fun _ => true) (fun hz => .initbus (xField w) hz) rest := by simp [decode, h]

theorem decode_setrgb {w : Word} (h : opcodeOf w = 0x10#8) (rest : List Word) :
    decode (w :: rest) =
      withOneOperand rgbReservedZero (fun c => .setrgb (xField w) (redField c) (greenField c) (blueField c)) rest := by
  simp [decode, h]

theorem decode_setbri {w : Word} (h : opcodeOf w = 0x11#8) (rest : List Word) :
    decode (w :: rest) = withOneOperand (fun _ => true) (fun level => .setbri (xField w) level) rest := by
  simp [decode, h]

theorem decode_setrgbb {w : Word} (h : opcodeOf w = 0x12#8) (rest : List Word) :
    decode (w :: rest) =
      withTwoOperands rgbReservedZero
        (fun c level => .setrgbb (xField w) (redField c) (greenField c) (blueField c) level) rest := by
  simp [decode, h]

theorem decode_getpix {w : Word} (h : opcodeOf w = 0x13#8) (rest : List Word) :
    decode (w :: rest) = .command (.getpix (xField w)) rest := by simp [decode, h]

theorem decode_render {w : Word} (h : opcodeOf w = 0x20#8) (rest : List Word) :
    decode (w :: rest) = headerOnly (headerField w == 0#24) .render rest := by simp [decode, h]

theorem decode_txwr {w : Word} (h : opcodeOf w = 0x21#8) (rest : List Word) :
    decode (w :: rest) = headerOnly (w.extractLsb' 8 16 == 0#16) (.txwr (byteField w)) rest := by simp [decode, h]

theorem decode_flush {w : Word} (h : opcodeOf w = 0x22#8) (rest : List Word) :
    decode (w :: rest) = headerOnly (headerField w == 0#24) .flush rest := by simp [decode, h]

theorem decode_setcor {w : Word} (h : opcodeOf w = 0x30#8) (rest : List Word) :
    decode (w :: rest) = headerOnly (w.extractLsb' 1 23 == 0#23) (.setcor (w.getLsbD 0)) rest := by simp [decode, h]

theorem decode_rdreg {w : Word} (h : opcodeOf w = 0x31#8) (rest : List Word) :
    decode (w :: rest) =
      headerOnly (w.extractLsb' 3 21 == 0#21) (.rdreg (regOfNumber (w.extractLsb' 0 3))) rest := by simp [decode, h]

theorem decode_release {w : Word} (h : opcodeOf w = 0x3E#8) (rest : List Word) :
    decode (w :: rest) = headerOnly (headerField w == 0#24) .release rest := by simp [decode, h]

theorem decode_drop {w : Word} (h : opcodeOf w = 0x3F#8) (rest : List Word) :
    decode (w :: rest) = headerOnly (headerField w == 0#24) .drop rest := by simp [decode, h]

/-- An opcode is one of the fourteen or none of them. -/
theorem opcode_cases (op : Byte) :
    op = 0x01#8 ∨ op = 0x02#8 ∨ op = 0x03#8 ∨ op = 0x10#8 ∨ op = 0x11#8 ∨ op = 0x12#8 ∨ op = 0x13#8 ∨ op = 0x20#8 ∨
      op = 0x21#8 ∨ op = 0x22#8 ∨ op = 0x30#8 ∨ op = 0x31#8 ∨ op = 0x3E#8 ∨ op = 0x3F#8 ∨
      op ∉ [0x01#8, 0x02#8, 0x03#8, 0x10#8, 0x11#8, 0x12#8, 0x13#8, 0x20#8, 0x21#8, 0x22#8, 0x30#8, 0x31#8, 0x3E#8,
        0x3F#8] := by
  revert op; decide

theorem decode_unassigned {w : Word}
    (h : opcodeOf w ∉ [0x01#8, 0x02#8, 0x03#8, 0x10#8, 0x11#8, 0x12#8, 0x13#8, 0x20#8, 0x21#8, 0x22#8, 0x30#8, 0x31#8,
      0x3E#8, 0x3F#8]) (rest : List Word) : decode (w :: rest) = .unassignedOpcode rest := by
  simp only [List.mem_cons, List.not_mem_nil, or_false, not_or] at h
  obtain ⟨h1, h2, h3, h4, h5, h6, h7, h8, h9, h10, h11, h12, h13, h14⟩ := h
  unfold decode
  dsimp only
  rw [if_neg h1, if_neg h2, if_neg h3, if_neg h4, if_neg h5, if_neg h6, if_neg h7, if_neg h8, if_neg h9, if_neg h10,
    if_neg h11, if_neg h12, if_neg h13, if_neg h14]

/-! ## What a decoded command says of its words -/

theorem headerOnly_command {b : Bool} {i j : Instr} {r rest : List Word} (h : headerOnly b i r = .command j rest) :
    b = true ∧ j = i ∧ rest = r := by
  cases b <;> simp_all [headerOnly]

theorem withOneOperand_command {ok : Word → Bool} {make : Word → Instr} {j : Instr} {r rest : List Word}
    (h : withOneOperand ok make r = .command j rest) : ∃ w1, r = w1 :: rest ∧ ok w1 = true ∧ j = make w1 := by
  cases r with
  | nil => simp [withOneOperand] at h
  | cons w1 r => simp only [withOneOperand] at h; split at h <;> simp_all

theorem withTwoOperands_command {ok : Word → Bool} {make : Word → Word → Instr} {j : Instr} {r rest : List Word}
    (h : withTwoOperands ok make r = .command j rest) :
    ∃ w1 w2, r = w1 :: w2 :: rest ∧ ok w1 = true ∧ j = make w1 w2 := by
  match r, h with
  | [], h => simp [withTwoOperands] at h
  | [_], h => simp [withTwoOperands] at h
  | w1 :: w2 :: r, h => simp only [withTwoOperands] at h; split at h <;> simp_all

end Sys2Proof
end

