-- ==== Sys2Proof/Laws/Memory.lean ====
section
/-! SUPPORT. The laws of the storage spaces: a read after a write gives the value written, a write leaves every other
address alone, and every operation keeps the canonical form. -/

namespace Sys2Proof.Machine

/-! ## Stored bytes -/

@[simp] theorem stored_nil (a : Nat) : Memory.stored [] a = none := rfl

theorem stored_cons (c : Host.Cell) (m : Memory) (a : Nat) :
    Memory.stored (c :: m) a = if c.1 = a then some c.2 else Memory.stored m a := rfl

theorem stored_put (m : Memory) (a b : Nat) (v : Byte) :
    (m.put a v).stored b = if a = b then some v else m.stored b := by
  induction m with
  | nil => simp [Memory.put, stored_cons]
  | cons c m ih =>
    unfold Memory.put
    split
    · simp [stored_cons]
    · split <;> simp [stored_cons, *] <;> grind

theorem stored_unlist (m : Memory) (a b : Nat) :
    (m.unlist a).stored b = if a = b then none else m.stored b := by
  unfold Memory.unlist
  induction m with
  | nil => simp
  | cons c m ih => grind [stored_cons]

theorem stored_eq_none (m : Memory) (a : Nat) (h : ∀ c ∈ m, c.1 ≠ a) : m.stored a = none := by
  induction m with
  | nil => rfl
  | cons c m ih => grind [stored_cons]

theorem mem_of_stored (m : Memory) (a : Nat) (v : Byte) (h : m.stored a = some v) : (a, v) ∈ m := by
  induction m with
  | nil => simp at h
  | cons c m ih => grind [stored_cons]

/-! ## The pixel store -/

@[simp] theorem pixRead_nil (a : Nat) : pixRead [] a = pixDefault a := rfl

theorem pixRead_pixWrite (m : Memory) (a b : Nat) (v : Byte) :
    pixRead (pixWrite m a v) b = if a = b then v else pixRead m b := by
  unfold pixWrite pixRead
  split <;> grind [stored_unlist, stored_put]

/-- A run of writes: inside it an address reads as the byte written, outside it as before. -/
theorem pixRead_pixWriteBytes (bytes : List Byte) (m : Memory) (a b : Nat) :
    pixRead (pixWriteBytes m a bytes) b = if a ≤ b then (bytes[b - a]?).getD (pixRead m b) else pixRead m b := by
  induction bytes generalizing m a with
  | nil => simp [pixWriteBytes]
  | cons v rest ih =>
    rw [pixWriteBytes, ih, pixRead_pixWrite]
    rcases Nat.lt_trichotomy a b with h | h | h
    · have : b - a = (b - (a + 1)) + 1 := by omega
      simp [Nat.succ_le_of_lt h, h.le, h.ne, this]
    · subst h; simp
    · simp [show ¬ a ≤ b by omega, show ¬ a + 1 ≤ b by omega, show a ≠ b by omega]

/-- The clear of a release: every colour byte of the first `count` pixels reads 0, every other byte as before. -/
theorem pixRead_clearColours (count : Nat) (m : Memory) (a : Nat) :
    pixRead (clearColours count m) a = if a < 4 * count ∧ a % 4 ≠ 0 then 0x00#8 else pixRead m a := by
  induction count with
  | zero => simp [clearColours]
  | succ i ih =>
    rw [clearColours, pixRead_pixWriteBytes, ih]
    by_cases h : 4 * i + 1 ≤ a
    · simp only [h, if_true]
      rcases Nat.lt_or_ge a (4 * i + 4) with h4 | h4
      · have : a - (4 * i + 1) = 0 ∨ a - (4 * i + 1) = 1 ∨ a - (4 * i + 1) = 2 := by omega
        rcases this with e | e | e <;> simp [e] <;> omega
      · have : 3 ≤ a - (4 * i + 1) := by omega
        rw [List.getElem?_eq_none (by simpa using this)]
        simp only [Option.getD_none]
        grind
    · simp only [h, if_false]
      grind

/-! ## The transmit buffer -/

theorem bufRead_bufWrite (m : Memory) (j k : Nat) (v : Byte) :
    bufRead (bufWrite m j v) k = if j = k then v else bufRead m k := by
  unfold bufWrite bufRead; grind [stored_put]

@[simp] theorem heldBytes_length (s : State) : (heldBytes s).length = s.idx := by simp [heldBytes]

/-- What is held depends on `buf` and `idx` alone. -/
theorem heldBytes_congr {s t : State} (hb : t.buf = s.buf) (hi : t.idx = s.idx) : heldBytes t = heldBytes s := by
  simp [heldBytes, hb, hi]

/-- An append adds its byte to what is held. -/
theorem heldBytes_append (s : State) (v : Byte) :
    heldBytes { s with buf := bufWrite s.buf s.idx v, idx := s.idx + 1 } = heldBytes s ++ [v] := by
  simp only [heldBytes, List.range_succ, List.map_append, List.map_cons, List.map_nil, bufRead_bufWrite, if_true]
  congr 1
  exact List.map_congr_left fun j hj => by simp [Nat.ne_of_gt (List.mem_range.mp hj)]

/-! ## The canonical form -/

theorem mem_put {m : Memory} {a : Nat} {v : Byte} {c : Host.Cell} (h : c ∈ m.put a v) : c = (a, v) ∨ c ∈ m := by
  induction m with
  | nil => simpa [Memory.put] using h
  | cons d m ih =>
    unfold Memory.put at h
    split at h
    · simpa using h
    · split at h <;> simp at h ⊢ <;> tauto

theorem rising_put {m : Memory} (h : m.Rising) (a : Nat) (v : Byte) : (m.put a v).Rising := by
  induction m with
  | nil => simp [Memory.Rising, Memory.put]
  | cons c m ih =>
    have ⟨hc, hm⟩ := List.pairwise_cons.mp h
    unfold Memory.put
    split
    · rename_i hlt
      exact List.pairwise_cons.mpr ⟨fun d hd => by
        rcases List.mem_cons.mp hd with rfl | hd
        · exact hlt
        · exact hlt.trans (hc d hd), h⟩
    · split
      · rename_i heq
        exact List.pairwise_cons.mpr ⟨fun d hd => heq ▸ hc d hd, hm⟩
      · exact List.pairwise_cons.mpr ⟨fun d hd => by
          rcases mem_put hd with rfl | hd
          · show c.1 < a; omega
          · exact hc d hd, ih hm⟩

theorem rising_unlist {m : Memory} (h : m.Rising) (a : Nat) : (m.unlist a).Rising := h.filter _

theorem pixWf_nil : pixWf [] := by simp [pixWf, Memory.Rising]

/-- Every write of the pixel store keeps its canonical form. -/
theorem pixWf_pixWrite {m : Memory} (h : pixWf m) (a : Nat) (v : Byte) : pixWf (pixWrite m a v) := by
  unfold pixWrite
  split
  · exact ⟨rising_unlist h.1 a, fun c hc => h.2 c (List.mem_filter.mp hc).1⟩
  · exact ⟨rising_put h.1 a v, fun c hc => by
      rcases mem_put hc with rfl | hc
      · assumption
      · exact h.2 c hc⟩

theorem pixWf_pixWriteBytes {m : Memory} (h : pixWf m) (a : Nat) (bytes : List Byte) :
    pixWf (pixWriteBytes m a bytes) := by
  induction bytes generalizing m a with
  | nil => exact h
  | cons v rest ih => exact ih (pixWf_pixWrite h a v) (a + 1)

theorem pixWf_clearColours {m : Memory} (h : pixWf m) (count : Nat) : pixWf (clearColours count m) := by
  induction count with
  | zero => exact h
  | succ i ih => exact pixWf_pixWriteBytes ih _ _

/-- A write adds no address but its own. -/
theorem mem_pixWrite {m : Memory} {a : Nat} {v : Byte} {c : Host.Cell} (h : c ∈ pixWrite m a v) :
    c = (a, v) ∨ c ∈ m := by
  unfold pixWrite at h
  split at h
  · exact .inr (List.mem_filter.mp h).1
  · exact mem_put h

/-- A run of writes adds no address outside it. -/
theorem mem_pixWriteBytes {bytes : List Byte} {m : Memory} {a : Nat} {c : Host.Cell}
    (h : c ∈ pixWriteBytes m a bytes) : c ∈ m ∨ (a ≤ c.1 ∧ c.1 < a + bytes.length) := by
  induction bytes generalizing m a with
  | nil => exact .inl h
  | cons v rest ih =>
    rcases ih h with h | h
    · rcases mem_pixWrite h with rfl | h
      · exact .inr (by simp)
      · exact .inl h
    · exact .inr (by simp; omega)

theorem mem_clearColours {count : Nat} {m : Memory} {c : Host.Cell} (h : c ∈ clearColours count m) :
    c ∈ m ∨ c.1 < 4 * count := by
  induction count with
  | zero => exact .inl h
  | succ i ih =>
    rcases mem_pixWriteBytes h with h | h
    · rcases ih h with h | h
      · exact .inl h
      · exact .inr (by omega)
    · simp at h; exact .inr (by omega)

/-- An append keeps T's canonical form. -/
theorem rising_bufWrite {m : Memory} (h : m.Rising) (j : Nat) (v : Byte) : (bufWrite m j v).Rising := rising_put h j v

end Sys2Proof.Machine
end

