-- ==== Sys2Proof/Laws/State.lean ====
section
/-! SUPPORT. One lemma per field of State for each named update, so that no proof unfolds a record update. -/

namespace Sys2Proof.Machine

/-! ### setSeq -/

@[simp] theorem setSeq_life (p : SeqPos) (s : State) : (setSeq p s).life = s.life := rfl
@[simp] theorem setSeq_fault (p : SeqPos) (s : State) : (setSeq p s).fault = s.fault := rfl
@[simp] theorem setSeq_status (p : SeqPos) (s : State) : (setSeq p s).status = s.status := rfl
@[simp] theorem setSeq_backend (p : SeqPos) (s : State) : (setSeq p s).backend = s.backend := rfl
@[simp] theorem setSeq_pinData (p : SeqPos) (s : State) : (setSeq p s).pinData = s.pinData := rfl
@[simp] theorem setSeq_pinClock (p : SeqPos) (s : State) : (setSeq p s).pinClock = s.pinClock := rfl
@[simp] theorem setSeq_clockHz (p : SeqPos) (s : State) : (setSeq p s).clockHz = s.clockHz := rfl
@[simp] theorem setSeq_n (p : SeqPos) (s : State) : (setSeq p s).n = s.n := rfl
@[simp] theorem setSeq_L (p : SeqPos) (s : State) : (setSeq p s).L = s.L := rfl
@[simp] theorem setSeq_cor (p : SeqPos) (s : State) : (setSeq p s).cor = s.cor := rfl
@[simp] theorem setSeq_pix (p : SeqPos) (s : State) : (setSeq p s).pix = s.pix := rfl
@[simp] theorem setSeq_txReleased (p : SeqPos) (s : State) : (setSeq p s).txReleased = s.txReleased := rfl
@[simp] theorem setSeq_buf (p : SeqPos) (s : State) : (setSeq p s).buf = s.buf := rfl
@[simp] theorem setSeq_idx (p : SeqPos) (s : State) : (setSeq p s).idx = s.idx := rfl
@[simp] theorem setSeq_seq (p : SeqPos) (s : State) : (setSeq p s).seq = p := rfl
@[simp] theorem setSeq_params (p : SeqPos) (s : State) : (setSeq p s).params = s.params := rfl
@[simp] theorem setSeq_cmds (p : SeqPos) (s : State) : (setSeq p s).cmds = s.cmds := rfl
@[simp] theorem setSeq_draws (p : SeqPos) (s : State) : (setSeq p s).draws = s.draws := rfl
@[simp] theorem setSeq_drawNo (p : SeqPos) (s : State) : (setSeq p s).drawNo = s.drawNo := rfl
@[simp] theorem setSeq_trace (p : SeqPos) (s : State) : (setSeq p s).trace = s.trace := rfl
@[simp] theorem setSeq_hung (p : SeqPos) (s : State) : (setSeq p s).hung = s.hung := rfl

/-! ### finish -/

@[simp] theorem finish_life (st : Status) (data : Word) (s : State) : (finish st data s).life = s.life := rfl
@[simp] theorem finish_fault (st : Status) (data : Word) (s : State) : (finish st data s).fault = s.fault := rfl
@[simp] theorem finish_status (st : Status) (data : Word) (s : State) : (finish st data s).status = st := rfl
@[simp] theorem finish_backend (st : Status) (data : Word) (s : State) : (finish st data s).backend = s.backend := rfl
@[simp] theorem finish_pinData (st : Status) (data : Word) (s : State) : (finish st data s).pinData = s.pinData := rfl
@[simp] theorem finish_pinClock (st : Status) (data : Word) (s : State) : (finish st data s).pinClock = s.pinClock := rfl
@[simp] theorem finish_clockHz (st : Status) (data : Word) (s : State) : (finish st data s).clockHz = s.clockHz := rfl
@[simp] theorem finish_n (st : Status) (data : Word) (s : State) : (finish st data s).n = s.n := rfl
@[simp] theorem finish_L (st : Status) (data : Word) (s : State) : (finish st data s).L = s.L := rfl
@[simp] theorem finish_cor (st : Status) (data : Word) (s : State) : (finish st data s).cor = s.cor := rfl
@[simp] theorem finish_pix (st : Status) (data : Word) (s : State) : (finish st data s).pix = s.pix := rfl
@[simp] theorem finish_txReleased (st : Status) (data : Word) (s : State) : (finish st data s).txReleased = s.txReleased := rfl
@[simp] theorem finish_buf (st : Status) (data : Word) (s : State) : (finish st data s).buf = s.buf := rfl
@[simp] theorem finish_idx (st : Status) (data : Word) (s : State) : (finish st data s).idx = s.idx := rfl
@[simp] theorem finish_seq (st : Status) (data : Word) (s : State) : (finish st data s).seq = s.seq := rfl
@[simp] theorem finish_params (st : Status) (data : Word) (s : State) : (finish st data s).params = s.params := rfl
@[simp] theorem finish_cmds (st : Status) (data : Word) (s : State) : (finish st data s).cmds = s.cmds := rfl
@[simp] theorem finish_draws (st : Status) (data : Word) (s : State) : (finish st data s).draws = s.draws := rfl
@[simp] theorem finish_drawNo (st : Status) (data : Word) (s : State) : (finish st data s).drawNo = s.drawNo := rfl
@[simp] theorem finish_trace (st : Status) (data : Word) (s : State) : (finish st data s).trace = s.trace ++ [.response st data] := rfl
@[simp] theorem finish_hung (st : Status) (data : Word) (s : State) : (finish st data s).hung = s.hung := rfl

/-! ### respond -/

@[simp] theorem respond_life (st : Status) (data : Word) (s : State) : (respond st data s).life = s.life := rfl
@[simp] theorem respond_fault (st : Status) (data : Word) (s : State) : (respond st data s).fault = s.fault := rfl
@[simp] theorem respond_status (st : Status) (data : Word) (s : State) : (respond st data s).status = s.status := rfl
@[simp] theorem respond_backend (st : Status) (data : Word) (s : State) : (respond st data s).backend = s.backend := rfl
@[simp] theorem respond_pinData (st : Status) (data : Word) (s : State) : (respond st data s).pinData = s.pinData := rfl
@[simp] theorem respond_pinClock (st : Status) (data : Word) (s : State) : (respond st data s).pinClock = s.pinClock := rfl
@[simp] theorem respond_clockHz (st : Status) (data : Word) (s : State) : (respond st data s).clockHz = s.clockHz := rfl
@[simp] theorem respond_n (st : Status) (data : Word) (s : State) : (respond st data s).n = s.n := rfl
@[simp] theorem respond_L (st : Status) (data : Word) (s : State) : (respond st data s).L = s.L := rfl
@[simp] theorem respond_cor (st : Status) (data : Word) (s : State) : (respond st data s).cor = s.cor := rfl
@[simp] theorem respond_pix (st : Status) (data : Word) (s : State) : (respond st data s).pix = s.pix := rfl
@[simp] theorem respond_txReleased (st : Status) (data : Word) (s : State) : (respond st data s).txReleased = s.txReleased := rfl
@[simp] theorem respond_buf (st : Status) (data : Word) (s : State) : (respond st data s).buf = s.buf := rfl
@[simp] theorem respond_idx (st : Status) (data : Word) (s : State) : (respond st data s).idx = s.idx := rfl
@[simp] theorem respond_seq (st : Status) (data : Word) (s : State) : (respond st data s).seq = s.seq := rfl
@[simp] theorem respond_params (st : Status) (data : Word) (s : State) : (respond st data s).params = s.params := rfl
@[simp] theorem respond_cmds (st : Status) (data : Word) (s : State) : (respond st data s).cmds = s.cmds := rfl
@[simp] theorem respond_draws (st : Status) (data : Word) (s : State) : (respond st data s).draws = s.draws := rfl
@[simp] theorem respond_drawNo (st : Status) (data : Word) (s : State) : (respond st data s).drawNo = s.drawNo := rfl
@[simp] theorem respond_trace (st : Status) (data : Word) (s : State) : (respond st data s).trace = s.trace ++ [.response st data] := rfl
@[simp] theorem respond_hung (st : Status) (data : Word) (s : State) : (respond st data s).hung = s.hung := rfl

/-! ### raiseFault -/

@[simp] theorem raiseFault_life (c : FaultCode) (s : State) : (raiseFault c s).life = s.life := rfl
@[simp] theorem raiseFault_fault (c : FaultCode) (s : State) : (raiseFault c s).fault = some c := rfl
@[simp] theorem raiseFault_status (c : FaultCode) (s : State) : (raiseFault c s).status = .fault c := rfl
@[simp] theorem raiseFault_backend (c : FaultCode) (s : State) : (raiseFault c s).backend = s.backend := rfl
@[simp] theorem raiseFault_pinData (c : FaultCode) (s : State) : (raiseFault c s).pinData = s.pinData := rfl
@[simp] theorem raiseFault_pinClock (c : FaultCode) (s : State) : (raiseFault c s).pinClock = s.pinClock := rfl
@[simp] theorem raiseFault_clockHz (c : FaultCode) (s : State) : (raiseFault c s).clockHz = s.clockHz := rfl
@[simp] theorem raiseFault_n (c : FaultCode) (s : State) : (raiseFault c s).n = s.n := rfl
@[simp] theorem raiseFault_L (c : FaultCode) (s : State) : (raiseFault c s).L = s.L := rfl
@[simp] theorem raiseFault_cor (c : FaultCode) (s : State) : (raiseFault c s).cor = s.cor := rfl
@[simp] theorem raiseFault_pix (c : FaultCode) (s : State) : (raiseFault c s).pix = s.pix := rfl
@[simp] theorem raiseFault_txReleased (c : FaultCode) (s : State) : (raiseFault c s).txReleased = s.txReleased := rfl
@[simp] theorem raiseFault_buf (c : FaultCode) (s : State) : (raiseFault c s).buf = s.buf := rfl
@[simp] theorem raiseFault_idx (c : FaultCode) (s : State) : (raiseFault c s).idx = s.idx := rfl
@[simp] theorem raiseFault_seq (c : FaultCode) (s : State) : (raiseFault c s).seq = s.seq := rfl
@[simp] theorem raiseFault_params (c : FaultCode) (s : State) : (raiseFault c s).params = s.params := rfl
@[simp] theorem raiseFault_cmds (c : FaultCode) (s : State) : (raiseFault c s).cmds = s.cmds := rfl
@[simp] theorem raiseFault_draws (c : FaultCode) (s : State) : (raiseFault c s).draws = s.draws := rfl
@[simp] theorem raiseFault_drawNo (c : FaultCode) (s : State) : (raiseFault c s).drawNo = s.drawNo := rfl
@[simp] theorem raiseFault_trace (c : FaultCode) (s : State) : (raiseFault c s).trace = s.trace ++ [.response (.fault c) 0] := rfl
@[simp] theorem raiseFault_hung (c : FaultCode) (s : State) : (raiseFault c s).hung = s.hung := rfl

/-! ### collab -/

@[simp] theorem collab_life (c : Call) (s : State) : ((collab c s).1).life = s.life := rfl
@[simp] theorem collab_fault (c : Call) (s : State) : ((collab c s).1).fault = s.fault := rfl
@[simp] theorem collab_status (c : Call) (s : State) : ((collab c s).1).status = s.status := rfl
@[simp] theorem collab_backend (c : Call) (s : State) : ((collab c s).1).backend = s.backend := rfl
@[simp] theorem collab_pinData (c : Call) (s : State) : ((collab c s).1).pinData = s.pinData := rfl
@[simp] theorem collab_pinClock (c : Call) (s : State) : ((collab c s).1).pinClock = s.pinClock := rfl
@[simp] theorem collab_clockHz (c : Call) (s : State) : ((collab c s).1).clockHz = s.clockHz := rfl
@[simp] theorem collab_n (c : Call) (s : State) : ((collab c s).1).n = s.n := rfl
@[simp] theorem collab_L (c : Call) (s : State) : ((collab c s).1).L = s.L := rfl
@[simp] theorem collab_cor (c : Call) (s : State) : ((collab c s).1).cor = s.cor := rfl
@[simp] theorem collab_pix (c : Call) (s : State) : ((collab c s).1).pix = s.pix := rfl
@[simp] theorem collab_txReleased (c : Call) (s : State) : ((collab c s).1).txReleased = s.txReleased := rfl
@[simp] theorem collab_buf (c : Call) (s : State) : ((collab c s).1).buf = s.buf := rfl
@[simp] theorem collab_idx (c : Call) (s : State) : ((collab c s).1).idx = s.idx := rfl
@[simp] theorem collab_seq (c : Call) (s : State) : ((collab c s).1).seq = s.seq := rfl
@[simp] theorem collab_params (c : Call) (s : State) : ((collab c s).1).params = s.params := rfl
@[simp] theorem collab_cmds (c : Call) (s : State) : ((collab c s).1).cmds = s.cmds := rfl
@[simp] theorem collab_draws (c : Call) (s : State) : ((collab c s).1).draws = s.draws.tail := rfl
@[simp] theorem collab_drawNo (c : Call) (s : State) : ((collab c s).1).drawNo = s.drawNo + 1 := rfl
@[simp] theorem collab_trace (c : Call) (s : State) : ((collab c s).1).trace = s.trace ++ [.call c (s.drawAt 0)] := rfl
@[simp] theorem collab_hung (c : Call) (s : State) : ((collab c s).1).hung = (s.hung || (s.drawAt 0).result == .noReturn) := rfl

/-! ### called -/

@[simp] theorem called_life (s : State) (cs : List Call) : (s.called cs).life = s.life := rfl
@[simp] theorem called_fault (s : State) (cs : List Call) : (s.called cs).fault = s.fault := rfl
@[simp] theorem called_status (s : State) (cs : List Call) : (s.called cs).status = s.status := rfl
@[simp] theorem called_backend (s : State) (cs : List Call) : (s.called cs).backend = s.backend := rfl
@[simp] theorem called_pinData (s : State) (cs : List Call) : (s.called cs).pinData = s.pinData := rfl
@[simp] theorem called_pinClock (s : State) (cs : List Call) : (s.called cs).pinClock = s.pinClock := rfl
@[simp] theorem called_clockHz (s : State) (cs : List Call) : (s.called cs).clockHz = s.clockHz := rfl
@[simp] theorem called_n (s : State) (cs : List Call) : (s.called cs).n = s.n := rfl
@[simp] theorem called_L (s : State) (cs : List Call) : (s.called cs).L = s.L := rfl
@[simp] theorem called_cor (s : State) (cs : List Call) : (s.called cs).cor = s.cor := rfl
@[simp] theorem called_pix (s : State) (cs : List Call) : (s.called cs).pix = s.pix := rfl
@[simp] theorem called_txReleased (s : State) (cs : List Call) : (s.called cs).txReleased = s.txReleased := rfl
@[simp] theorem called_buf (s : State) (cs : List Call) : (s.called cs).buf = s.buf := rfl
@[simp] theorem called_idx (s : State) (cs : List Call) : (s.called cs).idx = s.idx := rfl
@[simp] theorem called_seq (s : State) (cs : List Call) : (s.called cs).seq = s.seq := rfl
@[simp] theorem called_params (s : State) (cs : List Call) : (s.called cs).params = s.params := rfl
@[simp] theorem called_cmds (s : State) (cs : List Call) : (s.called cs).cmds = s.cmds := rfl
@[simp] theorem called_draws (s : State) (cs : List Call) : (s.called cs).draws = s.draws.drop cs.length := rfl
@[simp] theorem called_drawNo (s : State) (cs : List Call) : (s.called cs).drawNo = s.drawNo + cs.length := rfl
@[simp] theorem called_trace (s : State) (cs : List Call) : (s.called cs).trace = s.trace ++ s.callEvents cs := rfl
@[simp] theorem called_hung (s : State) (cs : List Call) : (s.called cs).hung = s.hung := rfl

/-! ### initCommon -/

@[simp] theorem initCommon_life (b : Backend) (count : Nat) (s : State) : (initCommon b count s).life = .active := rfl
@[simp] theorem initCommon_fault (b : Backend) (count : Nat) (s : State) : (initCommon b count s).fault = s.fault := rfl
@[simp] theorem initCommon_status (b : Backend) (count : Nat) (s : State) : (initCommon b count s).status = s.status := rfl
@[simp] theorem initCommon_backend (b : Backend) (count : Nat) (s : State) : (initCommon b count s).backend = b := rfl
@[simp] theorem initCommon_pinData (b : Backend) (count : Nat) (s : State) : (initCommon b count s).pinData = s.pinData := rfl
@[simp] theorem initCommon_pinClock (b : Backend) (count : Nat) (s : State) : (initCommon b count s).pinClock = s.pinClock := rfl
@[simp] theorem initCommon_clockHz (b : Backend) (count : Nat) (s : State) : (initCommon b count s).clockHz = s.clockHz := rfl
@[simp] theorem initCommon_n (b : Backend) (count : Nat) (s : State) : (initCommon b count s).n = count := rfl
@[simp] theorem initCommon_L (b : Backend) (count : Nat) (s : State) : (initCommon b count s).L = endFrameLen count := rfl
@[simp] theorem initCommon_cor (b : Backend) (count : Nat) (s : State) : (initCommon b count s).cor = true := rfl
@[simp] theorem initCommon_pix (b : Backend) (count : Nat) (s : State) : (initCommon b count s).pix = [] := rfl
@[simp] theorem initCommon_txReleased (b : Backend) (count : Nat) (s : State) : (initCommon b count s).txReleased = false := rfl
@[simp] theorem initCommon_buf (b : Backend) (count : Nat) (s : State) : (initCommon b count s).buf = [] := rfl
@[simp] theorem initCommon_idx (b : Backend) (count : Nat) (s : State) : (initCommon b count s).idx = 0 := rfl
@[simp] theorem initCommon_seq (b : Backend) (count : Nat) (s : State) : (initCommon b count s).seq = .idle := rfl
@[simp] theorem initCommon_params (b : Backend) (count : Nat) (s : State) : (initCommon b count s).params = s.params := rfl
@[simp] theorem initCommon_cmds (b : Backend) (count : Nat) (s : State) : (initCommon b count s).cmds = s.cmds := rfl
@[simp] theorem initCommon_draws (b : Backend) (count : Nat) (s : State) : (initCommon b count s).draws = s.draws := rfl
@[simp] theorem initCommon_drawNo (b : Backend) (count : Nat) (s : State) : (initCommon b count s).drawNo = s.drawNo := rfl
@[simp] theorem initCommon_trace (b : Backend) (count : Nat) (s : State) : (initCommon b count s).trace = s.trace := rfl
@[simp] theorem initCommon_hung (b : Backend) (count : Nat) (s : State) : (initCommon b count s).hung = s.hung := rfl

/-! ### powerOn -/

@[simp] theorem powerOn_life (s : State) : (s.powerOn).life = State.reset.life := rfl
@[simp] theorem powerOn_fault (s : State) : (s.powerOn).fault = State.reset.fault := rfl
@[simp] theorem powerOn_status (s : State) : (s.powerOn).status = State.reset.status := rfl
@[simp] theorem powerOn_backend (s : State) : (s.powerOn).backend = State.reset.backend := rfl
@[simp] theorem powerOn_pinData (s : State) : (s.powerOn).pinData = State.reset.pinData := rfl
@[simp] theorem powerOn_pinClock (s : State) : (s.powerOn).pinClock = State.reset.pinClock := rfl
@[simp] theorem powerOn_clockHz (s : State) : (s.powerOn).clockHz = State.reset.clockHz := rfl
@[simp] theorem powerOn_n (s : State) : (s.powerOn).n = State.reset.n := rfl
@[simp] theorem powerOn_L (s : State) : (s.powerOn).L = State.reset.L := rfl
@[simp] theorem powerOn_cor (s : State) : (s.powerOn).cor = State.reset.cor := rfl
@[simp] theorem powerOn_pix (s : State) : (s.powerOn).pix = State.reset.pix := rfl
@[simp] theorem powerOn_txReleased (s : State) : (s.powerOn).txReleased = State.reset.txReleased := rfl
@[simp] theorem powerOn_buf (s : State) : (s.powerOn).buf = State.reset.buf := rfl
@[simp] theorem powerOn_idx (s : State) : (s.powerOn).idx = State.reset.idx := rfl
@[simp] theorem powerOn_seq (s : State) : (s.powerOn).seq = State.reset.seq := rfl
@[simp] theorem powerOn_params (s : State) : (s.powerOn).params = s.params := rfl
@[simp] theorem powerOn_cmds (s : State) : (s.powerOn).cmds = s.cmds := rfl
@[simp] theorem powerOn_draws (s : State) : (s.powerOn).draws = s.draws := rfl
@[simp] theorem powerOn_drawNo (s : State) : (s.powerOn).drawNo = s.drawNo := rfl
@[simp] theorem powerOn_trace (s : State) : (s.powerOn).trace = s.trace := rfl
@[simp] theorem powerOn_hung (s : State) : (s.powerOn).hung = State.reset.hung := rfl

end Sys2Proof.Machine
end

