-- ==== Sys2Proof/Laws/Ops.lean ====
section
/-! SUPPORT. One lemma for everything each shared operation can do: draws and collaborator calls, sequencing, the end of
a command, the order of checks. -/

namespace Sys2Proof.Machine

/-! ## Draws -/

theorem drawAt_congr {s t : State} (hd : t.draws = s.draws) (hn : t.drawNo = s.drawNo) (k : Nat) :
    t.drawAt k = s.drawAt k := by simp [State.drawAt, hd, hn]

/-- A call uses up the first of the coming answers. -/
@[simp] theorem drawAt_collab (c : Call) (s : State) (k : Nat) : (collab c s).1.drawAt k = s.drawAt (k + 1) := by
  simp only [State.drawAt, collab_draws, collab_drawNo, List.getElem?_tail]
  rw [show s.drawNo + 1 + k = s.drawNo + (k + 1) by omega]

/-! ## Sequencing -/

@[simp] theorem andThen_ok (s : State) (f : State → State × Res) : andThen (s, .ok) f = f s := rfl

theorem andThen_of_ok {r : State × Res} (h : r.2 = .ok) (f : State → State × Res) : andThen r f = f r.1 := by
  simp [andThen, h]

theorem andThen_of_ne {r : State × Res} (h : r.2 ≠ .ok) (f : State → State × Res) : andThen r f = r := by
  obtain ⟨s, x⟩ := r
  cases x <;> simp_all [andThen]

/-- What follows an Ok matters only in the state reached. -/
theorem andThen_congr {r : State × Res} {f g : State → State × Res} (h : r.2 = .ok → f r.1 = g r.1) :
    andThen r f = andThen r g := by
  by_cases hr : r.2 = .ok
  · simp [andThen_of_ok hr, h hr]
  · simp [andThen_of_ne hr]

/-- Sequencing is associative. -/
theorem andThen_assoc (r : State × Res) (f g : State → State × Res) :
    andThen (andThen r f) g = andThen r fun s => andThen (f s) g := by
  by_cases h : r.2 = .ok
  · simp [andThen_of_ok h]
  · simp [andThen_of_ne h]

@[simp] theorem andThen_pure (r : State × Res) : andThen r (fun s => (s, .ok)) = r := by
  obtain ⟨s, x⟩ := r
  cases x <;> rfl

/-! ## Calls that have been made -/

@[simp] theorem callEvents_nil (s : State) : s.callEvents [] = [] := rfl

theorem callEvents_cons (s : State) (c : Call) (cs : List Call) :
    s.callEvents (c :: cs) = .call c (s.drawAt 0) :: (collab c s).1.callEvents cs := by
  simp only [State.callEvents, List.zipIdx_cons, List.map_cons, drawAt_collab]
  rw [List.zipIdx_succ, List.map_map]
  rfl

@[simp] theorem callEvents_length (s : State) (cs : List Call) : (s.callEvents cs).length = cs.length := by
  simp [State.callEvents]

theorem callEvents_congr {s t : State} (hd : t.draws = s.draws) (hn : t.drawNo = s.drawNo) (cs : List Call) :
    t.callEvents cs = s.callEvents cs := by
  simp [State.callEvents, drawAt_congr hd hn]

theorem drawAt_drop (s : State) (m k : Nat) :
    ({ s with draws := s.draws.drop m, drawNo := s.drawNo + m } : State).drawAt k = s.drawAt (m + k) := by
  simp [State.drawAt, List.getElem?_drop, Nat.add_assoc]

@[simp] theorem drawAt_called (s : State) (cs : List Call) (k : Nat) :
    (s.called cs).drawAt k = s.drawAt (cs.length + k) := drawAt_drop s cs.length k

theorem callEvents_append (s : State) (cs ds : List Call) :
    s.callEvents (cs ++ ds) = s.callEvents cs ++ (s.called cs).callEvents ds := by
  simp only [State.callEvents, List.zipIdx_append, List.map_append, drawAt_called]
  congr 1
  rw [List.zipIdx_eq_map_add (i := 0 + cs.length), List.map_map]
  exact List.map_congr_left fun c _ => by simp [Nat.add_comm]

@[simp] theorem called_nil (s : State) : s.called [] = s := by simp [State.called]

theorem called_append (s : State) (cs ds : List Call) : s.called (cs ++ ds) = (s.called cs).called ds := by
  simp [State.called, callEvents_append, Nat.add_assoc]

/-- Calls made only use up answers and add events. -/
theorem called_setSeq (s : State) (p : SeqPos) (cs : List Call) :
    (setSeq p s).called cs = setSeq p (s.called cs) := rfl

/-! ## One call -/

/-- A call that returns leaves the state as after any call. -/
theorem collab_of_returns {c : Call} {s : State} (h : (s.drawAt 0).result ≠ .noReturn) :
    (collab c s).1 = s.called [c] := by
  have hb : ((s.drawAt 0).result == DrawResult.noReturn) = false := by simpa using h
  simp only [collab, hb, Bool.or_false]
  simp [State.called, State.callEvents]

theorem collab_of_ok {c : Call} {s : State} (h : (s.drawAt 0).result = .ok) :
    (collab c s).1 = s.called [c] := collab_of_returns (by simp [h])

/-- What a call comes to, by its draw. -/
theorem tryCall_result (c : Call) (s : State) : (tryCall c s).2 = (c.resultOf (s.drawAt 0)).toRes := rfl

theorem tryCall_of_ok {c : Call} {s : State} (h : (s.drawAt 0).result = .ok) : tryCall c s = (s.called [c], .ok) :=
  Prod.ext (collab_of_ok h) (by simp [tryCall, collab, Call.resultOf, h, CallResult.toRes])

theorem tryCall_ok_iff (c : Call) (s : State) : (tryCall c s).2 = .ok ↔ (s.drawAt 0).result = .ok := by
  simp only [tryCall_result, Call.resultOf]
  cases (s.drawAt 0).result <;> simp [CallResult.toRes]

theorem tryCall_of_returns {c : Call} {s : State} (h : (s.drawAt 0).result ≠ .noReturn) :
    tryCall c s = (s.called [c], (c.resultOf (s.drawAt 0)).toRes) :=
  Prod.ext (collab_of_returns h) rfl

theorem ignoreCall_of_returns {c : Call} {s : State} (h : (s.drawAt 0).result ≠ .noReturn) :
    ignoreCall c s = (s.called [c], .ok) := by
  simp only [ignoreCall, tryCall_of_returns h, Call.resultOf]
  cases hr : (s.drawAt 0).result <;> simp_all [CallResult.toRes, Res.ignored]

/-! ## A run of calls -/

/-- Calls in order, stopping at the first that does not return Ok. -/
def runCalls (calls : List Call) (s : State) : State × Res :=
  match calls with
  | [] => (s, .ok)
  | c :: rest => andThen (tryCall c s) (runCalls rest)

theorem runCalls_append (cs ds : List Call) (s : State) :
    runCalls (cs ++ ds) s = andThen (runCalls cs s) (runCalls ds) := by
  induction cs generalizing s with
  | nil => rfl
  | cons c cs ih =>
    simp only [List.cons_append, runCalls, andThen_assoc]
    congr 1
    exact funext ih

theorem AnswersOk.mono {s : State} {k m : Nat} (h : s.AnswersOk k) (hm : m ≤ k) : s.AnswersOk m :=
  fun j hj => h j (by omega)

theorem AnswersOk.called {s : State} {k : Nat} (cs : List Call) (h : s.AnswersOk (cs.length + k)) :
    (s.called cs).AnswersOk k := fun j hj => by
  rw [drawAt_called]; exact h _ (by omega)

/-- All answers Ok: all calls are made. -/
theorem runCalls_of_ok {calls : List Call} {s : State} (h : s.AnswersOk calls.length) :
    runCalls calls s = (s.called calls, .ok) := by
  induction calls generalizing s with
  | nil => simp [runCalls]
  | cons c rest ih =>
    rw [runCalls, tryCall_of_ok (h 0 (by simp)), andThen_ok,
      ih (AnswersOk.called [c] (by simpa [Nat.add_comm] using h)), ← called_append]
    rfl

/-- The first answer that is not Ok stops the run: the calls up to and with it are made, and its outcome is the run's. -/
theorem runCalls_of_fail {calls : List Call} {s : State} {k : Nat} (hk : k < calls.length) (hok : s.AnswersOk k)
    (hfail : (s.drawAt k).result ≠ .ok) :
    runCalls calls s = tryCall calls[k] (s.called (calls.take k)) := by
  induction calls generalizing s k with
  | nil => simp at hk
  | cons c rest ih =>
    cases k with
    | zero =>
      rw [runCalls, andThen_of_ne (by rwa [Ne, tryCall_ok_iff])]
      simp
    | succ k =>
      have h0 : s.AnswersOk (1 + k) := by rwa [Nat.add_comm]
      rw [runCalls, tryCall_of_ok (hok 0 (by omega)), andThen_ok,
        ih (by simpa using hk) (AnswersOk.called [c] h0) (by rwa [drawAt_called, List.length_singleton, Nat.add_comm])]
      simp [← called_append]

/-- A call that does not return is made and hangs the block (00_scope.md R23). -/
theorem tryCall_of_noReturn {c : Call} {s : State} (h : (s.drawAt 0).result = .noReturn) :
    tryCall c s = ({ s.called [c] with hung := true }, .hang) := by
  refine Prod.ext ?_ (by simp [tryCall_result, Call.resultOf, h, CallResult.toRes])
  simp [tryCall, collab, h, State.called, State.callEvents]

/-- A run whose `k`-th call is the first to return an error ends with that error, that call made. -/
theorem runCalls_of_err {calls : List Call} {s : State} {k : Nat} {e : ErrKind} (hk : k < calls.length)
    (hok : s.AnswersOk k) (hd : calls[k].resultOf (s.drawAt k) = .err e) :
    runCalls calls s = (s.called (calls.take (k + 1)), .err e) := by
  have hne : (s.drawAt k).result ≠ .ok := fun h => by simp [Call.resultOf, h] at hd
  have hnr : (s.drawAt k).result ≠ .noReturn := fun h => by simp [Call.resultOf, h] at hd
  have hdk : (s.called (calls.take k)).drawAt 0 = s.drawAt k := by
    rw [drawAt_called, List.length_take, Nat.min_eq_left hk.le, Nat.add_zero]
  rw [runCalls_of_fail hk hok hne, tryCall_of_returns (by rwa [hdk]), hdk, hd, ← called_append,
    List.take_append_getElem hk]
  rfl

/-- A run whose `k`-th call is the first not to return Ok, and does not return at all, hangs there. -/
theorem runCalls_of_hang {calls : List Call} {s : State} {k : Nat} (hk : k < calls.length) (hok : s.AnswersOk k)
    (hd : (s.drawAt k).result = .noReturn) :
    runCalls calls s = ({ s.called (calls.take (k + 1)) with hung := true }, .hang) := by
  have hdk : (s.called (calls.take k)).drawAt 0 = s.drawAt k := by
    rw [drawAt_called, List.length_take, Nat.min_eq_left hk.le, Nat.add_zero]
  rw [runCalls_of_fail hk hok (by simp [hd]), tryCall_of_noReturn (by rwa [hdk]), ← called_append,
    List.take_append_getElem hk]

/-- A run of calls changes only what a call changes. -/
theorem runCalls_frame (calls : List Call) (s : State) :
    ∃ ds m ev h, (runCalls calls s).1 = { s with draws := ds, drawNo := m, trace := ev, hung := h } := by
  induction calls generalizing s with
  | nil => exact ⟨_, _, _, _, rfl⟩
  | cons c rest ih =>
    rw [runCalls]
    by_cases h : (tryCall c s).2 = .ok
    · obtain ⟨ds, m, ev, hg, e⟩ := ih (tryCall c s).1
      exact ⟨ds, m, ev, hg, by rw [andThen_of_ok h, e]; rfl⟩
    · exact ⟨_, _, _, _, by rw [andThen_of_ne h]; rfl⟩

/-- It leaves every field alone but the inputs, the observation and the hang. -/
theorem runCalls_fields (calls : List Call) (s : State) :
    (runCalls calls s).1.pinData = s.pinData ∧ (runCalls calls s).1.pinClock = s.pinClock ∧
      (runCalls calls s).1.backend = s.backend := by
  obtain ⟨ds, m, ev, h, e⟩ := runCalls_frame calls s
  rw [e]
  exact ⟨rfl, rfl, rfl⟩

/-- Calls do not look at `seq`. -/
theorem runCalls_seq (p : SeqPos) (calls : List Call) (s : State) :
    runCalls calls (setSeq p s) = (setSeq p (runCalls calls s).1, (runCalls calls s).2) := by
  induction calls generalizing s with
  | nil => rfl
  | cons c rest ih =>
    have h1 : tryCall c (setSeq p s) = (setSeq p (tryCall c s).1, (tryCall c s).2) := rfl
    rw [runCalls, runCalls, h1]
    by_cases h : (tryCall c s).2 = .ok
    · rw [andThen_of_ok h, andThen_of_ok (by exact h), ih]
    · rw [andThen_of_ne h, andThen_of_ne (by exact h)]

/-! ## How a command ends -/

@[simp] theorem endCommand_ok (s : State) : endCommand (s, .ok) = finish .ok 0 (setSeq .idle s) := rfl
@[simp] theorem endCommand_err (s : State) (k : ErrKind) :
    endCommand (s, .err k) = finish (.error k) 0 (setSeq .idle s) := rfl
@[simp] theorem endCommand_fault (s : State) (c : FaultCode) :
    endCommand (s, .fault c) = raiseFault c (setSeq .idle s) := rfl
@[simp] theorem endCommand_hang (s : State) : endCommand (s, .hang) = s := rfl

/-! ## The order of checks -/

theorem checked_halted {s : State} (h : s.fault ≠ none) (cls : CmdClass) (rf : Option FaultCode) (body : State → State) :
    checked cls rf body s = respond .halted 0 s := by
  cases hf : s.fault <;> simp_all [checked]

theorem checked_lifecycle {s : State} {c : FaultCode} {cls : CmdClass} (h : s.fault = none)
    (hc : lifecycleFault cls s.life = some c) (rf : Option FaultCode) (body : State → State) :
    checked cls rf body s = raiseFault c s := by simp [checked, h, hc]

theorem checked_range {s : State} {c : FaultCode} {cls : CmdClass} (h : s.fault = none)
    (hl : lifecycleFault cls s.life = none) (body : State → State) :
    checked cls (some c) body s = raiseFault c s := by simp [checked, h, hl]

theorem checked_run {s : State} {cls : CmdClass} (h : s.fault = none) (hl : lifecycleFault cls s.life = none)
    (body : State → State) : checked cls none body s = body s := by simp [checked, h, hl]

/-- Everything an admitted command can do: it is halted, it faults with the state otherwise kept, or its body runs. -/
theorem checked_cases (cls : CmdClass) (rf : Option FaultCode) (body : State → State) (s : State) :
    (s.fault ≠ none ∧ checked cls rf body s = respond .halted 0 s) ∨
    (s.fault = none ∧ ∃ c, checked cls rf body s = raiseFault c s) ∨
    (s.fault = none ∧ lifecycleFault cls s.life = none ∧ rf = none ∧ checked cls rf body s = body s) := by
  by_cases h : s.fault = none
  · cases hl : lifecycleFault cls s.life with
    | some c => exact .inr (.inl ⟨h, c, checked_lifecycle h hl rf body⟩)
    | none =>
      cases rf with
      | some c => exact .inr (.inl ⟨h, c, checked_range h hl body⟩)
      | none => exact .inr (.inr ⟨h, rfl, rfl, checked_run h hl body⟩)
  · exact .inl ⟨h, checked_halted h cls rf body⟩

theorem indexFault_none {i : Nat} {s : State} (h : i < s.n) : indexFault i s = none := by
  simp [indexFault, Nat.not_le.mpr h]

theorem indexFault_some {i : Nat} {s : State} (h : s.n ≤ i) : indexFault i s = some .indexRange := by
  simp [indexFault, h]

theorem countFault_none {count : Nat} {s : State} (h1 : 1 ≤ count) (h2 : count ≤ s.params.numPixelsMax) :
    countFault count s = none := by
  simp [countFault, Nat.not_lt.mpr h2, Nat.one_le_iff_ne_zero.mp h1]

theorem pinsFault_none {count : Nat} {s : State} {pd pc : Byte} (h1 : 1 ≤ count)
    (h2 : count ≤ s.params.numPixelsMax) (hp : pd ≠ pc) : pinsFault count pd pc s = none := by
  simp [pinsFault, countFault_none h1 h2, hp]

end Sys2Proof.Machine
end

