-- ==== Sys2Proof/Laws/Transport.lean ====
section
/-! SUPPORT. What the transports do, said once: bit-banging is a run of GPIO calls; a bus write is the full chunks of what
is held and what is new, and the rest stays held. -/

namespace Sys2Proof.Machine

/-! ## Bit-bang -/

/-- One bit is its three calls (41_transport.md R98). -/
theorem writeBit_eq (b : Bool) (s : State) : writeBit b s = runCalls (bitPulse s.pinData s.pinClock b) s := by
  simp only [writeBit, runCalls, bitPulse, andThen_pure]
  rfl

theorem writeBits_eq (bits : List Bool) (s : State) :
    writeBits bits s = runCalls (bits.flatMap (bitPulse s.pinData s.pinClock)) s := by
  induction bits generalizing s with
  | nil => rfl
  | cons b rest ih =>
    rw [writeBits, writeBit_eq, List.flatMap_cons, runCalls_append]
    refine andThen_congr fun _ => ?_
    obtain ⟨h1, h2, -⟩ := runCalls_fields (bitPulse s.pinData s.pinClock b) s
    rw [ih, h1, h2]

/-- A bit-banged byte string is the run of its bytes' calls (R97). -/
theorem twriteBitbang_eq (bytes : List Byte) (s : State) :
    twriteBitbang bytes s = runCalls (s.bitbangCallsOf bytes) s := by
  induction bytes generalizing s with
  | nil => rfl
  | cons v rest ih =>
    have hv : (bitsMsbFirst v).flatMap (bitPulse s.pinData s.pinClock) = byteCalls s.pinData s.pinClock v := by
      simp [bitsMsbFirst, byteCalls]
    rw [twriteBitbang, writeBits_eq, hv, State.bitbangCallsOf, List.flatMap_cons, runCalls_append]
    refine andThen_congr fun _ => ?_
    obtain ⟨h1, h2, -⟩ := runCalls_fields (byteCalls s.pinData s.pinClock v) s
    rw [ih, State.bitbangCallsOf, h1, h2]

/-- A byte costs 24 calls (R98). -/
@[simp] theorem byteCalls_length (pd pc v : Byte) : (byteCalls pd pc v).length = 24 := by simp [byteCalls, bitPulse]

@[simp] theorem bitbangCallsOf_length (s : State) (bytes : List Byte) :
    (s.bitbangCallsOf bytes).length = 24 * bytes.length := by
  induction bytes with
  | nil => rfl
  | cons v rest ih =>
    simp only [State.bitbangCallsOf, List.flatMap_cons, List.length_append, byteCalls_length, List.length_cons] at ih ⊢
    omega

/-- A frame sent by bit-banging is the run of its bytes' calls, with `seq` left at some position. -/
theorem sendFrame_bitbang (bytes : List (SeqPos × Byte)) {s : State} (hb : s.backend = .bitbang) :
    ∃ p, sendFrame bytes s =
      (setSeq p (runCalls (s.bitbangCallsOf (bytes.map (·.2))) s).1,
        (runCalls (s.bitbangCallsOf (bytes.map (·.2))) s).2) := by
  induction bytes generalizing s with
  | nil => exact ⟨s.seq, rfl⟩
  | cons b rest ih =>
    have h1 : twrite [b.2] (setSeq b.1 s) =
        (setSeq b.1 (runCalls (byteCalls s.pinData s.pinClock b.2) s).1,
          (runCalls (byteCalls s.pinData s.pinClock b.2) s).2) := by
      have hb' : (setSeq b.1 s).backend = .bitbang := hb
      rw [twrite, hb', ← runCalls_seq, ← List.append_nil (byteCalls _ _ _)]
      exact twriteBitbang_eq [b.2] _
    have h2 : s.bitbangCallsOf ((b :: rest).map (·.2)) =
        byteCalls s.pinData s.pinClock b.2 ++ s.bitbangCallsOf (rest.map (·.2)) := rfl
    rw [sendFrame, h1, h2, runCalls_append]
    by_cases h : (runCalls (byteCalls s.pinData s.pinClock b.2) s).2 = .ok
    · obtain ⟨f1, f2, f3⟩ := runCalls_fields (byteCalls s.pinData s.pinClock b.2) s
      obtain ⟨p, hp⟩ := ih (s := setSeq b.1 (runCalls (byteCalls s.pinData s.pinClock b.2) s).1) (f3.trans hb)
      refine ⟨p, ?_⟩
      have h3 : (setSeq b.1 (runCalls (byteCalls s.pinData s.pinClock b.2) s).1).bitbangCallsOf (rest.map (·.2)) =
          s.bitbangCallsOf (rest.map (·.2)) := by
        simp only [State.bitbangCallsOf]; rw [show (setSeq b.1 _).pinData = _ from f1, show (setSeq b.1 _).pinClock = _ from f2]
      rw [andThen_of_ok (by exact h), andThen_of_ok h, hp, h3, runCalls_seq]
      rfl
    · exact ⟨b.1, by rw [andThen_of_ne (by exact h), andThen_of_ne h]⟩

/-! ## Chunks -/

theorem fullChunkCalls_of_lt {cap : Nat} {bytes : List Byte} (h : bytes.length < cap) :
    fullChunkCalls cap bytes = [] := by simp [fullChunkCalls, Nat.div_eq_of_lt h]

theorem chunkRest_of_lt {cap : Nat} {bytes : List Byte} (h : bytes.length < cap) : chunkRest cap bytes = bytes := by
  simp [chunkRest, Nat.div_eq_of_lt h]

/-- A full buffer in front is one chunk more. -/
theorem fullChunkCalls_append {cap : Nat} (hc : 1 ≤ cap) {full bytes : List Byte} (h : full.length = cap) :
    fullChunkCalls cap (full ++ bytes) = .busWrite full :: fullChunkCalls cap bytes := by
  have hdiv : (full ++ bytes).length / cap = bytes.length / cap + 1 := by
    rw [List.length_append, h, Nat.add_comm, Nat.add_div_right _ (by omega)]
  unfold fullChunkCalls
  rw [hdiv, List.range_succ_eq_map, List.map_cons, List.map_map]
  congr 1
  · simp [← h]
  · refine List.map_congr_left fun j _ => ?_
    simp only [Function.comp, Nat.succ_eq_add_one, Nat.add_one_mul]
    rw [Nat.add_comm, ← List.drop_drop, List.drop_append_of_le_length (by omega), ← h, List.drop_length]
    rfl

theorem chunkRest_append {cap : Nat} (hc : 1 ≤ cap) {full bytes : List Byte} (h : full.length = cap) :
    chunkRest cap (full ++ bytes) = chunkRest cap bytes := by
  have hdiv : (full ++ bytes).length / cap = bytes.length / cap + 1 := by
    rw [List.length_append, h, Nat.add_comm, Nat.add_div_right _ (by omega)]
  unfold chunkRest
  rw [hdiv, Nat.add_one_mul, Nat.add_comm, ← List.drop_drop, List.drop_append_of_le_length (by omega), ← h,
    List.drop_length]
  rfl

theorem chunkRest_length (cap : Nat) (bytes : List Byte) : (chunkRest cap bytes).length = bytes.length % cap := by
  rw [chunkRest, List.length_drop, Nat.mod_eq_sub_div_mul]

theorem fullChunkCalls_length (cap : Nat) (bytes : List Byte) :
    (fullChunkCalls cap bytes).length = bytes.length / cap := by simp [fullChunkCalls]

/-! ## The bus -/

/-- One byte that does not fill the buffer is held, with no call (41_transport.md R102). -/
theorem appendByte_holds {s : State} (v : Byte) (h : s.idx + 1 < s.params.cap) :
    appendByte v s = ({ s with buf := bufWrite s.buf s.idx v, idx := s.idx + 1 }, .ok) := by
  rw [appendByte, if_neg (by omega), if_neg (by omega)]

/-- The byte that fills the buffer sends it (R102). -/
theorem appendByte_sends {s : State} (v : Byte) (h : s.idx + 1 = s.params.cap) :
    appendByte v s = sendHeld { s with buf := bufWrite s.buf s.idx v, idx := s.idx + 1 } := by
  rw [appendByte, if_neg (by omega), if_pos h]

/-- A transmission that returns Ok sends what is held and empties the buffer. -/
theorem sendHeld_of_ok {s : State} (h : (s.drawAt 0).result = .ok) :
    sendHeld s = ({ s.called [.busWrite (heldBytes s)] with idx := 0 }, .ok) := by
  rw [sendHeld, tryCall_of_ok h, andThen_ok]

/-- A transmission that does not return Ok leaves `idx` and `buf` (R103, R106). -/
theorem sendHeld_of_fail {s : State} (h : (s.drawAt 0).result ≠ .ok) :
    sendHeld s = tryCall (.busWrite (heldBytes s)) s := by
  rw [sendHeld, andThen_of_ne (by rwa [Ne, tryCall_ok_iff])]

@[simp] theorem heldBytes_zero {s : State} (h : s.idx = 0) : heldBytes s = [] := by simp [heldBytes, h]

/-- Appending bytes with every transmission Ok: the full chunks of the held bytes and the new ones are sent, the rest is
held (R108). -/
theorem twriteBus_of_ok {bytes : List Byte} {s : State} (hcap : 1 ≤ s.params.cap) (hi : s.idx < s.params.cap)
    (hok : s.AnswersOk (fullChunkCalls s.params.cap (heldBytes s ++ bytes)).length) :
    ∃ m, twriteBus bytes s =
        ({ s.called (fullChunkCalls s.params.cap (heldBytes s ++ bytes)) with
            buf := m, idx := (chunkRest s.params.cap (heldBytes s ++ bytes)).length }, .ok) ∧
      heldBytes { s with buf := m, idx := (chunkRest s.params.cap (heldBytes s ++ bytes)).length } =
        chunkRest s.params.cap (heldBytes s ++ bytes) := by
  induction bytes generalizing s with
  | nil =>
    have hl : (heldBytes s ++ []).length < s.params.cap := by simpa using hi
    refine ⟨s.buf, ?_, ?_⟩
    · simp only [twriteBus, fullChunkCalls_of_lt hl, chunkRest_of_lt hl, called_nil]
      simp
    · simp only [chunkRest_of_lt hl]
      simp
  | cons v rest ih =>
    have happ := heldBytes_append s v
    rw [List.append_cons] at hok ⊢
    rcases Nat.lt_or_ge (s.idx + 1) s.params.cap with hlt | hge
    · obtain ⟨m, e, e'⟩ := ih (s := { s with buf := bufWrite s.buf s.idx v, idx := s.idx + 1 }) hcap hlt
        (by rw [happ]; exact hok)
      refine ⟨m, ?_, ?_⟩
      · rw [twriteBus, appendByte_holds v hlt, andThen_ok, e, happ]; rfl
      · rw [happ] at e'; exact e'
    · have hfull : s.idx + 1 = s.params.cap := by omega
      have hlen : (heldBytes s ++ [v]).length = s.params.cap := by simp [hfull]
      rw [fullChunkCalls_append hcap hlen] at hok ⊢
      rw [chunkRest_append hcap hlen]
      have h0 : (({ s with buf := bufWrite s.buf s.idx v, idx := s.idx + 1 } : State).drawAt 0).result = .ok :=
        hok 0 (by simp)
      obtain ⟨m, e, e'⟩ := ih
        (s := { (({ s with buf := bufWrite s.buf s.idx v, idx := s.idx + 1 } : State).called
          [.busWrite (heldBytes s ++ [v])]) with idx := 0 })
        hcap (by show 0 < s.params.cap; omega)
        (fun j hj => by
          have := hok (j + 1) (by simpa using! hj)
          rw [Nat.add_comm] at this
          exact (drawAt_called s [.busWrite (heldBytes s ++ [v])] j).symm ▸ this)
      simp only [heldBytes_zero, List.nil_append] at e e'
      refine ⟨m, ?_, e'⟩
      rw [twriteBus, appendByte_sends v hfull, sendHeld_of_ok h0, happ, andThen_ok, e,
        show Call.busWrite (heldBytes s ++ [v]) :: fullChunkCalls s.params.cap rest =
          [Call.busWrite (heldBytes s ++ [v])] ++ fullChunkCalls s.params.cap rest from rfl, called_append]
      rfl

/-- Appending bytes with the `k`-th full transmission the first that is not Ok: that call is the last, made with the `k`-th
chunk held and `idx` at CAP, and leaves both (R103). -/
theorem twriteBus_of_fail {bytes : List Byte} {s : State} {k : Nat} (hcap : 1 ≤ s.params.cap) (hi : s.idx < s.params.cap)
    (hk : k < (heldBytes s ++ bytes).length / s.params.cap) (hok : s.AnswersOk k) (hbad : (s.drawAt k).result ≠ .ok) :
    ∃ m, heldBytes { s with buf := m, idx := s.params.cap } =
        ((heldBytes s ++ bytes).drop (k * s.params.cap)).take s.params.cap ∧
      twriteBus bytes s = tryCall (.busWrite (((heldBytes s ++ bytes).drop (k * s.params.cap)).take s.params.cap))
        { s.called ((fullChunkCalls s.params.cap (heldBytes s ++ bytes)).take k) with buf := m, idx := s.params.cap } := by
  induction bytes generalizing s k with
  | nil =>
    have hl : (heldBytes s ++ []).length < s.params.cap := by simpa using hi
    rw [Nat.div_eq_of_lt hl] at hk
    omega
  | cons v rest ih =>
    have happ := heldBytes_append s v
    rw [List.append_cons] at hk ⊢
    rcases Nat.lt_or_ge (s.idx + 1) s.params.cap with hlt | hge
    · obtain ⟨m, e, e'⟩ := ih (s := { s with buf := bufWrite s.buf s.idx v, idx := s.idx + 1 }) hcap hlt
        (by rw [happ]; exact hk) hok hbad
      rw [happ] at e e'
      exact ⟨m, e, by rw [twriteBus, appendByte_holds v hlt, andThen_ok, e']; rfl⟩
    · have hfull : s.idx + 1 = s.params.cap := by omega
      have hlen : (heldBytes s ++ [v]).length = s.params.cap := by simp [hfull]
      have hchunk : heldBytes { s with buf := bufWrite s.buf s.idx v, idx := s.params.cap } = heldBytes s ++ [v] := by
        rw [← happ, ← hfull]
      cases k with
      | zero =>
        have htake : ((heldBytes s ++ [v] ++ rest).drop (0 * s.params.cap)).take s.params.cap = heldBytes s ++ [v] := by
          rw [Nat.zero_mul, List.drop_zero, ← hlen, List.take_left']
          rfl
        have h0 : (({ s with buf := bufWrite s.buf s.idx v, idx := s.idx + 1 } : State).drawAt 0).result ≠ .ok := hbad
        rw [htake]
        refine ⟨bufWrite s.buf s.idx v, hchunk, ?_⟩
        rw [twriteBus, appendByte_sends v hfull, sendHeld_of_fail h0, happ, List.take_zero, called_nil, hfull]
        exact andThen_of_ne (by rw [Ne, tryCall_ok_iff]; exact hbad) _
      | succ k =>
        have hdrop : (heldBytes s ++ [v] ++ rest).drop ((k + 1) * s.params.cap) = rest.drop (k * s.params.cap) := by
          rw [Nat.add_one_mul, Nat.add_comm, ← List.drop_drop, List.drop_append_of_le_length (by omega), ← hlen,
            List.drop_length, List.nil_append]
        have h0 : (({ s with buf := bufWrite s.buf s.idx v, idx := s.idx + 1 } : State).drawAt 0).result = .ok :=
          hok 0 (by simp)
        have hdraw (j : Nat) : (s.called [.busWrite (heldBytes s ++ [v])]).drawAt j = s.drawAt (j + 1) := by
          rw [drawAt_called, Nat.add_comm]; rfl
        obtain ⟨m, e, e'⟩ := ih
          (s := { (({ s with buf := bufWrite s.buf s.idx v, idx := s.idx + 1 } : State).called
            [.busWrite (heldBytes s ++ [v])]) with idx := 0 }) (k := k)
          hcap (by show 0 < s.params.cap; omega)
          (by
            rw [List.length_append, hlen, Nat.add_comm s.params.cap, Nat.add_div_right _ (by omega)] at hk
            rw [heldBytes_zero rfl, List.nil_append]; exact Nat.lt_of_succ_lt_succ hk)
          (fun j hj => (congrArg Draw.result (hdraw j)).trans (hok (j + 1) (by omega)))
          (by rw [← hdraw k] at hbad; exact hbad)
        simp only [heldBytes_zero, List.nil_append] at e e'
        rw [hdrop, fullChunkCalls_append hcap hlen]
        refine ⟨m, e, ?_⟩
        rw [twriteBus, appendByte_sends v hfull, sendHeld_of_ok h0, happ, andThen_ok, e', List.take_succ_cons,
          ← List.singleton_append (l := List.take _ _), called_append s]
        rfl

/-! ## Nothing of the bus looks at `seq` -/

theorem sendHeld_seq (p : SeqPos) (s : State) : sendHeld (setSeq p s) = (setSeq p (sendHeld s).1, (sendHeld s).2) := by
  have h1 : tryCall (.busWrite (heldBytes (setSeq p s))) (setSeq p s) =
      (setSeq p (tryCall (.busWrite (heldBytes s)) s).1, (tryCall (.busWrite (heldBytes s)) s).2) := rfl
  rw [sendHeld, sendHeld, h1]
  by_cases h : (tryCall (.busWrite (heldBytes s)) s).2 = .ok
  · rw [andThen_of_ok h, andThen_of_ok (by exact h)]; rfl
  · rw [andThen_of_ne h, andThen_of_ne (by exact h)]

theorem appendByte_seq (v : Byte) (p : SeqPos) (s : State) :
    appendByte v (setSeq p s) = (setSeq p (appendByte v s).1, (appendByte v s).2) := by
  by_cases h1 : s.idx = s.params.cap
  · rw [appendByte, appendByte, if_pos (by exact h1), if_pos h1]
  · rw [appendByte, appendByte, if_neg (by exact h1), if_neg h1]
    by_cases h2 : s.idx + 1 = s.params.cap
    · rw [if_pos (by exact h2), if_pos h2]
      exact sendHeld_seq p { s with buf := bufWrite s.buf s.idx v, idx := s.idx + 1 }
    · rw [if_neg (by exact h2), if_neg h2]
      rfl

theorem twriteBus_seq (bytes : List Byte) (p : SeqPos) (s : State) :
    twriteBus bytes (setSeq p s) = (setSeq p (twriteBus bytes s).1, (twriteBus bytes s).2) := by
  induction bytes generalizing s with
  | nil => rfl
  | cons v rest ih =>
    rw [twriteBus, twriteBus, appendByte_seq]
    by_cases h : (appendByte v s).2 = .ok
    · rw [andThen_of_ok (by exact h), andThen_of_ok h, ih]
    · rw [andThen_of_ne (by exact h), andThen_of_ne h]

theorem tflushBus_seq (p : SeqPos) (s : State) :
    tflushBus (setSeq p s) = (setSeq p (tflushBus s).1, (tflushBus s).2) := by
  by_cases h : s.idx = 0
  · rw [tflushBus, tflushBus, if_pos (by exact h), if_pos h]
  · rw [tflushBus, tflushBus, if_neg (by exact h), if_neg h]
    exact sendHeld_seq p s

theorem sendHeld_backend (s : State) : (sendHeld s).1.backend = s.backend := by
  unfold sendHeld
  by_cases h : (tryCall (.busWrite (heldBytes s)) s).2 = .ok
  · rw [andThen_of_ok h]; rfl
  · rw [andThen_of_ne h]; rfl

theorem appendByte_backend (v : Byte) (s : State) : (appendByte v s).1.backend = s.backend := by
  unfold appendByte
  split
  · rfl
  · split
    · exact sendHeld_backend _
    · rfl

/-- A frame sent on the bus is one write of its bytes, with `seq` left at some position (42_frame_protocol.md R120). -/
theorem sendFrame_bus (bytes : List (SeqPos × Byte)) {s : State} (hb : s.backend = .bus) :
    ∃ p, sendFrame bytes s = (setSeq p (twriteBus (bytes.map (·.2)) s).1, (twriteBus (bytes.map (·.2)) s).2) := by
  induction bytes generalizing s with
  | nil => exact ⟨s.seq, rfl⟩
  | cons b rest ih =>
    have h1 : twrite [b.2] (setSeq b.1 s) = (setSeq b.1 (appendByte b.2 s).1, (appendByte b.2 s).2) := by
      have hb' : (setSeq b.1 s).backend = .bus := hb
      rw [twrite, hb', ← appendByte_seq]
      exact andThen_pure _
    rw [sendFrame, h1, List.map_cons, twriteBus]
    by_cases h : (appendByte b.2 s).2 = .ok
    · obtain ⟨p, hp⟩ := ih (s := setSeq b.1 (appendByte b.2 s).1) ((appendByte_backend b.2 s).trans hb)
      exact ⟨p, by rw [andThen_of_ok (by exact h), andThen_of_ok h, hp, twriteBus_seq]; rfl⟩
    · exact ⟨b.1, by rw [andThen_of_ne (by exact h), andThen_of_ne h]⟩

end Sys2Proof.Machine
end

