-- ==== Sys2Proof/Laws/Frame.lean ====
section
/-! SUPPORT. The frame of every micro-operation, said once: which fields it can touch, and that what it observes is a run
of calls, the last of which does not return exactly if it hangs. -/

namespace Sys2Proof.Machine

/-- All a micro-operation can do: it makes some calls, and besides touches `txReleased`, `buf`, `idx` and `seq` only; it
sets `hung` exactly if its last call does not return. -/
def Ran (s : State) (r : State × Res) : Prop :=
  ∃ (cs : List Call) (x : Bool) (b : Memory) (i : Nat) (p : SeqPos) (h : Bool),
    r.1 = { s.called cs with txReleased := x, buf := b, idx := i, seq := p, hung := h } ∧
    (r.2 = .hang → h = true ∧ ∃ c d, (s.callEvents cs).getLast? = some (.call c d) ∧ d.result = .noReturn) ∧
    (r.2 ≠ .hang → h = s.hung)

/-- A micro-operation that makes no call. -/
theorem Ran.of_update {s t : State} {r : Res} {x : Bool} {b : Memory} {i : Nat} {p : SeqPos} (hr : r ≠ .hang)
    (h : t = { s with txReleased := x, buf := b, idx := i, seq := p }) : Ran s (t, r) :=
  ⟨[], x, b, i, p, s.hung, by simp [h], fun e => absurd e hr, fun _ => rfl⟩

theorem Ran.refl (s : State) {r : Res} (hr : r ≠ .hang) : Ran s (s, r) := .of_update hr rfl

/-- The outcome matters only as far as it is a hang. -/
theorem Ran.outcome {s t : State} {r q : Res} (h : Ran s (t, r)) (hq : q = .hang ↔ r = .hang) : Ran s (t, q) := by
  obtain ⟨cs, x, b, i, p, g, e, h1, h2⟩ := h
  exact ⟨cs, x, b, i, p, g, e, fun k => h1 (hq.mp k), fun k => h2 fun k' => k (hq.mpr k')⟩

/-- One after another: the calls of both. -/
theorem Ran.andThen {s : State} {r : State × Res} {f : State → State × Res} (h : Ran s r)
    (hf : r.2 = .ok → Ran r.1 (f r.1)) : Ran s (andThen r f) := by
  by_cases hr : r.2 = .ok
  · rw [andThen_of_ok hr]
    obtain ⟨cs, x, b, i, p, g, e, -, h2⟩ := h
    obtain ⟨ds, x', b', i', p', g', e', h1', h2'⟩ := hf hr
    have hg : g = s.hung := h2 (by simp [hr])
    have hev : r.1.callEvents ds = (s.called cs).callEvents ds :=
      callEvents_congr (by rw [e]) (by rw [e]) ds
    refine ⟨cs ++ ds, x', b', i', p', g', ?_, fun k => ?_, fun k => ?_⟩
    · rw [e', called_append]
      simp only [State.called, e]
      rfl
    · obtain ⟨hg', c, d, hl, hd⟩ := h1' k
      refine ⟨hg', c, d, ?_, hd⟩
      rw [callEvents_append, ← hev]
      exact List.mem_getLast?_append_of_mem_getLast? hl
    · rw [h2' k, e, hg]
  · rwa [andThen_of_ne hr]

/-- A call, tried: it makes that call. -/
theorem ran_tryCall (c : Call) (s : State) : Ran s (tryCall c s) := by
  refine ⟨[c], s.txReleased, s.buf, s.idx, s.seq, s.hung || (s.drawAt 0).result == .noReturn, ?_, fun h => ?_, fun h => ?_⟩
  · simp [tryCall, collab, State.called, State.callEvents]
  · have : (s.drawAt 0).result = .noReturn := by
      simp only [tryCall_result, Call.resultOf] at h
      cases hd : (s.drawAt 0).result <;> simp_all [CallResult.toRes]
    simp [State.callEvents, this]
  · have : (s.drawAt 0).result ≠ .noReturn := by
      intro hd; apply h; simp [tryCall_result, Call.resultOf, hd, CallResult.toRes]
    simp [this]

theorem ran_ignoreCall (c : Call) (s : State) : Ran s (ignoreCall c s) :=
  (ran_tryCall c s).outcome (by
    show (tryCall c s).2.ignored = .hang ↔ (tryCall c s).2 = .hang
    cases (tryCall c s).2 <;> simp [Res.ignored])

/-! ## The transports -/

theorem ran_runCalls (cs : List Call) (s : State) : Ran s (runCalls cs s) := by
  induction cs generalizing s with
  | nil => exact .refl s (by simp)
  | cons c cs ih => exact (ran_tryCall c s).andThen fun _ => ih _

theorem ran_twriteBitbang (bytes : List Byte) (s : State) : Ran s (twriteBitbang bytes s) :=
  twriteBitbang_eq bytes s ▸ ran_runCalls _ s

theorem ran_sendHeld (s : State) : Ran s (sendHeld s) :=
  (ran_tryCall _ s).andThen fun _ => .of_update (by simp) rfl

theorem Ran.of_start {s t : State} {r : State × Res} {b : Memory} {i : Nat} {p : SeqPos} (h : Ran t r)
    (e : t = { s with buf := b, idx := i, seq := p }) : Ran s r := by
  subst e
  exact h

theorem ran_appendByte (v : Byte) (s : State) : Ran s (appendByte v s) := by
  unfold appendByte
  split
  · exact .refl s (by simp)
  · split
    · exact (ran_sendHeld _).of_start rfl
    · exact .of_update (by simp) rfl

theorem ran_twriteBus (bytes : List Byte) (s : State) : Ran s (twriteBus bytes s) := by
  induction bytes generalizing s with
  | nil => exact .refl s (by simp)
  | cons v rest ih => exact (ran_appendByte v s).andThen fun _ => ih _

theorem ran_tflushBus (s : State) : Ran s (tflushBus s) := by
  unfold tflushBus
  split
  · exact .refl s (by simp)
  · exact ran_sendHeld s

theorem ran_twrite (bytes : List Byte) (s : State) : Ran s (twrite bytes s) := by
  unfold twrite
  cases s.backend
  · exact ran_twriteBitbang bytes s
  · exact ran_twriteBus bytes s

theorem ran_tflush (s : State) : Ran s (tflush s) := by
  unfold tflush
  cases s.backend
  · exact .refl s (by simp)
  · exact ran_tflushBus s

theorem ran_treleaseBitbang (s : State) : Ran s (treleaseBitbang s) := by
  unfold treleaseBitbang
  split
  · exact .refl s (by simp)
  · exact Ran.andThen (r := ignoreCall _ { s with txReleased := true }) (ran_ignoreCall _ { s with txReleased := true })
      fun _ => ran_ignoreCall _ _

theorem ran_treleaseBus (s : State) : Ran s (treleaseBus s) := by
  unfold treleaseBus
  split
  · exact .refl s (by simp)
  · exact .of_update (by simp) rfl

theorem ran_trelease (s : State) : Ran s (trelease s) := by
  unfold trelease
  cases s.backend
  · exact ran_treleaseBitbang s
  · exact ran_treleaseBus s

/-! ## The frame -/

theorem ran_sendFrame (bytes : List (SeqPos × Byte)) (s : State) : Ran s (sendFrame bytes s) := by
  induction bytes generalizing s with
  | nil => exact .refl s (by simp)
  | cons b rest ih => exact ((ran_twrite _ _).of_start (p := b.1) rfl).andThen fun _ => ih _

theorem ran_render (s : State) : Ran s (render s) :=
  (ran_sendFrame _ s).andThen fun _ =>
    ((ran_tflush _).of_start (p := .flush) rfl).andThen fun _ => .of_update (by simp) rfl

theorem ran_releasePins (pins : List Byte) (s : State) : Ran s (releasePins pins s) := by
  induction pins generalizing s with
  | nil => exact .refl s (by simp)
  | cons p rest ih => exact (ran_ignoreCall _ s).andThen fun _ => ih _

/-! ## Which outcomes an operation can have -/

/-- Only a write to the bus raises a fault, and only BufferFull (60_exceptions.md R144). -/
theorem tryCall_ne_fault (c : Call) (s : State) (f : FaultCode) : (tryCall c s).2 ≠ .fault f := by
  simp only [tryCall_result, Call.resultOf]
  cases (s.drawAt 0).result <;> simp [CallResult.toRes]

/-- An ignored call comes out Ok or hangs. -/
theorem ignoreCall_result (c : Call) (s : State) : (ignoreCall c s).2 = .ok ∨ (ignoreCall c s).2 = .hang := by
  simp only [ignoreCall, tryCall_result, Call.resultOf]
  cases (s.drawAt 0).result <;> simp [CallResult.toRes, Res.ignored]

/-- A release of the transport comes out Ok or hangs (41_transport.md R101, R107). -/
theorem trelease_result (s : State) : (trelease s).2 = .ok ∨ (trelease s).2 = .hang := by
  unfold trelease
  cases s.backend
  · show (treleaseBitbang s).2 = _ ∨ (treleaseBitbang s).2 = _
    unfold treleaseBitbang
    split
    · exact .inl rfl
    · by_cases h : (ignoreCall (.gpioRelease s.pinData) { s with txReleased := true }).2 = .ok
      · rw [andThen_of_ok h]; exact ignoreCall_result _ _
      · rw [andThen_of_ne h]; exact ignoreCall_result _ _
  · show (treleaseBus s).2 = _ ∨ (treleaseBus s).2 = _
    unfold treleaseBus
    split <;> exact .inl rfl

end Sys2Proof.Machine
end

