-- ==== Sys2Proof/Laws/Exec.lean ====
section
/-! SUPPORT. What each command can end in, said once: the inversion lemmas of the constructions, the release and `exec`. -/

namespace Sys2Proof.Machine

/-- The last of these calls does not return. -/
def State.HangsAfter (s : State) (cs : List Call) : Prop :=
  ∃ c d, (s.callEvents cs).getLast? = some (.call c d) ∧ d.result = .noReturn


/-- A micro-operation that did not hang made calls and touched transport fields. -/
theorem Ran.returned {s : State} {r : State × Res} (h : Ran s r) (hr : r.2 ≠ .hang) :
    ∃ cs x b i p, r.1 = { s.called cs with txReleased := x, buf := b, idx := i, seq := p } := by
  obtain ⟨cs, x, b, i, p, g, e, -, h2⟩ := h
  exact ⟨cs, x, b, i, p, by rw [e, h2 hr]; rfl⟩

/-- One that hangs ends in the call that does not return. -/
theorem Ran.hangs {s : State} {r : State × Res} (h : Ran s r) (hr : r.2 = .hang) :
    ∃ cs x b i p, r.1 = { s.called cs with txReleased := x, buf := b, idx := i, seq := p, hung := true } ∧
      s.HangsAfter cs := by
  obtain ⟨cs, x, b, i, p, g, e, h1, -⟩ := h
  exact ⟨cs, x, b, i, p, by rw [e, (h1 hr).1], (h1 hr).2⟩

/-! ## Construction -/

theorem initFail_cases (k : ErrKind) (pins : List Byte) (s : State) :
    (∃ cs, initFail k pins s = finish (.error k) 0 (s.called cs)) ∨
    (∃ cs, initFail k pins s = { s.called cs with hung := true } ∧ s.HangsAfter cs) := by
  have key : ∀ (pins : List Byte) (s : State), (∃ cs, releasePins pins s = (s.called cs, .ok)) ∨
      (∃ cs, releasePins pins s = ({ s.called cs with hung := true }, .hang) ∧ s.HangsAfter cs) := by
    intro pins
    induction pins with
    | nil => exact fun s => .inl ⟨[], by simp [releasePins]⟩
    | cons p rest ih =>
      intro s
      by_cases h : (s.drawAt 0).result = .noReturn
      · refine .inr ⟨[.gpioRelease p], ?_, .gpioRelease p, s.drawAt 0, by simp [State.callEvents], h⟩
        have hr : ignoreCall (.gpioRelease p) s = ({ s.called [.gpioRelease p] with hung := true }, .hang) := by
          refine Prod.ext ?_ (by simp [ignoreCall, tryCall_result, Call.resultOf, h, CallResult.toRes, Res.ignored])
          simp [ignoreCall, tryCall, collab, h, State.called, State.callEvents]
        rw [releasePins, hr]
        rfl
      · rw [releasePins, ignoreCall_of_returns h, andThen_ok]
        rcases ih (s.called [.gpioRelease p]) with ⟨cs, e⟩ | ⟨cs, e, c, d, hl, hd⟩
        · exact .inl ⟨.gpioRelease p :: cs, by
            rw [e, show Call.gpioRelease p :: cs = [.gpioRelease p] ++ cs from rfl, called_append]⟩
        · refine .inr ⟨.gpioRelease p :: cs, by
            rw [e, show Call.gpioRelease p :: cs = [.gpioRelease p] ++ cs from rfl, called_append], c, d, ?_, hd⟩
          rw [show Call.gpioRelease p :: cs = [.gpioRelease p] ++ cs from rfl, callEvents_append]
          exact List.mem_getLast?_append_of_mem_getLast? hl
  unfold initFail
  rcases key pins s with ⟨cs, e⟩ | ⟨cs, e, h⟩ <;> rw [e]
  · exact .inl ⟨cs, rfl⟩
  · exact .inr ⟨cs, rfl, h⟩

/-- A construction completes, or reports an error and changes no field of its own, or hangs (43_lifecycle.md R128 to R130). -/
theorem construct_cases (calls : List (Call × List Byte)) (complete : State → State) (s : State) :
    (∃ cs, construct calls complete s = finish .ok 0 (complete (s.called cs))) ∨
    (∃ cs k, construct calls complete s = finish (.error k) 0 (s.called cs)) ∨
    (∃ cs, construct calls complete s = { s.called cs with hung := true } ∧ s.HangsAfter cs) := by
  induction calls generalizing s with
  | nil => exact .inl ⟨[], by simp [construct]⟩
  | cons c rest ih =>
    have cons : ∀ cs, s.called (c.1 :: cs) = (s.called [c.1]).called cs := fun cs =>
      (called_append s [c.1] cs)
    have hang : ∀ cs, (s.called [c.1]).HangsAfter cs → s.HangsAfter (c.1 :: cs) := by
      rintro cs ⟨d, e, hl, he⟩
      refine ⟨d, e, ?_, he⟩
      rw [show c.1 :: cs = [c.1] ++ cs from rfl, callEvents_append]
      exact List.mem_getLast?_append_of_mem_getLast? hl
    have h2 : (collab c.1 s).2 = c.1.resultOf (s.drawAt 0) := rfl
    cases hd : (s.drawAt 0).result with
    | noReturn =>
      refine .inr (.inr ⟨[c.1], ?_, c.1, s.drawAt 0, by simp [State.callEvents], hd⟩)
      simp [construct, Call.resultOf, hd, collab, State.called, State.callEvents]
    | ok =>
      have h1 := collab_of_ok (c := c.1) hd
      simp only [construct, h2, Call.resultOf, hd, h1]
      rcases ih (s.called [c.1]) with ⟨cs, e⟩ | ⟨cs, k, e⟩ | ⟨cs, e, h⟩
      · exact .inl ⟨c.1 :: cs, by rw [cons cs]; exact e⟩
      · exact .inr (.inl ⟨c.1 :: cs, k, by rw [cons cs]; exact e⟩)
      · exact .inr (.inr ⟨c.1 :: cs, by rw [cons cs]; exact e, hang cs h⟩)
    | deviceError | ioError =>
      have h1 := collab_of_returns (c := c.1) (s := s) (by simp [hd])
      simp only [construct, h2, Call.resultOf, hd, h1]
      rcases initFail_cases _ c.2 (s.called [c.1]) with ⟨cs, e⟩ | ⟨cs, e, h⟩
      · exact .inr (.inl ⟨c.1 :: cs, _, by rw [cons cs]; exact e⟩)
      · exact .inr (.inr ⟨c.1 :: cs, by rw [cons cs]; exact e, hang cs h⟩)

/-! ## Release -/

/-- The state a release renders from: with `cor = 1` the colours are cleared (43_lifecycle.md R133). -/
def blanked (s : State) : State := { s with pix := if s.cor then clearColours s.n s.pix else s.pix }

theorem ran_releaseRender (s : State) : Ran (blanked s) (releaseRender s) := by
  unfold releaseRender blanked
  by_cases h : s.cor = true
  · simp only [h, if_true]
    exact ran_render _
  · rw [if_neg h, if_neg h]
    exact Ran.refl s (r := .ok) (by simp)

/-- A teardown ends RELEASED with the given status, or hangs. -/
theorem teardown_cases (st : Status) (s : State) :
    ((trelease s).2 = .ok ∧ teardown st s = finish st 0 { (trelease s).1 with life := .released, seq := .idle }) ∨
    ((trelease s).2 = .hang ∧ teardown st s = (trelease s).1) := by
  rcases trelease_result s with h | h <;> simp [teardown, h]

/-- A release of an active handle ends in a teardown, in BufferFull, or in a hang of its render (43_lifecycle.md R133, R138). -/
theorem releaseHandle_cases (explicit : Bool) {s : State} (h : s.life = .active) :
    (∃ st, (st = .ok ∨ explicit = true ∧ ∃ k, st = .error k) ∧
      (releaseRender s).2 ≠ .hang ∧ (∀ c, (releaseRender s).2 ≠ .fault c) ∧
      releaseHandle explicit s = teardown st (releaseRender s).1) ∨
    (∃ c, (releaseRender s).2 = .fault c ∧
      releaseHandle explicit s = raiseFault c (setSeq .idle (releaseRender s).1)) ∨
    ((releaseRender s).2 = .hang ∧ releaseHandle explicit s = (releaseRender s).1) := by
  unfold releaseHandle
  rw [h]
  cases hr : (releaseRender s).2 with
  | ok => exact .inl ⟨.ok, by simp⟩
  | err k => cases explicit
             · exact .inl ⟨.ok, by simp⟩
             · exact .inl ⟨.error k, by simp⟩
  | fault c => exact .inr (.inl ⟨c, by simp⟩)
  | hang => exact .inr (.inr ⟨rfl, rfl⟩)

/-! ## Every command -/

/-- The endings of a command: refused, faulted in a check, or run. -/
inductive Ends (i : Instr) (s : State) : State → Prop where
  | halted (hf : s.fault ≠ none) (hi : ∀ g, i ≠ .rdreg g) : Ends i s (respond .halted 0 s)
  | faulted (hf : s.fault = none) (c : FaultCode) : Ends i s (raiseFault c s)
  | read (g : RegName) (hi : i = .rdreg g) : Ends i s (respond .ok (s.readReg g) s)
  | stored (x a : Nat) (bytes : List Byte) (hs : s.Ready) (hx : x < s.n) (hi : keepsPixel x i = false)
      (hlo : 4 * x ≤ a) (hhi : a + bytes.length ≤ 4 * x + 4)
      (hm : a = 4 * x → ∃ level rest, bytes = encodeBrightness level :: rest) :
      Ends i s (finish .ok 0 { s with pix := pixWriteBytes s.pix a bytes })
  | got (x : Nat) (hs : s.Ready) (hx : x < s.n) (hi : i = .getpix x) : Ends i s (finish .ok (pixWord s.pix x) s)
  | ran (r : State × Res) (hs : s.Ready)
      (hi : (∃ v, i = .txwr v ∧ r = twrite [v] s) ∨ (i = .flush ∧ r = tflush s) ∨ (i = .render ∧ r = render s)) :
      Ends i s (endCommand r)
  | flag (b : Bool) (hs : s.Ready) (hi : i = .setcor b) : Ends i s (finish .ok 0 { s with cor := b })
  | bitbang (count : Nat) (pd pc : Byte) (hs : s.Constructible count) (hp : pd ≠ pc)
      (hi : i.opcode = 0x01#8 ∨ i.opcode = 0x02#8) : Ends i s (constructBitbang count pd pc s)
  | bus (count : Nat) (hz : Word) (hs : s.Constructible count) (hi : i.opcode = 0x03#8) :
      Ends i s (constructBus count hz s)
  | noop (hs : s.fault = none ∧ s.life = .released) (hi : i = .release ∨ i = .drop) : Ends i s (finish .ok 0 s)
  | release (b : Bool) (hs : s.Ready) (hi : i = if b then .release else .drop) : Ends i s (releaseHandle b s)

/-- A command admitted through the checks ends in one of them, or as its body does. -/
theorem ends_of_admit {i : Instr} {s : State} {cls : CmdClass} {rf : Option FaultCode} {body : State → State}
    (hi : ∀ g, i ≠ .rdreg g)
    (h : s.fault = none → lifecycleFault cls s.life = none → rf = none → Ends i s (body s)) :
    Ends i s (checked cls rf body s) := by
  rcases checked_cases cls rf body s with ⟨hf, e⟩ | ⟨hf, c, e⟩ | ⟨hf, hl, hr, e⟩ <;> rw [e]
  · exact .halted hf hi
  · exact .faulted hf c
  · exact h hf hl hr

theorem ready_of_handle {s : State} (hf : s.fault = none) (hl : lifecycleFault .handle s.life = none) : s.Ready :=
  ⟨hf, by cases h : s.life <;> simp_all [lifecycleFault]⟩

theorem lt_of_indexFault {x : Nat} {s : State} (h : indexFault x s = none) : x < s.n := by
  simp only [indexFault] at h
  split at h
  · simp at h
  · omega

theorem constructible_of {count : Nat} {s : State} (hf : s.fault = none)
    (hl : lifecycleFault .construction s.life = none) (hc : countFault count s = none) : s.Constructible count := by
  refine ⟨hf, by rintro h; simp [h, lifecycleFault] at hl, ?_⟩
  simp only [countFault] at hc
  split at hc
  · simp at hc
  · omega

theorem constructible_of_pins {count : Nat} {pd pc : Byte} {s : State} (hf : s.fault = none)
    (hl : lifecycleFault .construction s.life = none) (hc : pinsFault count pd pc s = none) :
    s.Constructible count ∧ pd ≠ pc := by
  simp only [pinsFault] at hc
  split at hc
  · simp at hc
  · rename_i h
    refine ⟨constructible_of hf hl h, ?_⟩
    rintro rfl
    simp at hc

/-- Every command ends, and in one of these ways. -/
theorem exec_ends (i : Instr) (s : State) : ∃ t, exec i s = .next t ∧ Ends i s t := by
  cases i with
  | initdef => exact ⟨_, rfl, ends_of_admit (by simp) fun hf hl hr =>
      have h := constructible_of_pins hf hl hr
      .bitbang _ _ _ h.1 h.2 (.inl rfl)⟩
  | initbb count pd pc => exact ⟨_, rfl, ends_of_admit (by simp) fun hf hl hr =>
      have h := constructible_of_pins hf hl hr
      .bitbang _ _ _ h.1 h.2 (.inr rfl)⟩
  | initbus count hz => exact ⟨_, rfl, ends_of_admit (by simp) fun hf hl hr =>
      .bus _ _ (constructible_of hf hl hr) rfl⟩
  | setrgb x red green blue => exact ⟨_, rfl, ends_of_admit (by simp) fun hf hl hr =>
      .stored x _ _ (ready_of_handle hf hl) (lt_of_indexFault hr) (by simp [keepsPixel]) (by omega)
        (by simp [encodeColour]) (by omega)⟩
  | setbri x level => exact ⟨_, rfl, ends_of_admit (by simp) fun hf hl hr =>
      .stored x _ _ (ready_of_handle hf hl) (lt_of_indexFault hr) (by simp [keepsPixel]) le_rfl (by simp)
        fun _ => ⟨level, _, rfl⟩⟩
  | setrgbb x red green blue level => exact ⟨_, rfl, ends_of_admit (by simp) fun hf hl hr =>
      .stored x _ _ (ready_of_handle hf hl) (lt_of_indexFault hr) (by simp [keepsPixel]) le_rfl (by simp [encodeColour])
        fun _ => ⟨level, _, rfl⟩⟩
  | getpix x => exact ⟨_, rfl, ends_of_admit (by simp) fun hf hl hr =>
      .got x (ready_of_handle hf hl) (lt_of_indexFault hr) rfl⟩
  | render => exact ⟨_, rfl, ends_of_admit (by simp) fun hf hl _ =>
      .ran _ (ready_of_handle hf hl) (.inr (.inr ⟨rfl, rfl⟩))⟩
  | txwr v => exact ⟨_, rfl, ends_of_admit (by simp) fun hf hl _ => .ran _ (ready_of_handle hf hl) (.inl ⟨v, rfl, rfl⟩)⟩
  | flush => exact ⟨_, rfl, ends_of_admit (by simp) fun hf hl _ =>
      .ran _ (ready_of_handle hf hl) (.inr (.inl ⟨rfl, rfl⟩))⟩
  | setcor b => exact ⟨_, rfl, ends_of_admit (by simp) fun hf hl _ => .flag b (ready_of_handle hf hl) rfl⟩
  | rdreg g => exact ⟨_, rfl, .read g rfl⟩
  | release | drop =>
    refine ⟨_, rfl, ends_of_admit (by simp) fun hf hl _ => ?_⟩
    cases h : s.life with
    | unconfigured => simp [h, lifecycleFault] at hl
    | active => exact .release _ ⟨hf, h⟩ rfl
    | released => simp only [releaseHandle, h]; exact .noop ⟨hf, h⟩ (by simp)

/-- A micro-operation run by a command is one the frame lemmas speak of. -/
theorem Ends.ran_ran {i : Instr} {s : State} {r : State × Res}
    (hi : (∃ v, i = .txwr v ∧ r = twrite [v] s) ∨ (i = .flush ∧ r = tflush s) ∨ (i = .render ∧ r = render s)) :
    Ran s r := by
  rcases hi with ⟨v, -, rfl⟩ | ⟨-, rfl⟩ | ⟨-, rfl⟩
  · exact ran_twrite _ s
  · exact ran_tflush s
  · exact ran_render s

/-! ## Every step -/

theorem step_of_running {s : State} (h : s.hung = false) : step s = takeCommand s := by simp [step, h]

/-- A step of a block that is not hung idles, runs a decoded command, or refuses words that spell none. -/
theorem step_cases {s t : State} (h : step s = .next t) :
    s.hung = false ∧
    ((decode s.cmds = .incomplete ∧ t = s) ∨
     (∃ i rest, decode s.cmds = .command i rest ∧ Ends i { s with cmds := rest } t) ∨
     (∃ rest, (decode s.cmds = .unassignedOpcode rest ∨ decode s.cmds = .reservedHeaderBits rest ∨
        decode s.cmds = .reservedOperandBits rest) ∧ t = refuseIllegal { s with cmds := rest })) := by
  have hh : s.hung = false := by
    cases hh : s.hung with
    | true => simp [step, hh] at h
    | false => rfl
  refine ⟨hh, ?_⟩
  rw [step_of_running hh, takeCommand] at h
  split at h
  · rename_i i rest hd
    obtain ⟨u, hu, he⟩ := exec_ends i { s with cmds := rest }
    rw [hu] at h
    injection h with h
    exact .inr (.inl ⟨i, rest, hd, h ▸ he⟩)
  · rename_i hd
    injection h with h
    exact .inl ⟨hd, h.symm⟩
  all_goals
    rename_i rest hd
    injection h with h
    exact .inr (.inr ⟨rest, by simp [hd], h.symm⟩)

/-- Words that spell no command are halted or raise IllegalCommand (60_exceptions.md R147). -/
theorem refuseIllegal_cases (s : State) :
    (s.fault ≠ none ∧ refuseIllegal s = respond .halted 0 s) ∨
    (s.fault = none ∧ refuseIllegal s = raiseFault .illegalCommand s) := by
  unfold refuseIllegal
  cases s.fault <;> simp

end Sys2Proof.Machine
end

