-- ==== Sys2Proof/Laws/Observe.lean ====
section
/-! SUPPORT. What the chain receives from one run of events after another (20_memory.md R56, R57). -/

namespace Sys2Proof.Machine

theorem busStream_append (xs ys : List Event) : busStream (xs ++ ys) = busStream xs ++ busStream ys :=
  List.flatMap_append

theorem levelFrom_append (p : Byte) (k : Nat) (level : Bool) (xs ys : List Event) :
    levelFrom p k level (xs ++ ys) = levelFrom p (k + xs.length) (levelFrom p k level xs) ys := by
  induction xs generalizing k level with
  | nil => rfl
  | cons e xs ih =>
    simp only [List.cons_append, levelFrom, List.length_cons, ih]
    rw [Nat.add_right_comm, Nat.add_assoc]

/-- The later events carry their bits from the data line's level the earlier ones leave. -/
theorem bitsFrom_append (pinData pinClock : Byte) (k : Nat) (level : Bool) (xs ys : List Event) :
    bitsFrom pinData pinClock k level (xs ++ ys) =
      bitsFrom pinData pinClock k level xs ++
        bitsFrom pinData pinClock (k + xs.length) (levelFrom pinData k level xs) ys := by
  induction xs generalizing k level with
  | nil => rfl
  | cons e xs ih =>
    simp only [List.cons_append, bitsFrom, levelFrom, List.length_cons, ih, List.append_assoc]
    rw [Nat.add_right_comm, Nat.add_assoc]

end Sys2Proof.Machine
end

