-- ==== Sys2Proof/Laws/PerInstr.lean ====
section
/-! SUPPORT. What holds of every command as syntax, constructor by constructor: its words are the header and the operand
words its opcode takes (30_encoding.md R70, R77). -/

namespace Sys2Proof.Laws.WordCount

/-- "The length of a command (`1 + k` words) follows from `op` alone" (30_encoding.md R77). -/
def Statement (i : Instr) : Prop := (encode i).length = 1 + operandWords i.opcode

theorem initdef : Statement .initdef := rfl
theorem initbb (count : Nat) (pinData pinClock : Byte) : Statement (.initbb count pinData pinClock) := rfl
theorem initbus (count : Nat) (clockHz : Word) : Statement (.initbus count clockHz) := rfl
theorem setrgb (index : Nat) (red green blue : Byte) : Statement (.setrgb index red green blue) := rfl
theorem setbri (index : Nat) (level : Word) : Statement (.setbri index level) := rfl
theorem setrgbb (index : Nat) (red green blue : Byte) (level : Word) :
    Statement (.setrgbb index red green blue level) := rfl
theorem getpix (index : Nat) : Statement (.getpix index) := rfl
theorem render : Statement .render := rfl
theorem txwr (byte : Byte) : Statement (.txwr byte) := rfl
theorem flush : Statement .flush := rfl
theorem setcor (flag : Bool) : Statement (.setcor flag) := rfl
theorem rdreg (reg : RegName) : Statement (.rdreg reg) := rfl
theorem release : Statement .release := rfl
theorem drop : Statement .drop := rfl

end Sys2Proof.Laws.WordCount
end

