-- ==== Sys2Proof/Laws/Settled.lean ====
section
/-! SUPPORT. What any command leaves: its calls, its one response, and the fields it keeps. -/

namespace Sys2Proof.Machine

/-- The fields of a handle that outlive its commands are as they were. -/
def SameHandle (s t : State) : Prop :=
  t.n = s.n ∧ t.L = s.L ∧ t.backend = s.backend ∧ t.pinData = s.pinData ∧ t.pinClock = s.pinClock ∧ t.clockHz = s.clockHz

/-- The five ways a command ends, with the calls it makes and the fields it keeps: halted; a register read; OK or an error;
a fault; a hang. -/
inductive Settled (i : Instr) (s t : State) : Prop where
  | halted (hf : s.fault ≠ none) (hi : ∀ g, i ≠ .rdreg g) (e : t = respond .halted 0 s)
  | read (g : RegName) (hi : i = .rdreg g) (e : t = respond .ok (s.readReg g) s)
  | answered (hf : s.fault = none) (st : Status) (data : Word) (cs : List Call) (u : State)
      (htr : u.trace = s.trace ++ s.callEvents cs) (hno : u.drawNo = s.drawNo + cs.length) (hfu : u.fault = none)
      (hh : u.hung = s.hung) (hst : st = .ok ∨ ∃ k, st = .error k) (e : t = finish st data u)
      (hp : t.params = s.params) (hc : t.cmds = s.cmds)
      (hs : SameHandle s t ∧
          (t.life = s.life ∨ (i = .release ∨ i = .drop) ∧ s.life = .active ∧ t.life = .released) ∨
        s.life ≠ .active ∧ st = .ok ∧ (i.opcode = 0x01#8 ∨ i.opcode = 0x02#8 ∨ i.opcode = 0x03#8) ∧ t.life = .active)
  | faulted (hf : s.fault = none) (c : FaultCode) (cs : List Call) (u : State)
      (htr : u.trace = s.trace ++ s.callEvents cs) (hno : u.drawNo = s.drawNo + cs.length) (hh : u.hung = s.hung)
      (e : t = raiseFault c u) (hp : t.params = s.params) (hc : t.cmds = s.cmds)
      (hs : SameHandle s t ∧ t.life = s.life)
  | hung (hf : s.fault = none) (cs : List Call) (htr : t.trace = s.trace ++ s.callEvents cs)
      (hno : t.drawNo = s.drawNo + cs.length) (hft : t.fault = none) (hst : t.status = s.status) (hh : t.hung = true)
      (hl : s.HangsAfter cs) (hp : t.params = s.params) (hc : t.cmds = s.cmds) (hs : SameHandle s t ∧ t.life = s.life)

theorem blanked_callEvents (s : State) (cs : List Call) : (blanked s).callEvents cs = s.callEvents cs := rfl

/-- A micro-operation's command, settled. -/
theorem settled_of_ran {i : Instr} {s : State} {r : State × Res} (hs : s.Ready) (hr : Ran s r) :
    Settled i s (endCommand r) := by
  obtain ⟨t, q⟩ := r
  cases q with
  | hang =>
    obtain ⟨cs, x, b, j, p, e, hl⟩ := hr.hangs rfl
    dsimp at e
    subst e
    exact .hung hs.1 cs rfl rfl hs.1 rfl rfl hl rfl rfl (by simp [endCommand, SameHandle])
  | ok =>
    obtain ⟨cs, x, b, j, p, e⟩ := hr.returned (by simp)
    dsimp at e
    subst e
    refine .answered hs.1 .ok 0 cs _ ?_ ?_ ?_ ?_ (.inl rfl) rfl rfl rfl (.inl (by simp [SameHandle])) <;> simp [hs.1]
  | err k =>
    obtain ⟨cs, x, b, j, p, e⟩ := hr.returned (by simp)
    dsimp at e
    subst e
    refine .answered hs.1 (.error k) 0 cs _ ?_ ?_ ?_ ?_ (.inr ⟨k, rfl⟩) rfl rfl rfl (.inl (by simp [SameHandle])) <;>
      simp [hs.1]
  | fault c =>
    obtain ⟨cs, x, b, j, p, e⟩ := hr.returned (by simp)
    dsimp at e
    subst e
    refine .faulted hs.1 c cs _ ?_ ?_ ?_ rfl rfl rfl (by simp [endCommand, SameHandle]) <;> simp [hs.1]

/-- A construction, settled. -/
theorem settled_of_construct {i : Instr} {s : State} {count : Nat} {calls : List (Call × List Byte)}
    {b : Backend} {pd pc : Byte} {hz : Word} (complete : State → State) (hs : s.Constructible count)
    (hi : i.opcode = 0x01#8 ∨ i.opcode = 0x02#8 ∨ i.opcode = 0x03#8)
    (hc : ∀ cs, complete (s.called cs) = { initCommon b count (s.called cs) with pinData := pd, pinClock := pc, clockHz := hz }) :
    Settled i s (construct calls complete s) := by
  rcases construct_cases calls complete s with ⟨cs, e⟩ | ⟨cs, k, e⟩ | ⟨cs, e, hl⟩ <;> rw [e]
  · rw [hc]
    refine .answered hs.1 .ok 0 cs _ ?_ ?_ ?_ ?_ (.inl rfl) rfl rfl rfl (.inr ⟨hs.2.1, rfl, hi, rfl⟩) <;> simp [hs.1]
  · refine .answered hs.1 (.error k) 0 cs _ ?_ ?_ ?_ ?_ (.inr ⟨k, rfl⟩) rfl rfl rfl (.inl (by simp [SameHandle])) <;>
      simp [hs.1]
  · exact .hung hs.1 cs rfl rfl hs.1 rfl rfl hl rfl rfl (by simp [SameHandle])

/-- A release, settled. -/
theorem settled_of_release {i : Instr} {s : State} (b : Bool) (hs : s.Ready) (hi : i = .release ∨ i = .drop) :
    Settled i s (releaseHandle b s) := by
  have hr := ran_releaseRender s
  rcases releaseHandle_cases b hs.2 with ⟨st, hst, hq1, hq2, e⟩ | ⟨c, hq, e⟩ | ⟨hq, e⟩ <;> rw [e]
  · obtain ⟨cs, x, b', j, p, e1⟩ := hr.returned hq1
    have hr2 := ran_trelease (releaseRender s).1
    have hev : ∀ ds, (releaseRender s).1.callEvents ds = (s.called cs).callEvents ds := fun ds =>
      callEvents_congr (by rw [e1]; rfl) (by rw [e1]; rfl) ds
    have hst' : st = .ok ∨ ∃ k, st = .error k := by tauto
    rcases teardown_cases st (releaseRender s).1 with ⟨h1, h2⟩ | ⟨h1, h2⟩ <;> rw [h2]
    · obtain ⟨ds, x2, b2, j2, p2, e2⟩ := hr2.returned (by simp [h1])
      refine .answered hs.1 st 0 (cs ++ ds) _ ?_ ?_ ?_ ?_ hst' rfl ?_ ?_ (.inl ?_)
      · rw [e2]; dsimp; rw [callEvents_append, ← List.append_assoc, hev, e1]; rfl
      · rw [e2]; dsimp; rw [e1]; simp [blanked]; omega
      · rw [e2]; dsimp; rw [e1]; exact hs.1
      · rw [e2]; dsimp; rw [e1]; rfl
      · rw [e2]; dsimp; rw [e1]; rfl
      · rw [e2]; dsimp; rw [e1]; rfl
      · rw [e2]; dsimp; rw [e1]; simp [blanked, hs.2, SameHandle]; exact hi
    · obtain ⟨ds, x2, b2, j2, p2, e2, hl⟩ := hr2.hangs h1
      refine .hung hs.1 (cs ++ ds) ?_ ?_ ?_ ?_ ?_ ?_ ?_ ?_ ?_
      · rw [e2]; dsimp; rw [callEvents_append, ← List.append_assoc, hev, e1]; rfl
      · rw [e2]; dsimp; rw [e1]; simp [blanked]; omega
      · rw [e2]; dsimp; rw [e1]; exact hs.1
      · rw [e2]; dsimp; rw [e1]; rfl
      · rw [e2]
      · obtain ⟨c, d, hl, hd⟩ := hl
        exact ⟨c, d, by rw [callEvents_append, ← hev]; exact List.mem_getLast?_append_of_mem_getLast? hl, hd⟩
      · rw [e2]; dsimp; rw [e1]; rfl
      · rw [e2]; dsimp; rw [e1]; rfl
      · rw [e2]; dsimp; rw [e1]; simp [blanked, SameHandle]
  · obtain ⟨cs, x, b', j, p, e1⟩ := hr.returned (by simp [hq])
    rw [e1]
    refine .faulted hs.1 c cs _ ?_ ?_ ?_ rfl rfl rfl (by simp [blanked, SameHandle]) <;> rfl
  · obtain ⟨cs, x, b', j, p, e1, hl⟩ := hr.hangs hq
    rw [e1]
    exact .hung hs.1 cs rfl rfl hs.1 rfl rfl hl rfl rfl (by simp [blanked, SameHandle])

/-- A command that only answers, settled. -/
theorem settled_of_answer {i : Instr} {s u : State} (data : Word) (hf : s.fault = none)
    (hu : u = { s with pix := u.pix, cor := u.cor }) : Settled i s (finish .ok data u) := by
  rw [hu]
  refine .answered hf .ok data [] _ ?_ ?_ ?_ ?_ (.inl rfl) rfl rfl rfl (.inl (by simp [SameHandle])) <;> simp [hf]

/-- Every ending is one of the five. -/
theorem Ends.settled {i : Instr} {s t : State} (h : Ends i s t) : Settled i s t := by
  cases h with
  | halted hf hi => exact .halted hf hi rfl
  | faulted hf c => exact .faulted hf c [] s (by simp) (by simp) rfl rfl rfl rfl (by simp [raiseFault, SameHandle])
  | read g hi => exact .read g hi rfl
  | stored _ _ _ hs => exact settled_of_answer 0 hs.1 rfl
  | got _ hs => exact settled_of_answer _ hs.1 rfl
  | flag _ hs => exact settled_of_answer 0 hs.1 rfl
  | noop hs => exact settled_of_answer 0 hs.1 rfl
  | ran r hs hi => exact settled_of_ran hs (Ends.ran_ran hi)
  | bitbang count pd pc hs _ hi => exact settled_of_construct (hz := s.clockHz) _ hs (by tauto) fun _ => rfl
  | bus count hz hs hi =>
    exact settled_of_construct (pd := s.pinData) (pc := s.pinClock) _ hs (by tauto) fun _ => rfl
  | release b hs hi => exact settled_of_release b hs (by cases b <;> simp_all)

end Sys2Proof.Machine
end

