-- ==== Sys2Proof/Tests/Slice0.lean ====
section
/-! SUPPORT. The model's own tests: ill-formed commands refused, words written out from the spec's encodings, one step on a
small state from the spec's vectors (95_test_vectors.md), and for every obligation with hypotheses a state that meets them. -/

namespace Sys2Proof.Tests

open Sys2Proof.Machine

set_option Elab.async false

/-! ## States -/

/-- A machine with `CAP = 4` and the suggested default pins 23 and 24. -/
def small : Params := ⟨4, 1000, 23, 24, 0, 0, 0⟩

/-- `k` calls that return Ok. -/
def oks (k : Nat) : List Draw := List.replicate k ⟨.ok, 0⟩

/-- `k` calls that return Ok, then one that comes to `r`, then one that fails in each way. -/
def then1 (k : Nat) (r : DrawResult) : List Draw := oks k ++ [⟨r, 0⟩, ⟨.ioError, 1⟩, ⟨.deviceError, 1⟩]

/-- An active handle of one pixel on bit-bang, pins 10 and 11. -/
def bitbang1 (draws : List Draw) : State :=
  { State.reset with
    life := .active, params := small, n := 1, L := 5, cor := true, pinData := 10, pinClock := 11, draws := draws }

/-- An active handle of one pixel on the bus, holding the first `idx` of the bytes 1, 2, 3, 4. -/
def bus1 (idx : Nat) (draws : List Draw) : State :=
  { State.reset with
    life := .active, backend := .bus, params := small, n := 1, L := 5, cor := true, draws := draws
    buf := ([(0, 1), (1, 2), (2, 3), (3, 4)] : Memory).take idx, idx := idx }

/-- The reset state of the small machine. -/
def reset1 (draws : List Draw) : State := { State.reset with params := small, draws := draws }

/-- An active handle of 8 pixels. -/
def eight : State := { bus1 0 [] with n := 8 }

/-- The host presents these words. -/
def presents (ws : List Word) (s : State) : State := { s with cmds := ws }

/-- What holds of the next state. -/
def after (o : Host.Outcome State Fault Refusal) (p : State → Bool) : Bool :=
  match o with
  | .next s => p s
  | .fault _ => false
  | .refused _ => false

/-- The last response. -/
def responds (st : Status) (data : Word) (s : State) : Bool := s.trace.getLast? == some (.response st data)

/-- The calls in the trace. -/
def callsOf (s : State) : List Call :=
  s.trace.filterMap fun e => match e with
    | .call c _ => some c
    | .response _ _ => none

/-! ## Well-formed commands (30_encoding.md R79) -/

theorem test_wf_initbb : (Instr.initbb (2 ^ 24) 1 2).wellFormed = false := by decide
theorem test_wf_initbus : (Instr.initbus (2 ^ 24) 0).wellFormed = false := by decide
theorem test_wf_setrgb : (Instr.setrgb (2 ^ 24) 0 0 0).wellFormed = false := by decide
theorem test_wf_setbri : (Instr.setbri (2 ^ 24) 0).wellFormed = false := by decide
theorem test_wf_setrgbb : (Instr.setrgbb (2 ^ 24) 0 0 0 0).wellFormed = false := by decide
theorem test_wf_getpix : (Instr.getpix (2 ^ 24)).wellFormed = false := by decide
theorem test_wf_largest : (Instr.getpix 0xFFFFFF).wellFormed = true := by decide

/-! ## Decoding: every constructor, from words written out by R70 to R74 -/

theorem test_decode_initdef : decode [0x01000000] = .command .initdef [] := by decide
theorem test_decode_initbb : decode [0x02000008, 0x00001718] = .command (.initbb 8 23 24) [] := by decide
theorem test_decode_initbus : decode [0x03000003, 0x007A1200] = .command (.initbus 3 8000000) [] := by decide
theorem test_decode_setrgb : decode [0x10000100, 0x00123456, 7] = .command (.setrgb 256 0x12 0x34 0x56) [7] := by decide
theorem test_decode_setbri : decode [0x11000002, 0xFFFFFFFF] = .command (.setbri 2 0xFFFFFFFF) [] := by decide
theorem test_decode_setrgbb :
    decode [0x12FFFFFF, 0x00FFFFFF, 0x7FC00000] = .command (.setrgbb 0xFFFFFF 255 255 255 0x7FC00000) [] := by decide
theorem test_decode_getpix : decode [0x13123456] = .command (.getpix 0x123456) [] := by decide
theorem test_decode_render : decode [0x20000000] = .command .render [] := by decide
theorem test_decode_txwr : decode [0x210000A5] = .command (.txwr 0xA5) [] := by decide
theorem test_decode_flush : decode [0x22000000] = .command .flush [] := by decide
theorem test_decode_setcor : decode [0x30000001] = .command (.setcor true) [] := by decide
theorem test_decode_rdreg : decode [0x31000006] = .command (.rdreg .fault) [] := by decide
theorem test_decode_release : decode [0x3E000000] = .command .release [] := by decide
theorem test_decode_drop : decode [0x3F000000] = .command .drop [] := by decide

/-- Vectors V-E4 to V-E12: what spells no command, and the words taken. -/
theorem test_decode_illegal :
    decode [0x00000000, 1] = .unassignedOpcode [1] ∧ decode [0x40123456, 1] = .unassignedOpcode [1] ∧
    decode [0x01000001] = .reservedHeaderBits [] ∧ decode [0x20000100] = .reservedHeaderBits [] ∧
    decode [0x210001A5] = .reservedHeaderBits [] ∧ decode [0x30000002] = .reservedHeaderBits [] ∧
    decode [0x31000008] = .reservedHeaderBits [] ∧ decode [0x10000000, 0x01000000, 1] = .reservedOperandBits [1] ∧
    decode [0x02000008, 0x00011718, 1] = .reservedOperandBits [1] := by decide

theorem test_tableWord_setrgbb : decodeTableWord 96 (0x3F800000 * 2 ^ 64 + 0x00FF0000 * 2 ^ 32 + 0x12000001) =
    some (.setrgbb 1 255 0 0 0x3F800000) := by decide

/-! ## The assembler (R79): lines it refuses, and the other spellings -/

theorem test_assemble_refuses :
    assembleWords "GETPIX 0x1000000" = none ∧ assembleWords "TXWR 256" = none ∧ assembleWords "SETCOR 2" = none ∧
    assembleWords "RDREG 8" = none ∧ assembleWords "INITBB 1, 2" = none ∧ assembleWords "TXWR A" = none ∧
    assembleWords "TXWR 0x" = none := by decide

theorem test_assemble_spellings :
    assembleWords "  RDREG 7 ; TXCAP" = some [0x31000007] ∧ assembleWords "SETBRI 1, f32:0x7FC00001" = some [0x11000001, 0x7FC00001] ∧
    assembleWords "CLEAR 2" = some [0x10000000, 0, 0x10000001, 0] ∧ assembleWords "SHOW" = some [0x20000000] ∧
    assembleWords "TXWR 0xa5" = some [0x210000A5] ∧
    assembleWords "SETALL 1, 1, 2, 3, -5.0" = some [0x12000000, 0x00010203, 0xC0A00000] := by decide

/-! ## One step a test (95_test_vectors.md) -/

/-- V-P1: `E7 56 34 12`. -/
theorem test_setrgb : after (exec (.setrgb 0 0x12 0x34 0x56) eight) (fun s => pixWord s.pix 0 == 0xE7563412#32) := by
  decide +kernel

/-- V-L12: the lifecycle check comes before the range check. -/
theorem test_setrgb_released :
    after (exec (.setrgb 100 1 2 3) { eight with life := .released }) (responds (.fault .afterRelease) 0) := by decide +kernel

/-- V-E14: a NaN level gives `E0`. -/
theorem test_setbri_nan : after (exec (.setbri 2 0xFFFFFFFF) eight) (fun s => pixWord s.pix 2 == 0xE0000000#32) := by
  decide +kernel

/-- V-P8: 0.5 gives `EF`. -/
theorem test_setrgbb : after (exec (.setrgbb 1 0 255 0 0x3F000000) eight) (fun s => pixWord s.pix 1 == 0xEF00FF00#32) := by
  decide +kernel

/-- The tie of 40_pixel_encoder.md R86 rounds up to 1.0, the value below it does not. -/
theorem test_brightness_tie : encodeBrightness 0x3D042108 = 0xE1#8 ∧ encodeBrightness 0x3D042107 = 0xE0#8 := by
  decide +kernel

theorem test_getpix_default : after (exec (.getpix 7) eight) (responds .ok 0xE7000000) := by decide +kernel

/-- V-P6. -/
theorem test_getpix_range : after (exec (.getpix 8) eight) (responds (.fault .indexRange) 0) := by decide +kernel

/-- 13 bytes through a buffer of 4: three full transmissions, then the last byte. -/
theorem test_render_bus : after (exec .render (bus1 0 (oks 4))) (fun s => callsOf s ==
    [.busWrite [0, 0, 0, 0], .busWrite [0xE7, 0, 0, 0], .busWrite [0, 0, 0, 0], .busWrite [0]]) := by decide +kernel

/-- V-X9: the first `GPIO.write` fails; no fault. -/
theorem test_render_error : after (exec .render (bitbang1 (then1 0 .deviceError)))
    (fun s => callsOf s == [.gpioWrite 10 false] && responds (.error .peripheralError) 0 s && s.fault == none) := by
  decide +kernel

/-- V-T2: call 8 fails, and eight calls are made; bits 1 and 0 are received, and bit 5 "with or without its rising edge". -/
theorem test_txwr_bitbang : ∀ effect ∈ [0, 1], after (exec (.txwr 0xA5) (bitbang1 (oks 7 ++ [⟨.ioError, effect⟩])))
    (fun s => callsOf s == [.gpioWrite 10 true, .gpioWrite 11 true, .gpioWrite 11 false, .gpioWrite 10 false,
      .gpioWrite 11 true, .gpioWrite 11 false, .gpioWrite 10 true, .gpioWrite 11 true] &&
      responds (.error .ioError) 0 s &&
      bitsFrom 10 11 0 false s.trace == if effect = 0 then [true, false] else [true, false, true]) := by decide +kernel

/-- V-T5. -/
theorem test_txwr_fills : after (exec (.txwr 4) (bus1 3 (oks 1)))
    (fun s => callsOf s == [.busWrite [1, 2, 3, 4]] && s.idx == 0) := by decide +kernel

/-- V-T7: after a failed flush the bytes stay. -/
theorem test_flush_error : after (exec .flush (bus1 3 (then1 0 .ioError)))
    (fun s => callsOf s == [.busWrite [1, 2, 3]] && s.idx == 3 && responds (.error .ioError) 0 s) := by decide +kernel

theorem test_setcor : after (exec (.setcor false) eight) (fun s => s.cor == false && responds .ok 0 s) := by decide +kernel

/-- V-X1: RDREG runs while a fault is recorded. -/
theorem test_rdreg_halted :
    after (exec (.rdreg .fault) { eight with fault := some .indexRange, status := .fault .indexRange })
      (fun s => responds .ok 0x85 s && s.status == .fault .indexRange) := by decide +kernel

/-- LIFE of a released bus handle is 0x32. -/
theorem test_rdreg_life : after (exec (.rdreg .life) { eight with life := .released, txReleased := true }) (responds .ok 0x32) := by
  decide +kernel

/-- V-L1. -/
theorem test_initbus : after (exec (.initbus 3 8000000) (reset1 (oks 1))) (fun s =>
    callsOf s == [.busOpen 0 0 8000000 0] && s.life == .active && s.n == 3 && s.L == 5 && s.cor && s.backend == .bus) := by
  decide +kernel

/-- V-L3. -/
theorem test_initbb_error : after (exec (.initbb 4 5 6) (reset1 (then1 2 .deviceError))) (fun s =>
    callsOf s == [.gpioAcquire 5, .gpioSetOutput 5, .gpioAcquire 6, .gpioRelease 5] &&
      responds (.error .peripheralError) 0 s && s.life == .unconfigured) := by decide +kernel

/-- V-L4. -/
theorem test_initbb_pins : after (exec (.initbb 4 5 5) (reset1 [])) (responds (.fault .badConfig) 0) := by decide +kernel

/-- P7. -/
theorem test_initdef : after (exec .initdef (reset1 (oks 4))) (fun s =>
    callsOf s == [.gpioAcquire 23, .gpioSetOutput 23, .gpioAcquire 24, .gpioSetOutput 24] && s.n == 8 && s.L == 5) := by
  decide +kernel

/-- V-L8: RELEASE reports the error, and the handle is released. -/
theorem test_release_error :
    after (exec .release { bus1 0 (then1 0 .deviceError) with params := { small with cap := 4096 } }) (fun s =>
      callsOf s == [.busWrite [0, 0, 0, 0, 0xE7, 0, 0, 0, 0, 0, 0, 0, 0]] && responds (.error .busError) 0 s &&
        s.life == .released && s.idx == 0) := by decide +kernel

/-- V-L7: DROP of the same reports OK. -/
theorem test_drop_error :
    after (exec .drop { bus1 0 (then1 0 .deviceError) with params := { small with cap := 4096 } }) (fun s =>
      responds .ok 0 s && s.life == .released && s.idx == 0) := by decide +kernel

/-- V-L17. -/
theorem test_release_full : after (exec .release (bus1 4 [])) (fun s =>
    responds (.fault .bufferFull) 0 s && s.life == .active && callsOf s == []) := by decide +kernel

/-- A step from reset runs the command placed for it. -/
theorem test_step_withFetchWord :
    after (step (State.reset.withFetchWord 32 0x31000000)) (fun s => responds .ok 0 s && s.cmds == []) := by decide +kernel

/-! ## Witnesses: a state that meets the hypotheses of each obligation, and of each of its clauses -/

/-- With enough Ok answers settled, the coming calls return Ok. -/
theorem answersOk_oks {s : State} {k m : Nat} {rest : List Draw} (h : s.draws = oks m ++ rest) (hk : k ≤ m) :
    s.AnswersOk k := fun j hj => by
  simp [State.drawAt, h, oks, List.getElem?_append, show j < m by omega]

/-- The calls of `then1 k r` all return, unless `r` does not. -/
theorem answersReturn_then1 {s : State} {k m : Nat} {r : DrawResult} (h : s.draws = then1 k r) (hr : r ≠ .noReturn)
    (hm : m ≤ k + 3) : s.AnswersReturn m := fun j hj => by
  have hall : ∀ d ∈ then1 k r, d.result ≠ .noReturn := by
    intro d hd
    simp only [then1, oks, List.mem_append, List.mem_replicate, List.mem_cons, List.not_mem_nil, or_false] at hd
    rcases hd with ⟨-, rfl⟩ | rfl | rfl | rfl <;> simp [hr]
  have hlt : j < (then1 k r).length := by simp [then1, oks]; omega
  simp only [State.drawAt, h, List.getElem?_eq_getElem hlt, Option.getD_some]
  exact hall _ (List.getElem_mem _)

/-- The small handles are ready; each is halted, unconfigured or released by changing one field. -/
theorem witness_ready : (bitbang1 []).Ready ∧ (bus1 0 []).Ready ∧ eight.Ready := by decide

theorem witness_checks :
    ({ eight with fault := some .noHandle } : State).fault ≠ none ∧
    (eight.fault = none ∧ ({ eight with life := .unconfigured } : State).life = .unconfigured) ∧
    (eight.fault = none ∧ ({ eight with life := .released } : State).life = .released) ∧
    (eight.fault = none ∧ eight.life = .active ∧ eight.n ≤ 8) ∧ (eight.Ready ∧ 7 < eight.n) ∧ (eight.Ready ∧ 0 < eight.n) := by
  decide

theorem witness_DecodeOfEncodeIsTheCommand :
    (Instr.setrgbb 0xFFFFFF 255 0 1 0xFFFFFFFF).wellFormed = true ∧ (Instr.getpix 0).wellFormed = true := by decide

theorem witness_EncodeOfDecodeIsTheWords : decode [0x13FFFFFF, 5] = .command (.getpix 0xFFFFFF) [5] := by decide

theorem witness_HeaderSelectsItsRow :
    (∃ row ∈ opcodeMap, (0x12FFFFFF : Word) &&& row.2.2.2 = row.2.2.1 ∧ [0#32].length < row.2.1) ∧
    (∃ row ∈ opcodeMap, (0x12FFFFFF : Word) &&& row.2.2.2 = row.2.2.1 ∧ row.2.1 ≤ [0x01000000#32, 0].length) ∧
    (∀ row ∈ opcodeMap, (0x20000100 : Word) &&& row.2.2.2 ≠ row.2.2.1) ∧
    (∀ row ∈ opcodeMap, opcodeOf 0x00FFFFFF ≠ row.1) := by decide

theorem witness_ReservedBitsAreIllegal :
    eight.hung = false ∧ eight.fault = none ∧
    (∃ row ∈ opcodeMap, opcodeOf 0x31000008 = row.1 ∧ (0x31000008 : Word) &&& row.2.2.2 ≠ row.2.2.1) ∧
    (opcodeOf 0x10000000 = 0x10#8 ∧ (0x01000000 : Word).extractLsb' 24 8 ≠ 0#8) ∧
    (opcodeOf 0x02000008 = 0x02#8 ∧ (0x00010000 : Word).extractLsb' 16 16 ≠ 0#16) ∧
    (opcodeOf 0x12000000 = 0x12#8 ∧ (0x80000000 : Word).extractLsb' 24 8 ≠ 0#8) := by decide

theorem witness_UnassignedOpcodesAreIllegal :
    ∀ op ∈ [0x00#8, 0x04#8, 0x0F#8, 0x14#8, 0x1F#8, 0x23#8, 0x2F#8, 0x32#8, 0x3D#8, 0x40#8, 0xFF#8],
      op = 0x00 ∨ (0x04 ≤ op ∧ op ≤ 0x0F) ∨ (0x14 ≤ op ∧ op ≤ 0x1F) ∨ (0x23 ≤ op ∧ op ≤ 0x2F) ∨
        (0x32 ≤ op ∧ op ≤ 0x3D) ∨ 0x40 ≤ op := by decide

theorem witness_ClearExpansionClearsColours :
    let s := presents ((clearExpansion 8).flatMap encode) eight
    s.Ready ∧ s.hung = false ∧ s.n < 2 ^ 24 ∧ s.status = .ok ∧ s.cmds = (clearExpansion s.n).flatMap encode := by decide

theorem witness_StepRunsDecodedCommand :
    (presents [0x3F000000] eight).hung = false ∧ decode (presents [0x3F000000] eight).cmds = .command .drop [] := by decide

theorem witness_IdleBlockKeepsState : eight.hung = false ∧ eight.cmds = [] ∧ ([7] : List Word).length < operandWords (opcodeOf 0x12000000) := by
  decide

theorem witness_HungBlockHasNoStep : ({ eight with hung := true } : State).hung = true := rfl

theorem witness_HaltedBlockRefusesCommands :
    let s := presents [0x31000010] { eight with fault := some .indexRange }
    s.hung = false ∧ s.fault ≠ none ∧ operandWords (opcodeOf 0x31000010) ≤ ([] : List Word).length ∧
      decode s.cmds = .reservedHeaderBits [] := by decide

theorem witness_RecordedFaultIsSticky :
    after (step (presents [0] eight)) (fun t => t.fault == some .illegalCommand) ∧ eight.fault = none ∧
    after (step (presents [0] { eight with fault := some .noHandle })) (fun t => t.fault == some .noHandle) := by
  decide +kernel

theorem witness_OnlyConstructionAndReleaseChangeLife :
    after (step (presents [0x03000003, 1] (reset1 (oks 1)))) (fun t => t.life == .active && t.n == 3) ∧
    after (step (presents [0x3E000000] { eight with cor := false })) (fun t => t.life == .released) := by decide +kernel

/-- The first of these changes the handle's fixed fields. -/
theorem witness_HandleIsFixedForItsLifetime :
    after (step (presents [0x03000003, 1] (reset1 (oks 1)))) (fun t => t.n != (reset1 (oks 1)).n) := by decide +kernel

theorem witness_OneResponsePerCommand :
    decode [0x22000000] ≠ .incomplete ∧
    after (step (presents [0x22000000] (bus1 3 (oks 1)))) (fun t => t.hung == false) ∧
    after (step (presents [0x22000000] (bus1 3 (then1 0 .noReturn)))) (fun t => t.hung) := by decide +kernel

theorem witness_HandleReachesOnlyItsCollaborator :
    (bitbang1 []).life = .active ∧ (bitbang1 []).backend = .bitbang ∧
    after (exec .release (bitbang1 (then1 0 .ioError))) (fun t => t.trace.length == 4) ∧
    (bus1 3 []).backend = .bus ∧ after (exec .flush (bus1 3 (oks 1))) (fun t => t.trace.length == 2) := by decide +kernel

theorem witness_PixelRoundTrip :
    eight.Ready ∧ 7 < eight.n ∧ (∀ i ∈ [Instr.setrgb 6 1 2 3, .txwr 5, .setcor false], keepsPixel 7 i = true) ∧
    after (exec (.setrgbb 7 1 2 3 0x3E800000) { eight with draws := oks 2 }) (fun t =>
      after (execAll [.setrgb 6 1 2 3, .txwr 5, .setcor false] t) fun u => u.fault == none && u.life == .active) := by
  decide +kernel

theorem witness_BrightnessCodeIsLargestThreshold :
    isNaN 0x00000000 = false ∧ isNaN 0x7F800000 = false ∧ isNaN 0xFF800000 = false ∧
    briCode 0x3D042108 = 1 ∧ briThresholds[1]? = some 0x3D042108 ∧ 0x3D042108 ≤ clampedPattern 0x3D042108 := by decide +kernel

theorem witness_BrightnessOutsideUnitInterval :
    ((0x7F800001 : Word).extractLsb' 23 8 = 0xFF#8 ∧ (0x7F800001 : Word).extractLsb' 0 23 ≠ 0#23) ∧
    (¬ ((0x80000000 : Word).extractLsb' 23 8 = 0xFF#8 ∧ (0x80000000 : Word).extractLsb' 0 23 ≠ 0#23) ∧
      (0x80000000 : Word).getLsbD 31 = true) ∧
    (¬ ((0x3F800001 : Word).extractLsb' 23 8 = 0xFF#8 ∧ (0x3F800001 : Word).extractLsb' 0 23 ≠ 0#23) ∧
      (0x3F800001 : Word).getLsbD 31 = false ∧ 0x3F800000 < (0x3F800001 : Word).toNat) := by decide

/-- A tie: `2^24 + 1` lies between `2^24` and `2^24 + 2`. -/
theorem witness_ProductRoundsToNearestEven :
    F32Representable (2 ^ 24 + 2) ∧ 2 ^ 24 + 2 ≠ roundF32 (2 ^ 24 + 1) ∧ roundF32 (2 ^ 24 + 1) = 2 ^ 24 :=
  ⟨⟨2 ^ 23 + 1, 1, by decide, by decide⟩, by decide +kernel, by decide +kernel⟩

theorem witness_CanonicalPixelStoreIsItsContent :
    pixWf [(0, 0xFF), (5, 0x01)] ∧ ∀ a, pixRead [(0, 0xFF), (5, 0x01)] a = pixRead [(0, 0xFF), (5, 0x01)] a :=
  ⟨by decide, fun _ => rfl⟩

theorem witness_BitbangTxwrMakesTheBitCalls :
    (bitbang1 (oks 24 ++ [])).Ready ∧ (bitbang1 (oks 24 ++ [])).backend = .bitbang ∧ (bitbang1 (oks 24 ++ [])).AnswersOk 24 :=
  ⟨by decide, rfl, answersOk_oks rfl le_rfl⟩

theorem witness_BitbangBytesReachTheWire :
    (bitbang1 (oks 24 ++ [])).pinData ≠ (bitbang1 (oks 24 ++ [])).pinClock ∧
    (bitbang1 (oks 24 ++ [])).AnswersOk (24 * [0xA5#8].length) ∧ [0xA5#8].getLast? = some 0xA5#8 :=
  ⟨by decide, answersOk_oks rfl (by decide), rfl⟩

/-- For a bit-bang command whose calls number `k + 1` or more: the first that fails is the `k`-th, in each way. -/
theorem witness_bitbang_fails (k : Nat) (r : DrawResult) :
    (bitbang1 (then1 k r)).Ready ∧ (bitbang1 (then1 k r)).backend = .bitbang ∧ (bitbang1 (then1 k r)).AnswersOk k ∧
    ((bitbang1 (then1 k r)).drawAt k).result = r :=
  ⟨⟨rfl, rfl⟩, rfl, answersOk_oks rfl le_rfl, by simp [State.drawAt, bitbang1, then1, oks]⟩

theorem witness_BitbangTxwrStopsAtTheFirstError :
    (bitbang1 (then1 0 .deviceError)).AnswersOk 0 ∧ (bitbang1 (then1 23 .noReturn)).AnswersOk 23 ∧ 23 < 24 ∧
    ((bitbang1 (then1 0 .deviceError)).drawAt 0).result = .deviceError ∧
    ((bitbang1 (then1 23 .ioError)).drawAt 23).result = .ioError ∧
    ((bitbang1 (then1 23 .noReturn)).drawAt 23).result = .noReturn :=
  ⟨(witness_bitbang_fails 0 _).2.2.1, (witness_bitbang_fails 23 _).2.2.1, by decide, (witness_bitbang_fails 0 _).2.2.2,
    (witness_bitbang_fails 23 _).2.2.2, (witness_bitbang_fails 23 _).2.2.2⟩

theorem witness_BitbangFlushMakesNoCall : (bitbang1 []).Ready ∧ (bitbang1 []).backend = .bitbang := by decide

/-- A bus command whose first call comes to `r`, at each fill of the buffer. -/
theorem witness_bus (idx : Nat) (r : DrawResult) :
    (bus1 idx (then1 0 r)).Ready ∧ (bus1 idx (then1 0 r)).backend = .bus ∧ ((bus1 idx (then1 0 r)).drawAt 0).result = r ∧
    (bus1 idx (then1 0 r)).idx = idx := ⟨⟨rfl, rfl⟩, rfl, rfl, rfl⟩

theorem witness_BusTxwrAppendsAndSendsFullBuffer :
    (bus1 0 []).idx + 1 < (bus1 0 []).params.cap ∧ (bus1 2 []).idx + 1 < (bus1 2 []).params.cap ∧
    (bus1 3 []).idx + 1 = (bus1 3 []).params.cap ∧ (bus1 4 []).idx = (bus1 4 []).params.cap := by decide

theorem witness_BusFlushSendsWhatIsHeld : (bus1 0 []).idx = 0 ∧ (bus1 1 []).idx ≠ 0 ∧ (bus1 4 []).idx ≠ 0 := by decide

/-- Three bytes held and `CAP = 4`: one byte more ends with nothing held, two end with one, and the flush's call is Ok. -/
theorem witness_BusWriteChunkCounts :
    let s := bus1 3 (oks 2 ++ [])
    s.idx < s.params.cap ∧ s.AnswersOk ((s.idx + [9#8].length) / s.params.cap) ∧
      s.AnswersOk ((s.idx + [9#8, 8].length) / s.params.cap) ∧ (s.idx + [9#8].length) % s.params.cap = 0 ∧
      (s.idx + [9#8, 8].length) % s.params.cap ≠ 0 ∧
      (s.drawAt ((s.idx + [9#8, 8].length) / s.params.cap)).result = .ok :=
  ⟨by decide, answersOk_oks rfl (by decide), answersOk_oks rfl (by decide), by decide, by decide, by decide⟩

theorem witness_BusLosesAndReordersNothing :
    (bus1 3 []).Ready ∧ (bus1 3 []).backend = .bus ∧
    after (exec .render (bus1 3 (oks 4))) (responds .ok 0) ∧ after (exec .flush (bus1 3 (oks 1))) (responds .ok 0) ∧
    after (exec (.txwr 9) (bus1 3 (oks 1))) (responds .ok 0) := by decide +kernel

/-- An active bus handle that holds three bytes meets the invariant. -/
theorem inv_bus1 (draws : List Draw) : (bus1 3 draws).Inv where
  params_valid := (by decide : small.Valid)
  pix_wf := (by decide : pixWf [])
  pix_inside := by simp [bus1, State.reset]
  marker := (by decide : ∀ i < 1, (pixRead [] (4 * i)).extractLsb' 5 3 = 0b111#3)
  buf_rising := (by decide : Memory.Rising [(0, 1), (1, 2), (2, 3)])
  buf_inside := (by decide : ∀ c ∈ [(0, 1#8), (1, 2), (2, 3)], c.1 < 4)
  buf_held := (by decide : ∀ j < 3, (Memory.stored [(0, 1), (1, 2), (2, 3)] j).isSome)
  idx_le := (by decide : 3 ≤ 4)
  idx_bitbang := by simp [bus1]
  unconfigured := by simp [bus1]
  configured := fun _ => (by decide : 1 ≤ 1 ∧ 1 ≤ 1000 ∧ 5 = endFrameLen 1)
  pins_distinct := by simp [bus1]
  active_transport := fun _ _ => rfl
  released_transport := by simp [bus1]
  seq_legal := trivial
  seq_idle := fun _ => rfl
  fault_is_status := by simp [bus1, State.reset]
  status_not_halted := by simp [bus1, State.reset]
  hung_last := by simp [bus1, State.reset]
  draw_count := rfl

theorem inv_presents {s : State} (h : s.Inv) (ws : List Word) : (presents ws s).Inv := { h with }

/-- For `BusWritesCarryOneToCapBytes`, `StepKeepsInvariant` and `PowerOnResetValues`. -/
theorem witness_StepKeepsInvariant :
    (presents [0x22000000] (bus1 3 (oks 1))).Inv ∧
    after (step (presents [0x22000000] (bus1 3 (oks 1)))) (fun t => callsOf t == [.busWrite [1, 2, 3]]) :=
  ⟨inv_presents (inv_bus1 _) _, by decide +kernel⟩

theorem witness_BufferBeyondIndexIsUnobservable :
    ∀ j < (bus1 2 []).idx, bufRead [(0, 1), (1, 2), (2, 77)] j = bufRead (bus1 2 []).buf j := by decide

theorem witness_EffectOfFailedCallIsInvisible :
    ([⟨.ioError, 0⟩, ⟨.ok, 0⟩] : List Draw).map (·.result) = ([⟨.ioError, 3⟩, ⟨.ok, 1⟩] : List Draw).map (·.result) := by
  decide

theorem witness_EndFrameLengths :
    (1 ≤ 1 ∧ 1 ≤ 2 ^ 24 - 1) ∧ (1 ≤ 2 ^ 24 - 1 ∧ 2 ^ 24 - 1 ≤ 2 ^ 24 - 1) ∧ (bus1 3 []).Inv ∧ (bus1 3 []).life ≠ .unconfigured :=
  ⟨by decide, by decide, inv_bus1 _, by decide⟩

theorem witness_FrameLayout : eight.n = 8 ∧ ({ eight with L := 5 } : State).L = endFrameLen eight.n ∧ 3 < 4 ∧ 7 < eight.n ∧ 4 < 5 := by
  decide

theorem witness_BitbangRenderSendsTheFrame :
    (bitbang1 (oks 312 ++ [])).Ready ∧ (bitbang1 (oks 312 ++ [])).backend = .bitbang ∧
    (bitbang1 (oks 312 ++ [])).AnswersOk (24 * (4 + 4 * (bitbang1 (oks 312 ++ [])).n + (bitbang1 (oks 312 ++ [])).L)) :=
  ⟨⟨rfl, rfl⟩, rfl, answersOk_oks rfl (by decide)⟩

theorem witness_BitbangRenderStopsAtTheFirstError :
    311 < 24 * (4 + 4 * (bitbang1 []).n + (bitbang1 []).L) ∧ (bitbang1 (then1 311 .noReturn)).AnswersOk 311 ∧
    (bitbang1 (then1 0 .ioError)).AnswersOk 0 ∧ ((bitbang1 (then1 311 .noReturn)).drawAt 311).result = .noReturn ∧
    ((bitbang1 (then1 0 .ioError)).drawAt 0).result = .ioError ∧
    ((bitbang1 (then1 311 .deviceError)).drawAt 311).result = .deviceError :=
  ⟨by decide, (witness_bitbang_fails 311 _).2.2.1, (witness_bitbang_fails 0 _).2.2.1, (witness_bitbang_fails 311 _).2.2.2,
    (witness_bitbang_fails 0 _).2.2.2, (witness_bitbang_fails 311 _).2.2.2⟩

theorem witness_BusRenderSendsTheFrame :
    (bus1 3 (oks 4 ++ [])).Ready ∧ (bus1 3 (oks 4 ++ [])).idx < (bus1 3 (oks 4 ++ [])).params.cap ∧
    (bus1 3 (oks 4 ++ [])).AnswersOk
      (busCallsOf (bus1 3 (oks 4 ++ [])).params.cap (heldBytes (bus1 3 (oks 4 ++ [])) ++ (bus1 3 (oks 4 ++ [])).frameBytes)).length ∧
    ({ bus1 0 (oks 1) with params := { small with cap := 13 } } : State).idx = 0 ∧
    4 + 4 * (bus1 0 []).n + (bus1 0 []).L ≤ 13 :=
  ⟨by decide, by decide, answersOk_oks rfl (by decide +kernel), rfl, by decide⟩

/-- Holding two bytes, a render of 13 makes three full transmissions and a flush of three bytes: each can be the first that
is not Ok, in each way. -/
theorem witness_BusRenderReportsTheError (k : Nat) (hk : k < 4) (r : DrawResult) :
    let s := bus1 2 (then1 k r)
    s.Ready ∧ s.backend = .bus ∧ s.idx < s.params.cap ∧
      k < (busCallsOf s.params.cap (heldBytes s ++ s.frameBytes)).length ∧
      (2 + (4 + 4 * s.n + s.L)) / s.params.cap = 3 ∧ s.AnswersOk k ∧ (s.drawAt k).result = r ∧
      (bus1 4 []).idx = (bus1 4 []).params.cap :=
  have h : (busCallsOf 4 (heldBytes (bus1 2 []) ++ (bus1 2 []).frameBytes)).length = 4 := by decide +kernel
  ⟨⟨rfl, rfl⟩, rfl, (by decide : 2 < 4), Nat.lt_of_lt_of_eq hk h.symm,
    (by decide : (2 + (4 + 4 * 1 + 5)) / 4 = 3), answersOk_oks rfl le_rfl, by simp [State.drawAt, bus1, then1, oks], rfl⟩

theorem witness_InitbbBuildsTheHandle :
    ({ eight with fault := some .noHandle } : State).fault ≠ none ∧ eight.life = .active ∧
    ((reset1 []).life ≠ .active ∧ (reset1 []).params.numPixelsMax < 1001) ∧
    (reset1 (oks 4 ++ [])).Constructible 1 ∧ (reset1 (oks 4 ++ [])).Constructible 1000 ∧ (5 : Byte) ≠ 6 ∧
    (reset1 (oks 4 ++ [])).AnswersOk 4 :=
  ⟨by decide, by decide, by decide, by decide, by decide, by decide, answersOk_oks rfl le_rfl⟩

theorem witness_InitbbFailureReleasesThePins (k : Nat) (hk : k < 4) :
    (reset1 (then1 k .deviceError)).Constructible 1 ∧ (reset1 (then1 k .deviceError)).AnswersOk k ∧
    ((reset1 (then1 k .deviceError)).drawAt k).result = .deviceError ∧
    ∀ j < ((([[], [5], [5], [5, 6]] : List (List Byte))[k]?).getD []).length,
      ((reset1 (then1 k .deviceError)).drawAt (k + 1 + j)).result ≠ .noReturn := by
  refine ⟨⟨rfl, by simp [reset1, State.reset], le_rfl, (by decide : 1 ≤ 1000)⟩, answersOk_oks rfl le_rfl, ?_, ?_⟩
  · simp [State.drawAt, reset1, then1, oks]
  · interval_cases k <;> decide

theorem witness_InitdefIsInitbbOfTheDefaults :
    (reset1 (oks 4 ++ [])).Constructible 8 ∧
    (reset1 (oks 4 ++ [])).params.defaultPinData ≠ (reset1 (oks 4 ++ [])).params.defaultPinClock ∧
    (reset1 (oks 4 ++ [])).AnswersOk 4 := ⟨by decide, by decide, answersOk_oks rfl le_rfl⟩

theorem witness_InitbusOpensTheBus (r : DrawResult) :
    (reset1 (then1 0 r)).Constructible 3 ∧ ((reset1 (then1 0 r)).drawAt 0).result = r :=
  ⟨⟨rfl, by simp [reset1, State.reset], by decide, (by decide : 3 ≤ 1000)⟩, rfl⟩

theorem witness_RdregReadsTheRegisterView :
    eight.n < 2 ^ 24 ∧ eight.L < 2 ^ 21 ∧ eight.idx < 2 ^ 32 ∧ eight.params.cap < 2 ^ 32 := by decide

theorem witness_BitbangReleaseBlanksAndReleasesPins :
    let s := bitbang1 (then1 312 .deviceError)
    s.Ready ∧ s.backend = .bitbang ∧ s.cor = true ∧ s.txReleased = false ∧ s.AnswersOk (24 * (4 + 4 * s.n + s.L)) ∧
      s.AnswersReturn (24 * (4 + 4 * s.n + s.L) + 2) :=
  ⟨⟨rfl, rfl⟩, rfl, rfl, rfl, answersOk_oks rfl (by decide),
    answersReturn_then1 rfl (by simp) (by decide)⟩

theorem witness_BusReleaseBlanksAndDrains :
    let s := bus1 3 (oks 4 ++ [])
    s.Ready ∧ s.backend = .bus ∧ s.cor = true ∧ s.idx < s.params.cap ∧
      s.AnswersOk (busCallsOf s.params.cap (heldBytes s ++ s.clearedFrameBytes)).length :=
  ⟨⟨rfl, rfl⟩, rfl, rfl, by decide, answersOk_oks rfl (by decide +kernel)⟩

theorem witness_ReleaseWithoutClearOnlyReleases :
    let s := { bitbang1 (then1 0 .ioError) with cor := false }
    s.Ready ∧ s.cor = false ∧ s.txReleased = false ∧ s.backend = .bitbang ∧ s.AnswersReturn 2 ∧ (bus1 0 []).backend = .bus :=
  ⟨⟨rfl, rfl⟩, rfl, rfl, rfl, answersReturn_then1 rfl (by simp) (by decide), rfl⟩

theorem witness_ReleaseTearsDownAfterRenderError :
    (let s := bitbang1 (then1 311 .ioError);
      s.Ready ∧ s.backend = .bitbang ∧ s.cor = true ∧ s.txReleased = false ∧ 311 < 24 * (4 + 4 * s.n + s.L) ∧
        s.AnswersOk 311 ∧ s.AnswersReturn (311 + 3) ∧ (s.drawAt 311).result = .ioError) ∧
    (let s := bus1 2 (then1 3 .deviceError);
      s.Ready ∧ s.backend = .bus ∧ s.cor = true ∧ s.txReleased = false ∧ s.idx < s.params.cap ∧
        3 < (busCallsOf s.params.cap (heldBytes s ++ s.clearedFrameBytes)).length ∧ s.AnswersOk 3 ∧
        (s.drawAt 3).result = .deviceError) :=
  ⟨⟨⟨rfl, rfl⟩, rfl, rfl, rfl, by decide, answersOk_oks rfl le_rfl,
      answersReturn_then1 rfl (by simp) (by decide), (witness_bitbang_fails 311 _).2.2.2⟩,
    ⟨rfl, rfl⟩, rfl, rfl, rfl, by decide, by decide +kernel, answersOk_oks rfl le_rfl, by decide⟩

theorem witness_BufferFullInReleaseHalts :
    (bus1 4 []).Ready ∧ (bus1 4 []).backend = .bus ∧ (bus1 4 []).cor = true ∧ (bus1 4 []).idx = (bus1 4 []).params.cap := by
  decide

theorem witness_DropNeverSurfacesAnError :
    (bus1 0 (then1 0 .deviceError)).Ready ∧ (bus1 0 (then1 0 .deviceError)).hung = false ∧
    after (exec .drop (bus1 0 (then1 0 .deviceError))) (fun t => t.hung == false && t.fault == none) := by decide +kernel

end Sys2Proof.Tests
end

section
/-! PROOFS. Taking commands (00_scope.md R23, R24): the step of a running and of a hung block, and the one response. -/

namespace Sys2Proof.Machine

/-- Settles O10: `step` looks at `hung` first. -/
theorem hungBlockHasNoStep : Obligations.HungBlockHasNoStep := by
  intro s h
  simp only [step, h]

/-- Settles O8: a running block takes its next command, and the decoder names it. -/
theorem stepRunsDecodedCommand : Obligations.StepRunsDecodedCommand := by
  intro s i rest hrun hdec
  rw [step_of_running hrun, takeCommand, hdec]

/-- The events of calls are calls. -/
theorem isCall_of_mem_callEvents {s : State} {cs : List Call} {e : Event} (h : e ∈ s.callEvents cs) :
    e.isCall = true := by
  simp only [State.callEvents, List.mem_map] at h
  obtain ⟨c, -, rfl⟩ := h
  rfl

/-- What a step that takes a command adds: calls, one draw each, then no response if it hangs and else exactly one, whose
status is the one written; `readsOnly` is what else excuses an unwritten status. -/
def RespondsOnce (readsOnly : Prop) (s t : State) : Prop :=
  ∃ calls, (∀ e ∈ calls, e.isCall = true) ∧ t.drawNo = s.drawNo + calls.length ∧
    ((t.hung = true ∧ t.trace = s.trace ++ calls) ∨
     (t.hung = false ∧ ∃ st data, t.trace = s.trace ++ calls ++ [.response st data] ∧
       (t.status = st ∨ t.status = s.status ∧ calls = [] ∧ (st = .halted ∨ readsOnly))))

/-- A Halted refusal is one response. -/
theorem respondsOnce_halted {s : State} (hrun : s.hung = false) (p : Prop) :
    RespondsOnce p s (respond .halted 0 s) :=
  ⟨[], by simp, by simp, .inr ⟨hrun, .halted, 0, by simp, .inr ⟨rfl, rfl, .inl rfl⟩⟩⟩

/-- However a command settles, it responds once. -/
theorem Settled.respondsOnce {i : Instr} {s t : State} (h : Settled i s t) (hrun : s.hung = false) :
    RespondsOnce (∃ g, i = .rdreg g) s t := by
  cases h with
  | halted _ _ e => exact e ▸ respondsOnce_halted hrun _
  | read g hi e =>
    subst e
    exact ⟨[], by simp, by simp, .inr ⟨hrun, .ok, s.readReg g, by simp, .inr ⟨rfl, rfl, .inr ⟨g, hi⟩⟩⟩⟩
  | answered _ st data cs u htr hno _ hh _ e =>
    subst e
    exact ⟨s.callEvents cs, fun _ => isCall_of_mem_callEvents, by simp [hno],
      .inr ⟨hh.trans hrun, st, data, by simp [htr], .inl rfl⟩⟩
  | faulted _ c cs u htr hno hh e =>
    subst e
    exact ⟨s.callEvents cs, fun _ => isCall_of_mem_callEvents, by simp [hno],
      .inr ⟨hh.trans hrun, .fault c, 0, by simp [htr], .inl rfl⟩⟩
  | hung _ cs htr hno _ _ hh =>
    exact ⟨s.callEvents cs, fun _ => isCall_of_mem_callEvents, by simp [hno], .inl ⟨hh, htr⟩⟩

/-- Words that spell no command get one response, Halted or IllegalCommand. -/
theorem respondsOnce_refuseIllegal {s : State} (hrun : s.hung = false) (p : Prop) :
    RespondsOnce p s (refuseIllegal s) := by
  rcases refuseIllegal_cases s with ⟨-, e⟩ | ⟨-, e⟩ <;> rw [e]
  · exact respondsOnce_halted hrun p
  · exact ⟨[], by simp, by simp, .inr ⟨hrun, _, 0, by simp, .inl rfl⟩⟩

/-- Settles O15: a step that takes words runs a command, which settles in one response, or refuses them with one. -/
theorem oneResponsePerCommand : Obligations.OneResponsePerCommand := by
  intro s t h hinc
  obtain ⟨hrun, ⟨hd, -⟩ | ⟨i, rest, hd, he⟩ | ⟨rest, -, rfl⟩⟩ := step_cases h
  · exact absurd hd hinc
  · obtain ⟨calls, hcalls, hno, hend⟩ := he.settled.respondsOnce hrun
    refine ⟨calls, hcalls, hno, ?_⟩
    simpa [hd] using hend
  · exact respondsOnce_refuseIllegal (s := { s with cmds := rest }) hrun _

end Sys2Proof.Machine
end

section
/-! PROOFS. Rounding of the product (00_scope.md R19): `roundF32` picks the nearer of the two neighbouring representable
values, the even one of two equally near. -/

namespace Sys2Proof.Machine

/-- The low bits that a 24-bit significand of `x` drops. -/
def f32Drop (x : Nat) : Nat := x.log2 + 1 - 24

/-- The 24-bit significand of the representable value at or below `x`. -/
def f32Kept (x : Nat) : Nat := x / 2 ^ f32Drop x

/-- The model's rounding, in terms of the significand kept and the bits dropped. -/
theorem roundF32_eq (x : Nat) :
    roundF32 x = (if 2 ^ f32Drop x < 2 * (x % 2 ^ f32Drop x) ∨
        (2 * (x % 2 ^ f32Drop x) = 2 ^ f32Drop x ∧ f32Drop x ≠ 0 ∧ f32Kept x % 2 = 1)
      then f32Kept x + 1 else f32Kept x) * 2 ^ f32Drop x := rfl

/-- A number of at most 24 bits is kept as it is. -/
theorem roundF32_of_drop_eq_zero {x : Nat} (h : f32Drop x = 0) : roundF32 x = x := by
  rw [roundF32_eq]
  simp [f32Kept, h]
  omega

theorem f32Kept_lt (x : Nat) : f32Kept x < 2 ^ 24 := by
  have hx : x < 2 ^ (x.log2 + 1) := Nat.lt_log2_self
  have hle : 2 ^ (x.log2 + 1) ≤ 2 ^ (24 + f32Drop x) := Nat.pow_le_pow_right (by decide) (by simp only [f32Drop]; omega)
  rw [f32Kept, Nat.div_lt_iff_lt_mul (by positivity), ← pow_add]
  exact hx.trans_le hle

/-- Where bits are dropped the significand has its full length. -/
theorem le_f32Kept {x : Nat} (h : f32Drop x ≠ 0) : 2 ^ 23 ≤ f32Kept x := by
  have hx : x ≠ 0 := by rintro rfl; exact h (by simp [f32Drop])
  have hle : 2 ^ x.log2 ≤ x := Nat.log2_self_le hx
  rw [f32Kept, Nat.le_div_iff_mul_le (by positivity), ← pow_add]
  rwa [show 23 + f32Drop x = x.log2 by simp only [f32Drop] at h ⊢; omega]

/-- One unit above a 24-bit significand is representable too: at `2 ^ 24` the exponent goes up. -/
theorem f32Representable_succ_kept (x : Nat) : F32Representable ((f32Kept x + 1) * 2 ^ f32Drop x) := by
  rcases Nat.lt_or_ge (f32Kept x + 1) (2 ^ 24) with h | h
  · exact ⟨_, _, h, rfl⟩
  · have hk : f32Kept x + 1 = 2 ^ 23 * 2 := by have := f32Kept_lt x; omega
    exact ⟨2 ^ 23, f32Drop x + 1, by decide, by rw [hk, pow_succ]; ring⟩

theorem f32Representable_roundF32 (x : Nat) : F32Representable (roundF32 x) := by
  rw [roundF32_eq]
  split
  · exact f32Representable_succ_kept x
  · exact ⟨_, _, f32Kept_lt x, rfl⟩

/-- No representable value lies strictly between the two neighbours of `x`. -/
theorem f32Representable_outside {x q : Nat} (hd : f32Drop x ≠ 0) (hq : F32Representable q) :
    q ≤ f32Kept x * 2 ^ f32Drop x ∨ (f32Kept x + 1) * 2 ^ f32Drop x ≤ q := by
  obtain ⟨m, e, hm, rfl⟩ := hq
  rcases Nat.lt_or_ge e (f32Drop x) with he | he
  · left
    calc m * 2 ^ e ≤ (2 ^ 23 * 2) * 2 ^ e := Nat.mul_le_mul_right _ (by omega)
      _ = 2 ^ 23 * 2 ^ (e + 1) := by rw [pow_succ]; ring
      _ ≤ 2 ^ 23 * 2 ^ f32Drop x := Nat.mul_le_mul_left _ (Nat.pow_le_pow_right (by decide) he)
      _ ≤ f32Kept x * 2 ^ f32Drop x := Nat.mul_le_mul_right _ (le_f32Kept hd)
  · have hmul : m * 2 ^ e = m * 2 ^ (e - f32Drop x) * 2 ^ f32Drop x := by
      rw [mul_assoc, ← pow_add, Nat.sub_add_cancel he]
    rw [hmul]
    rcases Nat.lt_or_ge (f32Kept x) (m * 2 ^ (e - f32Drop x)) with h | h
    · exact .inr (Nat.mul_le_mul_right _ h)
    · exact .inl (Nat.mul_le_mul_right _ h)

/-- The two neighbours of `x` and what `roundF32` takes: the lower one, or the upper one; never the farther, and at equal
distance the one whose significand is even. -/
theorem roundF32_cases {x : Nat} (hd : f32Drop x ≠ 0) :
    ∃ lost, x = f32Kept x * 2 ^ f32Drop x + lost ∧ lost < 2 ^ f32Drop x ∧
      ((roundF32 x = f32Kept x * 2 ^ f32Drop x ∧ 2 * lost ≤ 2 ^ f32Drop x ∧
          (2 * lost = 2 ^ f32Drop x → f32Kept x % 2 = 0)) ∨
       (roundF32 x = (f32Kept x + 1) * 2 ^ f32Drop x ∧ 2 ^ f32Drop x ≤ 2 * lost ∧
          (2 * lost = 2 ^ f32Drop x → f32Kept x % 2 = 1))) := by
  refine ⟨x % 2 ^ f32Drop x, (Nat.div_add_mod' x _).symm, Nat.mod_lt _ (by positivity), ?_⟩
  rw [roundF32_eq]
  split
  · right; omega
  · left; omega

/-- An even one of the two significands, as a significand of full length. -/
theorem even_significand {x k : Nat} (hd : f32Drop x ≠ 0) (hk : k = f32Kept x ∨ k = f32Kept x + 1) (heven : k % 2 = 0) :
    ∃ m e, 2 ^ 23 ≤ m ∧ m < 2 ^ 24 ∧ m % 2 = 0 ∧ k * 2 ^ f32Drop x = m * 2 ^ e := by
  have hlo := le_f32Kept hd
  have hhi := f32Kept_lt x
  rcases Nat.lt_or_ge k (2 ^ 24) with h | h
  · exact ⟨k, f32Drop x, by omega, h, heven, rfl⟩
  · have hk' : k = 2 ^ 23 * 2 := by omega
    exact ⟨2 ^ 23, f32Drop x + 1, le_rfl, by decide, by decide, by rw [hk', pow_succ]; ring⟩

/-- No representable value is nearer: it is at or beyond one of the two neighbours, of which the nearer one is taken. -/
theorem roundF32_nearest (x : Nat) {q : Nat} (hq : F32Representable q) :
    (x - roundF32 x) + (roundF32 x - x) ≤ (x - q) + (q - x) := by
  by_cases hd : f32Drop x = 0
  · rw [roundF32_of_drop_eq_zero hd]; omega
  · obtain ⟨lost, hx, hlt, hr⟩ := roundF32_cases hd
    have hout := f32Representable_outside hd hq
    have hsucc := Nat.add_one_mul (f32Kept x) (2 ^ f32Drop x)
    omega

/-- Where another value is equally near, what is lost is half a unit, so that the even significand was taken. -/
theorem roundF32_even_of_tie {x q : Nat} (hq : F32Representable q) (hne : q ≠ roundF32 x)
    (heq : (x - roundF32 x) + (roundF32 x - x) = (x - q) + (q - x)) :
    ∃ m e, 2 ^ 23 ≤ m ∧ m < 2 ^ 24 ∧ m % 2 = 0 ∧ roundF32 x = m * 2 ^ e := by
  by_cases hd : f32Drop x = 0
  · rw [roundF32_of_drop_eq_zero hd] at hne heq; omega
  · obtain ⟨lost, hx, hlt, hr⟩ := roundF32_cases hd
    have hout := f32Representable_outside hd hq
    have hsucc := Nat.add_one_mul (f32Kept x) (2 ^ f32Drop x)
    have htie : 2 * lost = 2 ^ f32Drop x := by omega
    rcases hr with ⟨hr, -, heven⟩ | ⟨hr, -, hodd⟩
    · exact hr ▸ even_significand hd (.inl rfl) (heven htie)
    · exact hr ▸ even_significand hd (.inr rfl) (by have := hodd htie; omega)

/-- Settles O24: `roundF32` takes the nearer neighbour, and of two equally near the even one. -/
theorem productRoundsToNearestEven : Obligations.ProductRoundsToNearestEven := fun x =>
  ⟨f32Representable_roundF32 x, fun _ => roundF32_nearest x, fun _ => roundF32_even_of_tie⟩

end Sys2Proof.Machine
end

section
/-! PROOFS. What a run of the transports keeps (41_transport.md, 42_frame_protocol.md): the invariant of T and of `seq`, and
the size of every transmission. -/

namespace Sys2Proof.Machine

/-! ## The calls added to the trace -/

/-- The events added from `s` to `t` hold only calls of the kind `P`. -/
def AddsOnly (P : Call → Prop) (s t : State) : Prop :=
  ∃ added, t.trace = s.trace ++ added ∧ ∀ c d, .call c d ∈ added → P c

variable {P : Call → Prop}

theorem AddsOnly.refl (s : State) : AddsOnly P s s := ⟨[], by simp, by simp⟩

theorem AddsOnly.trans {s t u : State} (h : AddsOnly P s t) (k : AddsOnly P t u) : AddsOnly P s u := by
  obtain ⟨xs, ht, hx⟩ := h
  obtain ⟨ys, hu, hy⟩ := k
  refine ⟨xs ++ ys, by rw [hu, ht, List.append_assoc], fun c d hc => ?_⟩
  rcases List.mem_append.mp hc with hc | hc
  · exact hx c d hc
  · exact hy c d hc

/-- Changing other fields than the trace on either side makes no difference. -/
theorem AddsOnly.congr {s s' t t' : State} (h : AddsOnly P s t) (hs : s'.trace = s.trace) (ht : t'.trace = t.trace) :
    AddsOnly P s' t' := by
  obtain ⟨xs, e, hx⟩ := h
  exact ⟨xs, by rw [ht, e, hs], hx⟩

theorem addsOnly_response {s t : State} {st : Status} {data : Word} (h : t.trace = s.trace ++ [.response st data]) :
    AddsOnly P s t := ⟨_, h, by simp⟩

theorem addsOnly_collab {c : Call} (hc : P c) (s : State) : AddsOnly P s (collab c s).1 :=
  ⟨_, collab_trace c s, by simp [hc]⟩

/-- `InitFail` releases pins and answers. -/
theorem addsOnly_initFail (hrel : ∀ p, P (.gpioRelease p)) (k : ErrKind) (pins : List Byte) (s : State) :
    AddsOnly P s (initFail k pins s) := by
  have hpins : ∀ (pins : List Byte) (s : State), AddsOnly P s (releasePins pins s).1 := by
    intro pins
    induction pins with
    | nil => exact fun s => .refl s
    | cons p rest ih =>
      intro s
      have hp : AddsOnly P s (ignoreCall (.gpioRelease p) s).1 := addsOnly_collab (hrel p) s
      rw [releasePins]
      by_cases h : (ignoreCall (.gpioRelease p) s).2 = .ok
      · rw [andThen_of_ok h]; exact hp.trans (ih _)
      · rw [andThen_of_ne h]; exact hp
  unfold initFail
  split
  · exact (hpins pins s).trans (addsOnly_response rfl)
  · exact (hpins pins s).trans (addsOnly_response rfl)
  · exact (hpins pins s).trans (addsOnly_response rfl)
  · exact hpins pins s

/-- A construction makes its own calls, and releases pins where one of them fails. -/
theorem addsOnly_construct (hrel : ∀ p, P (.gpioRelease p)) {calls : List (Call × List Byte)}
    (hcalls : ∀ c ∈ calls, P c.1) {complete : State → State} (hcomplete : ∀ s, (complete s).trace = s.trace) (s : State) :
    AddsOnly P s (construct calls complete s) := by
  induction calls generalizing s with
  | nil => exact addsOnly_response (by rw [construct, finish_trace, hcomplete])
  | cons c rest ih =>
    have hc := addsOnly_collab (hcalls c (by simp)) s
    rw [construct]
    split
    · exact hc.trans (ih (fun d hd => hcalls d (by simp [hd])) _)
    · exact hc.trans (addsOnly_initFail hrel _ _ _)
    · exact hc

/-- The end of a micro-operation's command adds at most a response. -/
theorem addsOnly_endCommand (r : State × Res) : AddsOnly P r.1 (endCommand r) := by
  obtain ⟨s, q⟩ := r
  cases q with
  | ok => exact addsOnly_response rfl
  | err k => exact addsOnly_response rfl
  | fault c => exact addsOnly_response rfl
  | hang => exact .refl s

/-! ## The invariant of the transport -/

/-- The part of `State.Inv` that speaks of T (10_state.md R41, 20_memory.md R52) and of `seq` (10_state.md R43): what every
micro-operation keeps at each of its calls. -/
structure State.TransportInv (s : State) : Prop where
  buf_rising : s.buf.Rising
  buf_inside : ∀ c ∈ s.buf, c.1 < s.params.cap
  buf_held : ∀ j < s.idx, (s.buf.stored j).isSome
  idx_le : s.idx ≤ s.params.cap
  idx_bitbang : s.backend = .bitbang → s.idx = 0
  seq_legal : s.seq.Legal s.n s.L

/-- `seq` may go to any position of the frame. -/
theorem State.TransportInv.setSeq {s : State} (h : s.TransportInv) {p : SeqPos} (hp : p.Legal s.n s.L) :
    (setSeq p s).TransportInv :=
  ⟨h.buf_rising, h.buf_inside, h.buf_held, h.idx_le, h.idx_bitbang, hp⟩

/-- An empty buffer holds nothing that was not stored. -/
theorem State.TransportInv.empty {s : State} (h : s.TransportInv) : ({ s with idx := 0 } : State).TransportInv :=
  ⟨h.buf_rising, h.buf_inside, fun _ hj => absurd hj (Nat.not_lt_zero _), Nat.zero_le _, fun _ => rfl, h.seq_legal⟩

/-- A byte appended below CAP is held and stored. -/
theorem State.TransportInv.append {s : State} (h : s.TransportInv) (hb : s.backend = .bus) (hi : s.idx < s.params.cap)
    (v : Byte) : ({ s with buf := bufWrite s.buf s.idx v, idx := s.idx + 1 } : State).TransportInv where
  buf_rising := rising_bufWrite h.buf_rising _ _
  buf_inside := fun c hc => by
    rcases mem_put hc with rfl | hc
    · exact hi
    · exact h.buf_inside c hc
  buf_held := fun j hj => by
    show ((s.buf.put s.idx v).stored j).isSome
    rw [stored_put]
    split
    · rfl
    · exact h.buf_held j (by have : j < s.idx + 1 := hj; omega)
  idx_le := hi
  idx_bitbang := fun hbb => by
    have : s.backend = .bitbang := hbb
    simp [hb] at this
  seq_legal := h.seq_legal

/-- A transmission that R21 admits: 1 to CAP bytes. Every other call is admitted. -/
def Call.Fits (cap : Nat) (c : Call) : Prop := ∀ bytes, c = .busWrite bytes → 1 ≤ bytes.length ∧ bytes.length ≤ cap

theorem SameHandle.refl (s : State) : SameHandle s s := ⟨rfl, rfl, rfl, rfl, rfl, rfl⟩

theorem SameHandle.trans {s t u : State} (h : SameHandle s t) (k : SameHandle t u) : SameHandle s u := by
  obtain ⟨hn, hL, hb, hd, hc, hz⟩ := h
  obtain ⟨kn, kL, kb, kd, kc, kz⟩ := k
  exact ⟨kn.trans hn, kL.trans hL, kb.trans hb, kd.trans hd, kc.trans hc, kz.trans hz⟩

/-- `t` is reached from `s` by calls of the transport: the handle's fields are kept, the invariant of the transport holds,
and every transmission had 1 to CAP bytes. -/
structure Carried (s t : State) : Prop where
  handle : SameHandle s t
  params : t.params = s.params
  txReleased : t.txReleased = s.txReleased
  inv : t.TransportInv
  fits : AddsOnly (Call.Fits s.params.cap) s t

theorem Carried.refl {s : State} (h : s.TransportInv) : Carried s s :=
  ⟨.refl s, rfl, rfl, h, .refl s⟩

theorem Carried.trans {s t u : State} (h : Carried s t) (k : Carried t u) : Carried s u :=
  ⟨h.handle.trans k.handle, k.params.trans h.params, k.txReleased.trans h.txReleased, k.inv,
    h.fits.trans (h.params ▸ k.fits)⟩

theorem Carried.backend {s t : State} (h : Carried s t) : t.backend = s.backend := by
  obtain ⟨-, -, hb, -⟩ := h.handle
  exact hb

/-- A position of the frame stays one. -/
theorem Carried.legal {s t : State} (h : Carried s t) {p : SeqPos} (hp : p.Legal s.n s.L) : p.Legal t.n t.L := by
  obtain ⟨hn, hL, -⟩ := h.handle
  rwa [hn, hL]

theorem Carried.andThen {s : State} {r : State × Res} {f : State → State × Res} (h : Carried s r.1)
    (hf : r.2 = .ok → Carried r.1 (f r.1).1) : Carried s (andThen r f).1 := by
  by_cases hr : r.2 = .ok
  · rw [andThen_of_ok hr]; exact h.trans (hf hr)
  · rwa [andThen_of_ne hr]

/-- `seq` moves within the frame. -/
theorem carried_setSeq {s : State} (h : s.TransportInv) {p : SeqPos} (hp : p.Legal s.n s.L) : Carried s (setSeq p s) :=
  ⟨.refl s, rfl, rfl, h.setSeq hp, .refl s⟩

/-! ## The micro-operations -/

theorem carried_tryCall {s : State} (h : s.TransportInv) {c : Call} (hc : c.Fits s.params.cap) :
    Carried s (tryCall c s).1 :=
  ⟨.refl s, rfl, rfl,
    ⟨h.buf_rising, h.buf_inside, h.buf_held, h.idx_le, h.idx_bitbang, h.seq_legal⟩, addsOnly_collab hc s⟩

theorem carried_runCalls {cs : List Call} {s : State} (h : s.TransportInv) (hcs : ∀ c ∈ cs, c.Fits s.params.cap) :
    Carried s (runCalls cs s).1 := by
  induction cs generalizing s with
  | nil => exact .refl h
  | cons c rest ih =>
    have hc := carried_tryCall h (hcs c (by simp))
    exact hc.andThen fun _ => ih hc.inv fun d hd => hcs d (by simp [hd])

/-- Bit-banging makes GPIO writes only (R98). -/
theorem fits_of_mem_bitbangCallsOf {s : State} {bytes : List Byte} {c : Call} (hc : c ∈ s.bitbangCallsOf bytes) (cap : Nat) :
    c.Fits cap := by
  rintro w rfl
  simp [State.bitbangCallsOf, byteCalls, bitPulse] at hc

theorem carried_twriteBitbang (bytes : List Byte) {s : State} (h : s.TransportInv) :
    Carried s (twriteBitbang bytes s).1 := by
  rw [twriteBitbang_eq]
  exact carried_runCalls h fun _ hc => fits_of_mem_bitbangCallsOf hc _

/-- What is held, if anything, is a transmission of 1 to CAP bytes. -/
theorem carried_sendHeld {s : State} (h : s.TransportInv) (hi : 1 ≤ s.idx) : Carried s (sendHeld s).1 := by
  have hfits : (Call.busWrite (heldBytes s)).Fits s.params.cap := by
    rintro _ ⟨⟩
    exact ⟨by rwa [heldBytes_length], by rw [heldBytes_length]; exact h.idx_le⟩
  have hc := carried_tryCall h hfits
  exact hc.andThen fun _ => ⟨.refl _, rfl, rfl, hc.inv.empty, .refl _⟩

theorem carried_appendByte (v : Byte) {s : State} (h : s.TransportInv) (hb : s.backend = .bus) :
    Carried s (appendByte v s).1 := by
  by_cases hfull : s.idx = s.params.cap
  · rw [appendByte, if_pos hfull]; exact .refl h
  · have hlt : s.idx < s.params.cap := Nat.lt_of_le_of_ne h.idx_le hfull
    have happ : Carried s { s with buf := bufWrite s.buf s.idx v, idx := s.idx + 1 } :=
      ⟨.refl s, rfl, rfl, h.append hb hlt v, .refl _⟩
    rcases Nat.lt_or_ge (s.idx + 1) s.params.cap with hroom | hlast
    · rw [appendByte_holds v hroom]; exact happ
    · rw [appendByte_sends v (by omega)]; exact happ.trans (carried_sendHeld happ.inv (Nat.le_add_left 1 _))

theorem carried_twriteBus (bytes : List Byte) {s : State} (h : s.TransportInv) (hb : s.backend = .bus) :
    Carried s (twriteBus bytes s).1 := by
  induction bytes generalizing s with
  | nil => exact .refl h
  | cons v rest ih =>
    have hv := carried_appendByte v h hb
    exact hv.andThen fun _ => ih hv.inv (hv.backend.trans hb)

theorem carried_twrite (bytes : List Byte) {s : State} (h : s.TransportInv) : Carried s (twrite bytes s).1 := by
  unfold twrite
  cases hb : s.backend with
  | bitbang => exact carried_twriteBitbang bytes h
  | bus => exact carried_twriteBus bytes h hb

theorem carried_tflush {s : State} (h : s.TransportInv) : Carried s (tflush s).1 := by
  unfold tflush
  cases s.backend with
  | bitbang => exact .refl h
  | bus =>
    show Carried s (tflushBus s).1
    unfold tflushBus
    split
    · exact .refl h
    · exact carried_sendHeld h (by omega)

/-- Every byte of the frame has its position in it (10_state.md R43). -/
theorem legal_of_mem_frame {s : State} {b : SeqPos × Byte} (hb : b ∈ frame s) : b.1.Legal s.n s.L := by
  simp only [frame, startFrame, pixelFrame, endFrame, List.mem_append, List.mem_map, List.mem_flatMap, List.mem_range] at hb
  rcases hb with ⟨j, hj, rfl⟩ | ⟨i, hi, j, hj, rfl⟩ | ⟨j, hj, rfl⟩
  · exact hj
  · exact ⟨hi, hj⟩
  · exact hj

theorem carried_sendFrame {bytes : List (SeqPos × Byte)} {s : State} (h : s.TransportInv)
    (hlegal : ∀ b ∈ bytes, b.1.Legal s.n s.L) : Carried s (sendFrame bytes s).1 := by
  induction bytes generalizing s with
  | nil => exact .refl h
  | cons b rest ih =>
    have hseq := carried_setSeq h (hlegal b (by simp))
    have hb := hseq.trans (carried_twrite [b.2] hseq.inv)
    exact hb.andThen fun _ => ih hb.inv fun c hc => hb.legal (hlegal c (by simp [hc]))

theorem carried_render {s : State} (h : s.TransportInv) : Carried s (render s).1 := by
  have hframe := carried_sendFrame h fun _ => legal_of_mem_frame
  refine hframe.andThen fun _ => ?_
  have hseq := carried_setSeq hframe.inv (p := .flush) trivial
  have hflush := hseq.trans (carried_tflush hseq.inv)
  exact hflush.andThen fun _ => carried_setSeq hflush.inv trivial

/-- A micro-operation run by a command. -/
theorem carried_of_command {i : Instr} {s : State} {r : State × Res} (h : s.TransportInv)
    (hi : (∃ v, i = .txwr v ∧ r = twrite [v] s) ∨ (i = .flush ∧ r = tflush s) ∨ (i = .render ∧ r = render s)) :
    Carried s r.1 := by
  rcases hi with ⟨v, -, rfl⟩ | ⟨-, rfl⟩ | ⟨-, rfl⟩
  · exact carried_twrite _ h
  · exact carried_tflush h
  · exact carried_render h

/-! ## Release -/

/-- The clear of a release does not touch the transport. -/
theorem State.TransportInv.blanked {s : State} (h : s.TransportInv) : (blanked s).TransportInv :=
  ⟨h.buf_rising, h.buf_inside, h.buf_held, h.idx_le, h.idx_bitbang, h.seq_legal⟩

theorem carried_releaseRender {s : State} (h : s.TransportInv) : Carried (blanked s) (releaseRender s).1 := by
  unfold releaseRender
  by_cases hcor : s.cor = true
  · have hb : blanked s = { s with pix := clearColours s.n s.pix } := by rw [blanked, if_pos hcor]
    rw [if_pos hcor, ← hb]
    exact carried_render h.blanked
  · have hb : blanked s = s := by rw [blanked, if_neg hcor]
    rw [if_neg hcor, hb]
    exact .refl h

/-- The state a release of the transport starts from: marked released, nothing held (41_transport.md R101, R107). -/
def discarded (s : State) : State := { s with txReleased := true, idx := 0 }

theorem fits_gpioRelease (cap : Nat) (p : Byte) : (Call.gpioRelease p).Fits cap := by rintro _ ⟨⟩

theorem carried_trelease {s : State} (h : s.TransportInv) (hx : s.txReleased = false) :
    Carried (discarded s) (trelease s).1 := by
  have hd : (discarded s).TransportInv :=
    ⟨h.buf_rising, h.buf_inside, fun _ hj => absurd hj (Nat.not_lt_zero _), Nat.zero_le _, fun _ => rfl, h.seq_legal⟩
  unfold trelease
  cases hb : s.backend with
  | bus =>
    show Carried _ (treleaseBus s).1
    rw [treleaseBus, if_neg (by simp [hx])]
    exact .refl hd
  | bitbang =>
    have hs : ({ s with txReleased := true } : State) = discarded s := by rw [discarded, ← h.idx_bitbang hb]
    show Carried _ (treleaseBitbang s).1
    rw [treleaseBitbang, if_neg (by simp [hx]), hs]
    have hdata : Carried (discarded s) (ignoreCall (.gpioRelease s.pinData) (discarded s)).1 :=
      carried_tryCall hd (fits_gpioRelease _ _)
    exact hdata.andThen fun _ => carried_tryCall hdata.inv (fits_gpioRelease _ _)

/-- A released transport holds nothing (10_state.md R49). -/
theorem idx_trelease {s : State} (h : s.TransportInv) (hx : s.txReleased = false) : (trelease s).1.idx = 0 := by
  cases hb : s.backend with
  | bus => simp [trelease, hb, treleaseBus, hx]
  | bitbang =>
    have hc := carried_trelease h hx
    exact hc.inv.idx_bitbang (hc.backend.trans hb)

end Sys2Proof.Machine
end

section
/-! PROOFS. Every step keeps the invariant (O58), and every transmission carries 1 to CAP bytes (O36). -/

namespace Sys2Proof.Machine

/-! ## The parts of the invariant -/

/-- The part of `State.Inv` that speaks of P (10_state.md R37, 20_memory.md R51). -/
structure State.PixInv (s : State) : Prop where
  pix_wf : pixWf s.pix
  pix_inside : ∀ c ∈ s.pix, c.1 < 4 * s.n
  marker : ∀ i < s.n, (pixRead s.pix (4 * i)).extractLsb' 5 3 = 0b111#3

/-- What `State.Inv` says besides the status and the end of a command: it holds at every call, also of one that hangs. -/
structure State.Sound (s : State) : Prop extends State.PixInv s, State.TransportInv s where
  params_valid : s.params.Valid
  unconfigured : s.life = .unconfigured →
    s.n = 0 ∧ s.L = 0 ∧ s.cor = false ∧ s.backend = .bitbang ∧ s.txReleased = false ∧ s.idx = 0
  configured : s.life ≠ .unconfigured → 1 ≤ s.n ∧ s.n ≤ s.params.numPixelsMax ∧ s.L = endFrameLen s.n
  pins_distinct : s.life ≠ .unconfigured → s.backend = .bitbang → s.pinData ≠ s.pinClock
  released_transport : s.life = .released → s.txReleased = true ∧ s.idx = 0
  draw_count : s.drawNo = (s.trace.filter Event.isCall).length

/-- What it says of a command that is over, whatever its answer; of one that hangs, no more than `Sound`. -/
structure State.Resting (s : State) : Prop extends State.Sound s where
  active_transport : s.life = .active → s.hung = false → s.txReleased = false
  seq_idle : s.hung = false → s.seq = .idle

theorem State.Inv.resting {s : State} (h : s.Inv) : s.Resting where
  pix_wf := h.pix_wf
  pix_inside := h.pix_inside
  marker := h.marker
  buf_rising := h.buf_rising
  buf_inside := h.buf_inside
  buf_held := h.buf_held
  idx_le := h.idx_le
  idx_bitbang := h.idx_bitbang
  seq_legal := h.seq_legal
  params_valid := h.params_valid
  unconfigured := h.unconfigured
  configured := h.configured
  pins_distinct := h.pins_distinct
  released_transport := h.released_transport
  draw_count := h.draw_count
  active_transport := h.active_transport
  seq_idle := h.seq_idle

/-- The parts together, with what `State.Inv` says of the status and of a hang. -/
theorem State.Resting.inv {s : State} (h : s.Resting) (hfault : ∀ c, s.fault = some c ↔ s.status = .fault c)
    (hhalted : s.status ≠ .halted)
    (hhung : s.hung = true → ∃ c d, s.trace.getLast? = some (.call c d) ∧ d.result = .noReturn) : s.Inv where
  params_valid := h.params_valid
  pix_wf := h.pix_wf
  pix_inside := h.pix_inside
  marker := h.marker
  buf_rising := h.buf_rising
  buf_inside := h.buf_inside
  buf_held := h.buf_held
  idx_le := h.idx_le
  idx_bitbang := h.idx_bitbang
  unconfigured := h.unconfigured
  configured := h.configured
  pins_distinct := h.pins_distinct
  active_transport := h.active_transport
  released_transport := h.released_transport
  seq_legal := h.seq_legal
  seq_idle := h.seq_idle
  fault_is_status := hfault
  status_not_halted := hhalted
  hung_last := hhung
  draw_count := h.draw_count

/-- The invariant does not speak of the words still to come. -/
theorem State.Inv.withCmds {s : State} (h : s.Inv) (ws : List Word) : ({ s with cmds := ws } : State).Inv :=
  have hr : ({ s with cmds := ws } : State).Resting := { h.resting with }
  hr.inv h.fault_is_status h.status_not_halted h.hung_last

/-! ## How a command ends -/

/-- A response, with any status and fault written, is no matter of the parts. -/
theorem State.Resting.answered {s : State} (h : s.Resting) (f : Option FaultCode) (st st' : Status) (data : Word) :
    ({ s with fault := f, status := st, trace := s.trace ++ [.response st' data] } : State).Resting :=
  { h with draw_count := by simpa [Event.isCall] using h.draw_count }

/-- A response that writes nothing keeps the invariant. -/
theorem State.Inv.respond {s : State} (h : s.Inv) (hrun : s.hung = false) (st : Status) (data : Word) :
    (respond st data s).Inv :=
  (h.resting.answered s.fault s.status st data).inv h.fault_is_status h.status_not_halted
    fun hh => absurd hh (by simp [hrun])

/-- So does a fault, raised and recorded. -/
theorem State.Inv.raiseFault {s : State} (h : s.Inv) (hrun : s.hung = false) (c : FaultCode) : (raiseFault c s).Inv :=
  (h.resting.answered (some c) (.fault c) (.fault c) 0).inv (by simp) (by simp) fun hh => absurd hh (by simp [hrun])

/-- However a command settles, its status and its fault agree and a hang is its last call (60_exceptions.md R145, R146): the
parts make the invariant. -/
theorem Settled.inv {i : Instr} {s t : State} (h : Settled i s t) (hs : s.Inv) (hrun : s.hung = false)
    (ht : t.Resting) : t.Inv := by
  cases h with
  | halted _ _ e => exact e ▸ hs.respond hrun _ _
  | read g _ e => exact e ▸ hs.respond hrun _ _
  | answered _ st data cs u _ _ hfu hh hst e =>
    subst e
    refine ht.inv (fun c => ?_) ?_ fun hh' => absurd (hh.symm.trans hh') (by simp [hrun])
    · rcases hst with rfl | ⟨k, rfl⟩ <;> simp [hfu]
    · rcases hst with rfl | ⟨k, rfl⟩ <;> simp
  | faulted _ c cs u _ _ hh e =>
    subst e
    exact ht.inv (by simp) (by simp) fun hh' => absurd (hh.symm.trans hh') (by simp [hrun])
  | hung hf cs htr _ hft hst _ hl =>
    refine ht.inv (fun c => ?_) (hst ▸ hs.status_not_halted) fun _ => ?_
    · rw [hft, hst, ← hf]; exact hs.fault_is_status c
    · obtain ⟨c, d, hlast, hd⟩ := hl
      exact ⟨c, d, by rw [htr]; exact List.mem_getLast?_append_of_mem_getLast? hlast, hd⟩

/-! ## Calls -/

/-- One event, one draw. -/
theorem filter_isCall_callEvents (s : State) (cs : List Call) :
    ((s.callEvents cs).filter Event.isCall).length = cs.length := by
  rw [List.filter_eq_self.mpr fun _ => isCall_of_mem_callEvents, callEvents_length]

theorem draw_count_called {s : State} (h : s.drawNo = (s.trace.filter Event.isCall).length) (cs : List Call) :
    (s.called cs).drawNo = ((s.called cs).trace.filter Event.isCall).length := by
  rw [called_drawNo, called_trace, List.filter_append, List.length_append, filter_isCall_callEvents, h]

theorem State.Sound.called {s : State} (h : s.Sound) (cs : List Call) (hung : Bool) :
    ({ s.called cs with hung := hung } : State).Sound :=
  { h with draw_count := draw_count_called h.draw_count cs }

theorem State.Resting.called {s : State} (h : s.Resting) (cs : List Call) : (s.called cs).Resting :=
  { h with draw_count := draw_count_called h.draw_count cs }

/-- A hang leaves no more to show than `Sound`. -/
theorem State.Sound.resting_of_hung {s : State} (h : s.Sound) (hh : s.hung = true) : s.Resting :=
  { h with
    active_transport := fun _ hr => absurd hh (by simp [hr])
    seq_idle := fun hr => absurd hh (by simp [hr]) }

/-- A micro-operation of a handle keeps what holds at every call. -/
theorem State.Sound.ran {s : State} {r : State × Res} (h : s.Sound) (ha : s.life = .active) (hr : Ran s r)
    (hi : r.1.TransportInv) : r.1.Sound := by
  obtain ⟨cs, x, b, i, p, g, e, -, -⟩ := hr
  rw [e] at hi ⊢
  exact { hi, h with
    unconfigured := fun hl => absurd (ha.symm.trans hl) (by decide)
    released_transport := fun hl => absurd (ha.symm.trans hl) (by decide)
    draw_count := draw_count_called h.draw_count cs }

/-! ## The pixel store -/

/-- The brightness byte of any level has `0b111` on top (10_state.md R37). -/
theorem marker_encodeBrightness (level : Word) : (encodeBrightness level).extractLsb' 5 3 = 0b111#3 := by
  rw [encodeBrightness, BitVec.extractLsb'_or]
  exact BitVec.allOnes_or

/-- A write inside pixel `x`, with a brightness byte where it begins at the pixel's first, keeps the invariant of P. -/
theorem State.PixInv.store {s : State} (h : s.PixInv) {x a : Nat} {bytes : List Byte} (hx : x < s.n) (hlo : 4 * x ≤ a)
    (hhi : a + bytes.length ≤ 4 * x + 4) (hm : a = 4 * x → ∃ level rest, bytes = encodeBrightness level :: rest) :
    ({ s with pix := pixWriteBytes s.pix a bytes } : State).PixInv where
  pix_wf := pixWf_pixWriteBytes h.pix_wf a bytes
  pix_inside := fun c hc => by
    show c.1 < 4 * s.n
    rcases mem_pixWriteBytes hc with hc | hc
    · exact h.pix_inside c hc
    · omega
  marker := fun i hi => by
    show (pixRead (pixWriteBytes s.pix a bytes) (4 * i)).extractLsb' 5 3 = _
    rw [pixRead_pixWriteBytes]
    by_cases hin : a ≤ 4 * i ∧ 4 * i - a < bytes.length
    · obtain ⟨level, rest, rfl⟩ := hm (by omega)
      rw [if_pos hin.1, show 4 * i - a = 0 by omega]
      exact marker_encodeBrightness level
    · have hold : (if a ≤ 4 * i then (bytes[4 * i - a]?).getD (pixRead s.pix (4 * i)) else pixRead s.pix (4 * i)) =
          pixRead s.pix (4 * i) := by
        split
        · rw [List.getElem?_eq_none (by omega), Option.getD_none]
        · rfl
      rw [hold]
      exact h.marker i hi

/-- The clear of a release keeps every brightness byte (43_lifecycle.md R133). -/
theorem State.PixInv.blanked {s : State} (h : s.PixInv) : (blanked s).PixInv := by
  by_cases hcor : s.cor = true
  · rw [Machine.blanked, if_pos hcor]
    refine ⟨pixWf_clearColours h.pix_wf _, fun c hc => ?_, fun i hi => ?_⟩
    · rcases mem_clearColours hc with hc | hc
      · exact h.pix_inside c hc
      · exact hc
    · show (pixRead (clearColours s.n s.pix) (4 * i)).extractLsb' 5 3 = _
      rw [pixRead_clearColours, if_neg (by omega)]
      exact h.marker i hi
  · rw [Machine.blanked, if_neg hcor]
    exact h

/-- With the pixel store changed within its invariant, the rest stands. -/
theorem State.Resting.withPix {s : State} (h : s.Resting) {m : Memory} (hm : ({ s with pix := m } : State).PixInv) :
    ({ s with pix := m } : State).Resting :=
  { hm, h with }

/-! ## The commands -/

/-- A micro-operation's command, over: answered or faulted with `seq` IDLE again, or hung. -/
theorem resting_endCommand {s : State} {r : State × Res} (h : s.Resting) (hrun : s.hung = false) (ha : s.life = .active)
    (hr : Ran s r) (hc : Carried s r.1) : (endCommand r).Resting := by
  have hsound : r.1.Sound := h.toSound.ran ha hr hc.inv
  have hx : r.1.txReleased = false := hc.txReleased.trans (h.active_transport ha hrun)
  have hidle : (setSeq .idle r.1).Resting :=
    { hsound with
      seq_legal := trivial
      active_transport := fun _ _ => hx
      seq_idle := fun _ => rfl }
  cases hq : r.2 with
  | ok => rw [endCommand, hq]; exact hidle.answered _ _ _ _
  | err k => rw [endCommand, hq]; exact hidle.answered _ _ _ _
  | fault c => rw [endCommand, hq]; exact hidle.answered _ _ _ _
  | hang =>
    obtain ⟨cs, x, b, j, p, e, -⟩ := hr.hangs hq
    rw [endCommand, hq]
    exact hsound.resting_of_hung (by rw [e])

/-- A handle just built (43_lifecycle.md R126). -/
theorem State.Resting.constructed {s : State} (h : s.Resting) {b : Backend} {count : Nat} {pd pc : Byte} {hz : Word}
    (hs : s.Constructible count) (hp : b = .bitbang → pd ≠ pc) :
    ({ initCommon b count s with pinData := pd, pinClock := pc, clockHz := hz } : State).Resting where
  pix_wf := pixWf_nil
  pix_inside := by simp
  marker := fun i _ => by
    show (pixRead [] (4 * i)).extractLsb' 5 3 = _
    rw [pixRead_nil, pixDefault, if_pos (by omega)]
    decide
  buf_rising := by simp [Memory.Rising]
  buf_inside := by simp
  buf_held := by simp
  idx_le := Nat.zero_le _
  idx_bitbang := fun _ => rfl
  seq_legal := trivial
  params_valid := h.params_valid
  unconfigured := by simp
  configured := fun _ => by
    obtain ⟨-, -, hpos, hmax⟩ := hs
    exact ⟨hpos, hmax, rfl⟩
  pins_distinct := fun _ => hp
  released_transport := by simp
  draw_count := h.draw_count
  active_transport := fun _ _ => rfl
  seq_idle := fun _ => rfl

/-- A construction, over: completed, failed or hung. -/
theorem resting_construct {s : State} (h : s.Resting) {count : Nat} (hs : s.Constructible count) {b : Backend}
    {pd pc : Byte} {hz : Word} (hp : b = .bitbang → pd ≠ pc) (calls : List (Call × List Byte)) {complete : State → State}
    (hc : ∀ cs, complete (s.called cs) =
      { initCommon b count (s.called cs) with pinData := pd, pinClock := pc, clockHz := hz }) :
    (construct calls complete s).Resting := by
  rcases construct_cases calls complete s with ⟨cs, e⟩ | ⟨cs, k, e⟩ | ⟨cs, e, -⟩ <;> rw [e]
  · rw [hc]
    exact ((h.called cs).constructed hs hp).answered _ _ _ _
  · exact (h.called cs).answered _ _ _ _
  · exact (h.toSound.called cs true).resting_of_hung rfl

/-- A teardown, over: RELEASED with the transport released and empty (10_state.md R49), or hung. -/
theorem resting_teardown (st : Status) {s : State} (h : s.Sound) (ha : s.life = .active) (hx : s.txReleased = false) :
    (teardown st s).Resting := by
  have hran := ran_trelease s
  have hc := carried_trelease h.toTransportInv hx
  have hsound : (trelease s).1.Sound := h.ran ha hran hc.inv
  rcases teardown_cases st s with ⟨-, e⟩ | ⟨hq, e⟩ <;> rw [e]
  · have hlife : (trelease s).1.life = .active := by
      obtain ⟨cs, x, b, j, p, g, e, -⟩ := hran
      rw [e]; exact ha
    have hreleased : ({ (trelease s).1 with life := .released, seq := .idle } : State).Resting :=
      { hsound with
        seq_legal := trivial
        unconfigured := nofun
        configured := fun _ => hsound.configured (by simp [hlife])
        pins_distinct := fun _ => hsound.pins_distinct (by simp [hlife])
        released_transport := fun _ => ⟨hc.txReleased, idx_trelease h.toTransportInv hx⟩
        active_transport := nofun
        seq_idle := fun _ => rfl }
    exact hreleased.answered _ _ _ _
  · obtain ⟨cs, x, b, j, p, e', -⟩ := hran.hangs hq
    exact hsound.resting_of_hung (by rw [e'])

/-- A release of an active handle, over: torn down, faulted in its render, or hung. -/
theorem resting_releaseHandle (explicit : Bool) {s : State} (h : s.Resting) (hrun : s.hung = false)
    (ha : s.life = .active) : (releaseHandle explicit s).Resting := by
  have hb : (blanked s).Resting := h.withPix h.toPixInv.blanked
  have hran := ran_releaseRender s
  have hc := carried_releaseRender h.toTransportInv
  rcases releaseHandle_cases explicit ha with ⟨st, -, hq, -, e⟩ | ⟨c, hq, e⟩ | ⟨hq, e⟩ <;> rw [e]
  · have hlife : (releaseRender s).1.life = .active := by
      obtain ⟨cs, x, b, j, p, e⟩ := hran.returned hq
      rw [e]; exact ha
    exact resting_teardown st (hb.toSound.ran ha hran hc.inv) hlife (hc.txReleased.trans (h.active_transport ha hrun))
  · have hend := resting_endCommand hb hrun ha hran hc
    rwa [endCommand, hq] at hend
  · have hend := resting_endCommand hb hrun ha hran hc
    rwa [endCommand, hq] at hend

/-- Every command, over. -/
theorem Ends.resting {i : Instr} {s t : State} (he : Ends i s t) (h : s.Resting) (hrun : s.hung = false) :
    t.Resting := by
  cases he with
  | halted => exact h.answered _ _ _ _
  | faulted => exact h.answered _ _ _ _
  | read => exact h.answered _ _ _ _
  | stored x a bytes _ hx _ hlo hhi hm => exact (h.withPix (h.toPixInv.store hx hlo hhi hm)).answered _ _ _ _
  | got => exact h.answered _ _ _ _
  | ran r hs hi => exact resting_endCommand h hrun hs.2 (Ends.ran_ran hi) (carried_of_command h.toTransportInv hi)
  | flag b hs =>
    have hcor : ({ s with cor := b } : State).Resting :=
      { h with unconfigured := fun hl => absurd (hs.2.symm.trans hl) (by decide) }
    exact hcor.answered _ _ _ _
  | bitbang count pd pc hs hp => exact resting_construct (hz := s.clockHz) h hs (fun _ => hp) _ fun _ => rfl
  | bus count hz hs => exact resting_construct (b := .bus) (pd := s.pinData) (pc := s.pinClock) h hs nofun _ fun _ => rfl
  | noop => exact h.answered _ _ _ _
  | release b hs => exact resting_releaseHandle b h hrun hs.2

/-- Settles O58: an idle step changes nothing; a command keeps the parts of the invariant, and settles with its status and
its fault in agreement; words that spell none are halted or raise a fault. -/
theorem stepKeepsInvariant : Obligations.StepKeepsInvariant := by
  intro s t h hstep
  obtain ⟨hrun, ⟨-, rfl⟩ | ⟨i, rest, -, he⟩ | ⟨rest, -, rfl⟩⟩ := step_cases hstep
  · exact h
  · exact he.settled.inv (h.withCmds rest) hrun (he.resting (h.withCmds rest).resting hrun)
  · rcases refuseIllegal_cases { s with cmds := rest } with ⟨-, e⟩ | ⟨-, e⟩ <;> rw [e]
    · exact (h.withCmds rest).respond hrun _ _
    · exact (h.withCmds rest).raiseFault hrun _

/-! ## Transmissions -/

/-- A release of the transport makes GPIO calls only. -/
theorem fits_trelease {s : State} (h : s.TransportInv) (hx : s.txReleased = false) :
    AddsOnly (Call.Fits s.params.cap) s (trelease s).1 := (carried_trelease h hx).fits.congr rfl rfl

/-- Every transmission of a release has 1 to CAP bytes. -/
theorem fits_releaseHandle (explicit : Bool) {s : State} (h : s.TransportInv) (ha : s.life = .active)
    (hx : s.txReleased = false) : AddsOnly (Call.Fits s.params.cap) s (releaseHandle explicit s) := by
  have hc := carried_releaseRender h
  have hrender : AddsOnly (Call.Fits s.params.cap) s (releaseRender s).1 := hc.fits.congr rfl rfl
  rcases releaseHandle_cases explicit ha with ⟨st, -, -, -, e⟩ | ⟨c, -, e⟩ | ⟨-, e⟩ <;> rw [e]
  · have hp : (releaseRender s).1.params = s.params := hc.params
    have htear := fits_trelease hc.inv (hc.txReleased.trans hx)
    rw [hp] at htear
    rcases teardown_cases st (releaseRender s).1 with ⟨-, e⟩ | ⟨-, e⟩ <;> rw [e]
    · exact (hrender.trans htear).trans (addsOnly_response rfl)
    · exact hrender.trans htear
  · exact hrender.trans (addsOnly_response rfl)
  · exact hrender

/-- Every transmission of a command has 1 to CAP bytes. -/
theorem Ends.fits {i : Instr} {s t : State} (he : Ends i s t) (h : s.Resting) (hrun : s.hung = false) :
    AddsOnly (Call.Fits s.params.cap) s t := by
  cases he with
  | halted => exact addsOnly_response rfl
  | faulted => exact addsOnly_response rfl
  | read => exact addsOnly_response rfl
  | stored => exact addsOnly_response rfl
  | got => exact addsOnly_response rfl
  | ran r _ hi => exact (carried_of_command h.toTransportInv hi).fits.trans (addsOnly_endCommand r)
  | flag => exact addsOnly_response rfl
  | bitbang count pd pc =>
    refine addsOnly_construct (fits_gpioRelease _) (fun c hc => ?_) (fun _ => by rfl) s
    rintro _ e
    simp only [bitbangCalls, List.mem_cons, List.not_mem_nil, or_false] at hc
    rcases hc with rfl | rfl | rfl | rfl <;> cases e
  | bus count hz =>
    refine addsOnly_construct (fits_gpioRelease _) (fun c hc => ?_) (fun _ => by rfl) s
    rintro _ e
    obtain rfl := List.mem_singleton.mp hc
    cases e
  | noop => exact addsOnly_response rfl
  | release b hs => exact fits_releaseHandle b h.toTransportInv hs.2 (h.active_transport hs.2 hrun)

/-- Settles O36: an idle step and a refusal make no call, and every call of a command fits. -/
theorem busWritesCarryOneToCapBytes : Obligations.BusWritesCarryOneToCapBytes := by
  intro s t h hstep
  have hfits : AddsOnly (Call.Fits s.params.cap) s t := by
    obtain ⟨hrun, ⟨-, rfl⟩ | ⟨i, rest, -, he⟩ | ⟨rest, -, rfl⟩⟩ := step_cases hstep
    · exact .refl _
    · exact he.fits (h.withCmds rest).resting hrun
    · rcases refuseIllegal_cases { s with cmds := rest } with ⟨-, e⟩ | ⟨-, e⟩ <;> rw [e] <;>
        exact addsOnly_response rfl
  obtain ⟨added, htr, hadded⟩ := hfits
  exact ⟨added, htr, fun bytes d hm => hadded _ d hm bytes rfl⟩

end Sys2Proof.Machine
end

section
/-! PROOFS. What a failed call did all the same is invisible to the block (decision D43, 20_memory.md R56, R57): every
operation takes states alike but for the drawn effects to states alike, with the same outcome. -/

namespace Sys2Proof.Machine

/-! ## States alike but for the drawn effects -/

/-- The same event, but for the effect drawn for a call. -/
def SameOutcome (e e' : Event) : Prop :=
  e = e' ∨ ∃ c d d', e = .call c d ∧ e' = .call c d' ∧ d.result = d'.result

/-- States that differ in drawn effects only: in the answers to come and in the trace. -/
def Alike (s s' : State) : Prop :=
  ∃ ds tr, s' = { s with draws := ds, trace := tr } ∧ ds.map (·.result) = s.draws.map (·.result) ∧
    List.Forall₂ SameOutcome s.trace tr

/-- The same outcome of a micro-operation, in states alike. -/
def AlikeRes (r r' : State × Res) : Prop := Alike r.1 r'.1 ∧ r'.2 = r.2

theorem forall₂_sameOutcome_refl (es : List Event) : List.Forall₂ SameOutcome es es :=
  List.forall₂_same.mpr fun _ _ => .inl rfl

/-- What does not read the answers or the trace reads the same. -/
theorem Alike.read {α : Sort*} {s s' : State} (h : Alike s s') (f : State → α)
    (hf : ∀ s ds tr, f { s with draws := ds, trace := tr } = f s) : f s' = f s := by
  obtain ⟨ds, tr, rfl, -⟩ := h
  exact hf s ds tr

/-- An update of other fields keeps states alike. -/
theorem Alike.update {s s' : State} (h : Alike s s') (g : State → State) (hd : ∀ s, (g s).draws = s.draws)
    (ht : ∀ s, (g s).trace = s.trace)
    (hg : ∀ s ds tr, g { s with draws := ds, trace := tr } = { g s with draws := ds, trace := tr }) :
    Alike (g s) (g s') := by
  obtain ⟨ds, tr, rfl, hds, htr⟩ := h
  exact ⟨ds, tr, hg s ds tr, by rw [hd, hds], by rw [ht]; exact htr⟩

/-- So does the same response. -/
theorem Alike.respond {s s' : State} (h : Alike s s') (st : Status) (data : Word) :
    Alike (respond st data s) (respond st data s') := by
  obtain ⟨ds, tr, rfl, hds, htr⟩ := h
  exact ⟨ds, _, rfl, hds, List.rel_append htr (forall₂_sameOutcome_refl _)⟩

theorem Alike.finish {s s' : State} (h : Alike s s') (st : Status) (data : Word) :
    Alike (finish st data s) (finish st data s') :=
  (h.respond st data).update (fun s => { s with status := st }) (fun _ => rfl) (fun _ => rfl) fun _ _ _ => rfl

theorem Alike.raiseFault {s s' : State} (h : Alike s s') (c : FaultCode) : Alike (raiseFault c s) (raiseFault c s') :=
  (h.respond (.fault c) 0).update (fun s => { s with fault := some c, status := .fault c }) (fun _ => rfl) (fun _ => rfl)
    fun _ _ _ => rfl

theorem Alike.setSeq {s s' : State} (h : Alike s s') (p : SeqPos) : Alike (setSeq p s) (setSeq p s') :=
  h.update _ (fun _ => rfl) (fun _ => rfl) fun _ _ _ => rfl

theorem Alike.res {s s' : State} (h : Alike s s') (r : Res) : AlikeRes (s, r) (s', r) := ⟨h, rfl⟩

/-- Micro-operations in sequence. -/
theorem AlikeRes.andThen {r r' : State × Res} {f f' : State → State × Res} (h : AlikeRes r r')
    (hf : ∀ s s', Alike s s' → AlikeRes (f s) (f' s')) : AlikeRes (andThen r f) (andThen r' f') := by
  by_cases hr : r.2 = .ok
  · rw [andThen_of_ok hr, andThen_of_ok (h.2.trans hr)]; exact hf _ _ h.1
  · rw [andThen_of_ne hr, andThen_of_ne (by rw [h.2]; exact hr)]; exact h

/-- A branch on what reads the same. -/
theorem AlikeRes.ite {p p' : Prop} [Decidable p] [Decidable p'] {a b a' b' : State × Res} (hp : p' = p)
    (ha : AlikeRes a a') (hb : AlikeRes b b') : AlikeRes (if p then a else b) (if p' then a' else b') := by
  by_cases h : p
  · rw [if_pos h, if_pos (hp ▸ h)]; exact ha
  · rw [if_neg h, if_neg (hp ▸ h)]; exact hb

/-- The end of a micro-operation's command. -/
theorem AlikeRes.endCommand {r r' : State × Res} (h : AlikeRes r r') : Alike (endCommand r) (endCommand r') := by
  unfold Machine.endCommand
  rw [h.2]
  cases r.2 with
  | ok => exact (h.1.setSeq _).finish _ _
  | err k => exact (h.1.setSeq _).finish _ _
  | fault c => exact (h.1.setSeq _).raiseFault _
  | hang => exact h.1

/-! ## Calls -/

/-- The outcome of the next call does not depend on its effect. -/
theorem Alike.draw_result {s s' : State} (h : Alike s s') : (s'.drawAt 0).result = (s.drawAt 0).result := by
  obtain ⟨ds, tr, rfl, hds, -⟩ := h
  simp only [State.drawAt, ← Option.getD_map (f := Draw.result), ← List.getElem?_map, hds]

theorem Alike.collab {s s' : State} (h : Alike s s') (c : Call) :
    Alike (collab c s).1 (collab c s').1 ∧ (collab c s').2 = (collab c s).2 := by
  have hres := h.draw_result
  refine ⟨?_, by show c.resultOf _ = c.resultOf _; rw [Call.resultOf, Call.resultOf, hres]⟩
  obtain ⟨ds, tr, rfl, hds, htr⟩ := h
  refine ⟨ds.tail, _, by simp only [Machine.collab, hres]; rfl, by simp [hds], ?_⟩
  exact List.rel_append htr (.cons (.inr ⟨c, _, _, rfl, rfl, hres.symm⟩) .nil)

theorem Alike.tryCall {s s' : State} (h : Alike s s') {c c' : Call} (hc : c' = c) :
    AlikeRes (tryCall c s) (tryCall c' s') := by
  subst hc
  exact ⟨(h.collab c').1, congrArg CallResult.toRes (h.collab c').2⟩

theorem Alike.ignoreCall {s s' : State} (h : Alike s s') {c c' : Call} (hc : c' = c) :
    AlikeRes (ignoreCall c s) (ignoreCall c' s') :=
  ⟨(h.tryCall hc).1, congrArg Res.ignored (h.tryCall hc).2⟩

theorem Alike.runCalls {s s' : State} (h : Alike s s') (cs : List Call) : AlikeRes (runCalls cs s) (runCalls cs s') := by
  induction cs generalizing s s' with
  | nil => exact h.res _
  | cons c rest ih => exact (h.tryCall rfl).andThen fun _ _ => ih

/-! ## The transports and the frame -/

theorem Alike.twriteBitbang {s s' : State} (h : Alike s s') (bytes : List Byte) :
    AlikeRes (twriteBitbang bytes s) (twriteBitbang bytes s') := by
  rw [twriteBitbang_eq, twriteBitbang_eq, h.read (State.bitbangCallsOf · bytes) fun _ _ _ => rfl]
  exact h.runCalls _

theorem Alike.sendHeld {s s' : State} (h : Alike s s') : AlikeRes (sendHeld s) (sendHeld s') :=
  (h.tryCall (h.read (fun s => Call.busWrite (heldBytes s)) fun _ _ _ => rfl)).andThen fun _ _ k =>
    (k.update (fun s => { s with idx := 0 }) (fun _ => rfl) (fun _ => rfl) fun _ _ _ => rfl).res _

theorem Alike.appendByte {s s' : State} (h : Alike s s') (v : Byte) : AlikeRes (appendByte v s) (appendByte v s') := by
  have happ := h.update (fun s => { s with buf := bufWrite s.buf s.idx v, idx := s.idx + 1 }) (fun _ => rfl)
    (fun _ => rfl) fun _ _ _ => rfl
  exact .ite (h.read (fun s => s.idx = s.params.cap) fun _ _ _ => rfl) (h.res _)
    (.ite (h.read (fun s => s.idx + 1 = s.params.cap) fun _ _ _ => rfl) happ.sendHeld (happ.res _))

theorem Alike.twriteBus {s s' : State} (h : Alike s s') (bytes : List Byte) :
    AlikeRes (twriteBus bytes s) (twriteBus bytes s') := by
  induction bytes generalizing s s' with
  | nil => exact h.res _
  | cons v rest ih => exact (h.appendByte v).andThen fun _ _ => ih

theorem Alike.backend_eq {s s' : State} (h : Alike s s') : s'.backend = s.backend := h.read _ fun _ _ _ => rfl

theorem Alike.twrite {s s' : State} (h : Alike s s') (bytes : List Byte) :
    AlikeRes (twrite bytes s) (twrite bytes s') := by
  unfold Machine.twrite
  rw [h.backend_eq]
  cases s.backend with
  | bitbang => exact h.twriteBitbang bytes
  | bus => exact h.twriteBus bytes

theorem Alike.tflush {s s' : State} (h : Alike s s') : AlikeRes (tflush s) (tflush s') := by
  unfold Machine.tflush
  rw [h.backend_eq]
  cases s.backend with
  | bitbang => exact h.res _
  | bus => exact .ite (h.read (fun s => s.idx = 0) fun _ _ _ => rfl) (h.res _) h.sendHeld

theorem Alike.treleaseBitbang {s s' : State} (h : Alike s s') :
    AlikeRes (treleaseBitbang s) (treleaseBitbang s') := by
  have hmark := h.update (fun s => { s with txReleased := true }) (fun _ => rfl) (fun _ => rfl) fun _ _ _ => rfl
  exact .ite (h.read (fun s => s.txReleased = true) fun _ _ _ => rfl) (h.res _)
    ((hmark.ignoreCall (h.read (fun s => Call.gpioRelease s.pinData) fun _ _ _ => rfl)).andThen fun _ _ k =>
      k.ignoreCall (k.read (fun s => Call.gpioRelease s.pinClock) fun _ _ _ => rfl))

theorem Alike.treleaseBus {s s' : State} (h : Alike s s') : AlikeRes (treleaseBus s) (treleaseBus s') := by
  have hmark := h.update (fun s => { s with txReleased := true, idx := 0 }) (fun _ => rfl) (fun _ => rfl)
    fun _ _ _ => rfl
  exact .ite (h.read (fun s => s.txReleased = true) fun _ _ _ => rfl) (h.res _) (hmark.res _)

theorem Alike.trelease {s s' : State} (h : Alike s s') : AlikeRes (trelease s) (trelease s') := by
  unfold Machine.trelease
  rw [h.backend_eq]
  cases s.backend with
  | bitbang => exact h.treleaseBitbang
  | bus => exact h.treleaseBus

theorem Alike.sendFrame {s s' : State} (h : Alike s s') (bytes : List (SeqPos × Byte)) :
    AlikeRes (sendFrame bytes s) (sendFrame bytes s') := by
  induction bytes generalizing s s' with
  | nil => exact h.res _
  | cons b rest ih => exact ((h.setSeq b.1).twrite [b.2]).andThen fun _ _ => ih

theorem Alike.render {s s' : State} (h : Alike s s') : AlikeRes (render s) (render s') := by
  rw [Machine.render, Machine.render, h.read frame fun _ _ _ => rfl]
  exact (h.sendFrame _).andThen fun _ _ k => (k.setSeq .flush).tflush.andThen fun _ _ l => (l.setSeq .idle).res _

/-! ## Construction and release -/

theorem Alike.releasePins {s s' : State} (h : Alike s s') (pins : List Byte) :
    AlikeRes (releasePins pins s) (releasePins pins s') := by
  induction pins generalizing s s' with
  | nil => exact h.res _
  | cons p rest ih => exact (h.ignoreCall rfl).andThen fun _ _ => ih

theorem Alike.initFail {s s' : State} (h : Alike s s') (k : ErrKind) (pins : List Byte) :
    Alike (initFail k pins s) (initFail k pins s') := by
  have hp := h.releasePins pins
  unfold Machine.initFail
  rw [hp.2]
  split
  · exact hp.1.finish _ _
  · exact hp.1.finish _ _
  · exact hp.1.finish _ _
  · exact hp.1

theorem Alike.construct {s s' : State} (h : Alike s s') (calls : List (Call × List Byte)) {complete : State → State}
    (hc : ∀ s s', Alike s s' → Alike (complete s) (complete s')) :
    Alike (construct calls complete s) (construct calls complete s') := by
  induction calls generalizing s s' with
  | nil => exact (hc _ _ h).finish _ _
  | cons c rest ih =>
    obtain ⟨hs, hr⟩ := h.collab c.1
    rw [Machine.construct, Machine.construct, hr]
    split
    · exact ih hs
    · exact hs.initFail _ _
    · exact hs

theorem Alike.constructBitbang {s s' : State} (h : Alike s s') (count : Nat) (pd pc : Byte) :
    Alike (constructBitbang count pd pc s) (constructBitbang count pd pc s') :=
  h.construct _ fun _ _ k => k.update (fun s => { initCommon .bitbang count s with pinData := pd, pinClock := pc })
    (fun _ => rfl) (fun _ => rfl) fun _ _ _ => rfl

theorem Alike.constructBus {s s' : State} (h : Alike s s') (count : Nat) (hz : Word) :
    Alike (constructBus count hz s) (constructBus count hz s') := by
  unfold Machine.constructBus
  rw [h.read State.params fun _ _ _ => rfl]
  exact h.construct _ fun _ _ k => k.update (fun s => { initCommon .bus count s with clockHz := hz })
    (fun _ => rfl) (fun _ => rfl) fun _ _ _ => rfl

theorem Alike.teardown {s s' : State} (h : Alike s s') (st : Status) : Alike (teardown st s) (teardown st s') := by
  have ht := h.trelease
  have hend := ht.1.update (fun s => { s with life := .released, seq := .idle }) (fun _ => rfl) (fun _ => rfl)
    fun _ _ _ => rfl
  unfold Machine.teardown
  rw [ht.2]
  split
  · exact hend.finish _ _
  · exact hend.finish _ _
  · exact hend.finish _ _
  · exact ht.1

theorem Alike.releaseRender {s s' : State} (h : Alike s s') : AlikeRes (releaseRender s) (releaseRender s') := by
  have hclear := h.update (fun s => { s with pix := clearColours s.n s.pix }) (fun _ => rfl) (fun _ => rfl)
    fun _ _ _ => rfl
  exact .ite (h.read (fun s => s.cor = true) fun _ _ _ => rfl) hclear.render (h.res _)

theorem Alike.releaseHandle {s s' : State} (h : Alike s s') (explicit : Bool) :
    Alike (releaseHandle explicit s) (releaseHandle explicit s') := by
  have hr := h.releaseRender
  unfold Machine.releaseHandle
  rw [h.read State.life fun _ _ _ => rfl, hr.2]
  cases s.life with
  | released => exact h.finish _ _
  | unconfigured | active =>
    dsimp only
    split
    · exact hr.1.teardown _
    · exact hr.1.teardown _
    · exact (hr.1.setSeq _).raiseFault _
    · exact hr.1

/-! ## The commands -/

theorem Alike.checked {s s' : State} (h : Alike s s') (cls : CmdClass) {rf rf' : Option FaultCode} (hrf : rf' = rf)
    {body body' : State → State} (hb : Alike (body s) (body' s')) :
    Alike (checked cls rf body s) (checked cls rf' body' s') := by
  unfold Machine.checked
  rw [h.read State.fault fun _ _ _ => rfl, h.read State.life fun _ _ _ => rfl, hrf]
  split
  · exact h.respond _ _
  · split
    · exact h.raiseFault _
    · split
      · exact h.raiseFault _
      · exact hb

theorem Alike.storePixelBytes {s s' : State} (h : Alike s s') (a : Nat) (bytes : List Byte) :
    Alike (storePixelBytes a bytes s) (storePixelBytes a bytes s') :=
  (h.update (fun s => { s with pix := pixWriteBytes s.pix a bytes }) (fun _ => rfl) (fun _ => rfl)
    fun _ _ _ => rfl).finish _ _

/-- Every command takes states alike to states alike. -/
theorem Alike.exec {s s' : State} (h : Alike s s') (i : Instr) :
    ∃ t t', exec i s = .next t ∧ exec i s' = .next t' ∧ Alike t t' := by
  have hindex (x : Nat) : indexFault x s' = indexFault x s := h.read (indexFault x) fun _ _ _ => rfl
  have hpins (count : Nat) (pd pc : Byte) : pinsFault count pd pc s' = pinsFault count pd pc s :=
    h.read (pinsFault count pd pc) fun _ _ _ => rfl
  cases i with
  | initdef =>
    have hp : s'.params = s.params := h.read _ fun _ _ _ => rfl
    exact ⟨_, _, rfl, rfl, h.checked _ (by rw [hp]; exact hpins _ _ _) (by rw [hp]; exact h.constructBitbang _ _ _)⟩
  | initbb count pd pc => exact ⟨_, _, rfl, rfl, h.checked _ (hpins _ _ _) (h.constructBitbang _ _ _)⟩
  | initbus count hz =>
    have hcount : countFault count s' = countFault count s := h.read (countFault count) fun _ _ _ => rfl
    exact ⟨_, _, rfl, rfl, h.checked _ hcount (h.constructBus _ _)⟩
  | setrgb x red green blue => exact ⟨_, _, rfl, rfl, h.checked _ (hindex x) (h.storePixelBytes _ _)⟩
  | setbri x level => exact ⟨_, _, rfl, rfl, h.checked _ (hindex x) (h.storePixelBytes _ _)⟩
  | setrgbb x red green blue level => exact ⟨_, _, rfl, rfl, h.checked _ (hindex x) (h.storePixelBytes _ _)⟩
  | getpix x =>
    have hword : pixWord s'.pix x = pixWord s.pix x := h.read (pixWord ·.pix x) fun _ _ _ => rfl
    exact ⟨_, _, rfl, rfl, h.checked _ (hindex x) (by rw [hword]; exact h.finish _ _)⟩
  | render => exact ⟨_, _, rfl, rfl, h.checked _ rfl h.render.endCommand⟩
  | txwr v => exact ⟨_, _, rfl, rfl, h.checked _ rfl (h.twrite _).endCommand⟩
  | flush => exact ⟨_, _, rfl, rfl, h.checked _ rfl h.tflush.endCommand⟩
  | setcor b =>
    have hcor := h.update (fun s => { s with cor := b }) (fun _ => rfl) (fun _ => rfl) fun _ _ _ => rfl
    exact ⟨_, _, rfl, rfl, h.checked _ rfl (hcor.finish _ _)⟩
  | rdreg g =>
    have hreg : s'.readReg g = s.readReg g := h.read (State.readReg · g) fun _ _ _ => rfl
    exact ⟨_, _, rfl, rfl, by rw [hreg]; exact h.respond _ _⟩
  | release => exact ⟨_, _, rfl, rfl, h.checked _ rfl (h.releaseHandle _)⟩
  | drop => exact ⟨_, _, rfl, rfl, h.checked _ rfl (h.releaseHandle _)⟩

/-- However a command settles, it only adds to the trace. -/
theorem Settled.trace_extends {i : Instr} {s t : State} (h : Settled i s t) : ∃ added, t.trace = s.trace ++ added := by
  cases h with
  | halted _ _ e => exact ⟨_, by rw [e, respond_trace]⟩
  | read _ _ e => exact ⟨_, by rw [e, respond_trace]⟩
  | answered _ st data cs u htr _ _ _ _ e =>
    exact ⟨s.callEvents cs ++ [.response st data], by rw [e, finish_trace, htr, List.append_assoc]⟩
  | faulted _ c cs u htr _ _ e =>
    exact ⟨s.callEvents cs ++ [.response (.fault c) 0], by rw [e, raiseFault_trace, htr, List.append_assoc]⟩
  | hung _ cs htr => exact ⟨_, htr⟩

theorem exec_trace_extends {i : Instr} {s t : State} (h : exec i s = .next t) : ∃ added, t.trace = s.trace ++ added := by
  obtain ⟨u, hu, he⟩ := exec_ends i s
  rw [hu] at h
  injection h with h
  exact h ▸ he.settled.trace_extends

/-- Settles O38: the two runs begin and end in states alike, and what each adds to the common trace is alike. -/
theorem effectOfFailedCallIsInvisible : Obligations.EffectOfFailedCallIsInvisible := by
  intro i s ds hds
  have hstart : Alike s { s with draws := ds } := ⟨ds, s.trace, rfl, hds, forall₂_sameOutcome_refl _⟩
  obtain ⟨t, t', ht, ht', hend⟩ := hstart.exec i
  obtain ⟨added, hadded⟩ := exec_trace_extends ht
  obtain ⟨added', hadded'⟩ := exec_trace_extends ht'
  obtain ⟨ds', tr, rfl, hds', htr⟩ := hend
  refine ⟨t, _, ht, ht', rfl, hds', added, added', hadded, hadded', ?_⟩
  have hdrop := List.forall₂_drop s.trace.length htr
  rw [hadded, show tr = s.trace ++ added' from hadded', List.drop_left, List.drop_left] at hdrop
  exact hdrop

end Sys2Proof.Machine
end

section
/-! PROOFS. The pixel store's content decides its canonical form (10_state.md R36, 20_memory.md R51). -/

namespace Sys2Proof.Machine

/-- No address is listed twice, so a listed byte is the one stored there. -/
theorem stored_of_mem {m : Memory} (h : m.Rising) {c : Host.Cell} (hc : c ∈ m) : m.stored c.1 = some c.2 := by
  induction m with
  | nil => simp at hc
  | cons d m ih =>
    obtain ⟨hd, hm⟩ := List.pairwise_cons.mp h
    rw [stored_cons]
    rcases List.mem_cons.mp hc with rfl | hc
    · rw [if_pos rfl]
    · rw [if_neg (hd c hc).ne, ih hm hc]

/-- In canonical form the bytes listed are the ones that read as another byte than the default. -/
theorem mem_iff_of_pixWf {m : Memory} (h : pixWf m) (c : Host.Cell) :
    c ∈ m ↔ pixRead m c.1 = c.2 ∧ c.2 ≠ pixDefault c.1 := by
  constructor
  · exact fun hc => ⟨by rw [pixRead, stored_of_mem h.1 hc, Option.getD_some], h.2 c hc⟩
  · rintro ⟨hread, hne⟩
    cases hs : m.stored c.1 with
    | none => exact absurd (by rw [← hread, pixRead, hs, Option.getD_none]) hne
    | some v =>
      have hv : v = c.2 := by rw [← hread, pixRead, hs, Option.getD_some]
      exact mem_of_stored m c.1 c.2 (hv ▸ hs)

/-- Settles O25: stores that read alike list the same bytes, and rising addresses leave one order for them. -/
theorem canonicalPixelStoreIsItsContent : Obligations.CanonicalPixelStoreIsItsContent := by
  intro m m' h h' hread
  have : Std.Irrefl fun c d : Host.Cell => c.1 < d.1 := ⟨fun _ => lt_irrefl _⟩
  refine h.1.eq_of_mem_iff h'.1 fun c => ?_
  rw [mem_iff_of_pixWf h, mem_iff_of_pixWf h', hread]

end Sys2Proof.Machine
end

section
/-! PROOFS. What a step leaves of a fault recorded before it (10_state.md R28) and of the handle (R30 to R34). -/

namespace Sys2Proof.Machine

/-- The rule of a recorded fault (R28): it stays, and one is recorded only with its response. -/
def FaultKept (s t : State) : Prop :=
  (∀ c, s.fault = some c → t.fault = some c) ∧
  (∀ c, s.fault = none → t.fault = some c → t.trace.getLast? = some (.response (.fault c) 0) ∧ t.status = .fault c)

theorem faultKept_of_eq {s t : State} (h : t.fault = s.fault) : FaultKept s t :=
  ⟨fun _ hc => h.trans hc, fun c hs hc => by simp [h, hs] at hc⟩

/-- A fault is raised where none was recorded, whatever was done before it. -/
theorem faultKept_raiseFault {s : State} (h : s.fault = none) (c : FaultCode) (u : State) :
    FaultKept s (raiseFault c u) := by
  refine ⟨fun _ hc => by simp [h] at hc, fun d _ hd => ?_⟩
  obtain rfl : c = d := by simpa using hd
  simp

/-- However a command settles, only `raiseFault` writes the fault. -/
theorem Settled.faultKept {i : Instr} {s t : State} (h : Settled i s t) : FaultKept s t := by
  cases h with
  | halted _ _ e => exact faultKept_of_eq (e ▸ respond_fault _ _ _)
  | read _ _ e => exact faultKept_of_eq (e ▸ respond_fault _ _ _)
  | answered hf st data _ u _ _ hfu _ _ e => exact faultKept_of_eq (by rw [e, finish_fault, hfu, hf])
  | faulted hf c _ u _ _ _ e => exact e ▸ faultKept_raiseFault hf c u
  | hung hf _ _ _ hft => exact faultKept_of_eq (hft.trans hf.symm)

theorem faultKept_refuseIllegal (s : State) : FaultKept s (refuseIllegal s) := by
  rcases refuseIllegal_cases s with ⟨-, e⟩ | ⟨hf, e⟩ <;> rw [e]
  · exact faultKept_of_eq rfl
  · exact faultKept_raiseFault hf _ s

/-- Settles O12: an idle step changes nothing, a command settles, and a refusal of words raises IllegalCommand or nothing. -/
theorem recordedFaultIsSticky : Obligations.RecordedFaultIsSticky := by
  refine ⟨fun s t h => ?_, fun s => powerOn_fault s⟩
  obtain ⟨-, ⟨-, rfl⟩ | ⟨i, rest, -, he⟩ | ⟨rest, -, rfl⟩⟩ := step_cases h
  · exact faultKept_of_eq rfl
  · exact he.settled.faultKept
  · exact faultKept_refuseIllegal { s with cmds := rest }

/-- No command writes a parameter. -/
theorem Settled.params {i : Instr} {s t : State} (h : Settled i s t) : t.params = s.params := by
  cases h with
  | halted _ _ e => rw [e, respond_params]
  | read _ _ e => rw [e, respond_params]
  | answered _ _ _ _ _ _ _ _ _ _ _ hp => exact hp
  | faulted _ _ _ _ _ _ _ _ hp => exact hp
  | hung _ _ _ _ _ _ _ _ hp => exact hp

/-- A command keeps the handle's fields, or is a construction that succeeded. -/
theorem Settled.sameHandle_or_constructed {i : Instr} {s t : State} (h : Settled i s t) :
    SameHandle s t ∨ (i.opcode = 0x01#8 ∨ i.opcode = 0x02#8 ∨ i.opcode = 0x03#8) ∧
      s.life ≠ .active ∧ t.life = .active ∧ t.status = .ok := by
  cases h with
  | halted _ _ e => exact .inl (e ▸ .refl s)
  | read _ _ e => exact .inl (e ▸ .refl s)
  | answered _ st data _ u _ _ _ _ _ e _ _ hs =>
    rcases hs with ⟨hsame, -⟩ | ⟨hlife, hst, hop, hactive⟩
    · exact .inl hsame
    · exact .inr ⟨hop, hlife, hactive, by rw [e, finish_status, hst]⟩
  | faulted _ _ _ _ _ _ _ _ _ _ hs => exact .inl hs.1
  | hung _ _ _ _ _ _ _ _ _ _ hs => exact .inl hs.1

theorem refuseIllegal_keeps_handle (s : State) :
    (refuseIllegal s).params = s.params ∧ SameHandle s (refuseIllegal s) := by
  rcases refuseIllegal_cases s with ⟨-, e⟩ | ⟨-, e⟩ <;> rw [e] <;> exact ⟨rfl, .refl s⟩

/-- Settles O14: idle steps and refusals keep the handle, and so does every command but a construction that succeeded. -/
theorem handleIsFixedForItsLifetime : Obligations.HandleIsFixedForItsLifetime := by
  refine ⟨fun s t h => ?_, rfl⟩
  obtain ⟨-, ⟨-, rfl⟩ | ⟨i, rest, hd, he⟩ | ⟨rest, -, rfl⟩⟩ := step_cases h
  · exact ⟨rfl, fun hne => absurd (SameHandle.refl t) hne⟩
  · refine ⟨he.settled.params, fun hne => ?_⟩
    rcases he.settled.sameHandle_or_constructed with hsame | hbuilt
    · exact absurd hsame hne
    · exact ⟨i, rest, hd, hbuilt⟩
  · obtain ⟨hp, hsame⟩ := refuseIllegal_keeps_handle { s with cmds := rest }
    exact ⟨hp, fun hne => absurd hsame hne⟩

end Sys2Proof.Machine
end

section
/-! PROOFS. What T holds at or beyond `idx` is unobservable (10_state.md R41): every operation takes states that hold the
same bytes to states that hold the same bytes, with the same outcome. -/

namespace Sys2Proof.Machine

/-! ## States that hold the same bytes -/

/-- States that differ only in bytes of `buf` that are not held. -/
def SameHeld (s s' : State) : Prop :=
  ∃ m, s' = { s with buf := m } ∧ ∀ j < s.idx, bufRead m j = bufRead s.buf j

/-- What is read of the state does not depend on `buf`. -/
def ReadsNoBuf {α : Sort*} (r : State → α) : Prop := ∀ s m, r { s with buf := m } = r s

/-- A change of the state depends on no byte of `buf` but the held ones. -/
def HeldOnly (g : State → State) : Prop := ∀ ⦃s s'⦄, SameHeld s s' → SameHeld (g s) (g s')

/-- The same of a micro-operation and its outcome. -/
def HeldOnlyRes (f : State → State × Res) : Prop :=
  ∀ ⦃s s'⦄, SameHeld s s' → SameHeld (f s).1 (f s').1 ∧ (f s').2 = (f s).2

theorem ReadsNoBuf.eq {α : Sort*} {r : State → α} (hr : ReadsNoBuf r) {s s' : State} (h : SameHeld s s') :
    r s' = r s := by
  obtain ⟨m, rfl, -⟩ := h
  exact hr s m

theorem SameHeld.heldBytes_eq {s s' : State} (h : SameHeld s s') : heldBytes s' = heldBytes s := by
  obtain ⟨m, rfl, hm⟩ := h
  exact List.map_congr_left fun j hj => hm j (List.mem_range.mp hj)

/-! ## Changes of the state -/

/-- A change that passes `buf` through and holds no more bytes than before. -/
theorem heldOnly_of_passes {g : State → State} (hg : ∀ s m, g { s with buf := m } = { g s with buf := m })
    (hidx : ∀ s, (g s).idx ≤ s.idx) : HeldOnly g := by
  rintro s _ ⟨m, rfl, hm⟩
  have hbuf : (g s).buf = s.buf := congrArg (fun u => u.buf) (hg s s.buf)
  exact ⟨m, hg s m, fun j hj => by rw [hbuf]; exact hm j (hj.trans_le (hidx s))⟩

theorem heldOnly_respond (st : Status) (data : Word) : HeldOnly (respond st data) :=
  heldOnly_of_passes (fun _ _ => rfl) fun _ => le_rfl

theorem heldOnly_finish (st : Status) (data : Word) : HeldOnly (finish st data) :=
  heldOnly_of_passes (fun _ _ => rfl) fun _ => le_rfl

theorem heldOnly_raiseFault (c : FaultCode) : HeldOnly (raiseFault c) :=
  heldOnly_of_passes (fun _ _ => rfl) fun _ => le_rfl

theorem heldOnly_setSeq (p : SeqPos) : HeldOnly (setSeq p) :=
  heldOnly_of_passes (fun _ _ => rfl) fun _ => le_rfl

/-- Appending a byte makes that byte held, and the same one in both states. -/
theorem heldOnly_append (v : Byte) : HeldOnly fun s => { s with buf := bufWrite s.buf s.idx v, idx := s.idx + 1 } := by
  rintro s _ ⟨m, rfl, hm⟩
  refine ⟨bufWrite m s.idx v, rfl, fun j hj => ?_⟩
  rw [bufRead_bufWrite, bufRead_bufWrite]
  split
  · rfl
  · exact hm j (by have : j < s.idx + 1 := hj; omega)

theorem HeldOnly.comp {g k : State → State} (hk : HeldOnly k) (hg : HeldOnly g) : HeldOnly fun s => k (g s) :=
  fun _ _ h => hk (hg h)

/-- A change may also depend on what is read besides `buf`. -/
theorem HeldOnly.read {α : Type*} {g : α → State → State} (hg : ∀ a, HeldOnly (g a)) {r : State → α}
    (hr : ReadsNoBuf r) : HeldOnly fun s => g (r s) s := fun s s' h => by
  dsimp only
  rw [hr.eq h]
  exact hg _ h

/-! ## Micro-operations in general -/

theorem HeldOnly.withRes {g : State → State} (hg : HeldOnly g) (q : Res) : HeldOnlyRes fun s => (g s, q) :=
  fun _ _ h => ⟨hg h, rfl⟩

theorem heldOnlyRes_pure (q : Res) : HeldOnlyRes fun s => (s, q) := fun _ _ h => ⟨h, rfl⟩

theorem HeldOnlyRes.comp {f : State → State × Res} {g : State → State} (hf : HeldOnlyRes f) (hg : HeldOnly g) :
    HeldOnlyRes fun s => f (g s) := fun _ _ h => hf (hg h)

theorem HeldOnlyRes.read {α : Type*} {f : α → State → State × Res} (hf : ∀ a, HeldOnlyRes (f a)) {r : State → α}
    (hr : ReadsNoBuf r) : HeldOnlyRes fun s => f (r s) s := fun s s' h => by
  dsimp only
  rw [hr.eq h]
  exact hf _ h

theorem HeldOnlyRes.andThen {f k : State → State × Res} (hf : HeldOnlyRes f) (hk : HeldOnlyRes k) :
    HeldOnlyRes fun s => andThen (f s) k := fun s s' h => by
  obtain ⟨hstate, hres⟩ := hf h
  dsimp only
  by_cases hok : (f s).2 = .ok
  · rw [andThen_of_ok hok, andThen_of_ok (hres.trans hok)]
    exact hk hstate
  · rw [andThen_of_ne hok, andThen_of_ne (hres ▸ hok)]
    exact ⟨hstate, hres⟩

/-- A branch on what does not depend on `buf`. -/
theorem HeldOnlyRes.ite {p : State → Prop} [DecidablePred p] {f k : State → State × Res} (hp : ReadsNoBuf p)
    (hf : HeldOnlyRes f) (hk : HeldOnlyRes k) : HeldOnlyRes fun s => if p s then f s else k s := fun s s' h => by
  have hps : p s' = p s := hp.eq h
  by_cases hs : p s
  · simp only [if_pos hs, if_pos (hps ▸ hs)]
    exact hf h
  · simp only [if_neg hs, if_neg (hps ▸ hs)]
    exact hk h

theorem HeldOnlyRes.endCommand {f : State → State × Res} (hf : HeldOnlyRes f) : HeldOnly fun s => endCommand (f s) := by
  intro s s' h
  obtain ⟨hstate, hres⟩ := hf h
  have hidle := heldOnly_setSeq .idle hstate
  simp only [Machine.endCommand, hres]
  cases (f s).2 with
  | ok => exact heldOnly_finish _ _ hidle
  | err k => exact heldOnly_finish _ _ hidle
  | fault c => exact heldOnly_raiseFault _ hidle
  | hang => exact hstate

/-! ## Calls -/

theorem heldOnly_collab (c : Call) : HeldOnly fun s => (collab c s).1 :=
  heldOnly_of_passes (fun _ _ => rfl) fun _ => le_rfl

/-- What a call returns is drawn, not read from `buf`. -/
theorem readsNoBuf_collab (c : Call) : ReadsNoBuf fun s => (collab c s).2 := fun _ _ => rfl

theorem heldOnlyRes_tryCall (c : Call) : HeldOnlyRes (tryCall c) := fun _ _ h =>
  ⟨heldOnly_collab c h, congrArg CallResult.toRes ((readsNoBuf_collab c).eq h)⟩

theorem heldOnlyRes_ignoreCall (c : Call) : HeldOnlyRes (ignoreCall c) := fun s s' h => by
  obtain ⟨hstate, hres⟩ := heldOnlyRes_tryCall c h
  exact ⟨hstate, congrArg Res.ignored hres⟩

theorem heldOnlyRes_runCalls (cs : List Call) : HeldOnlyRes (runCalls cs) := by
  induction cs with
  | nil => exact heldOnlyRes_pure _
  | cons c rest ih => exact (heldOnlyRes_tryCall c).andThen ih

/-! ## The transports and the frame -/

theorem heldOnlyRes_twriteBitbang (bytes : List Byte) : HeldOnlyRes (twriteBitbang bytes) := by
  rw [funext (twriteBitbang_eq bytes)]
  exact .read heldOnlyRes_runCalls fun _ _ => rfl

/-- A transmission takes exactly the held bytes. -/
theorem heldOnlyRes_sendHeld : HeldOnlyRes sendHeld := fun s s' h => by
  have hempty : HeldOnly fun s => { s with idx := 0 } := heldOnly_of_passes (fun _ _ => rfl) fun s => Nat.zero_le s.idx
  rw [sendHeld, sendHeld, h.heldBytes_eq]
  exact (heldOnlyRes_tryCall _).andThen (hempty.withRes .ok) h

theorem heldOnlyRes_appendByte (v : Byte) : HeldOnlyRes (appendByte v) :=
  .ite (fun _ _ => rfl) (heldOnlyRes_pure _)
    (.ite (fun _ _ => rfl) (heldOnlyRes_sendHeld.comp (heldOnly_append v)) ((heldOnly_append v).withRes _))

theorem heldOnlyRes_twriteBus (bytes : List Byte) : HeldOnlyRes (twriteBus bytes) := by
  induction bytes with
  | nil => exact heldOnlyRes_pure _
  | cons v rest ih => exact (heldOnlyRes_appendByte v).andThen ih

theorem heldOnlyRes_tflushBus : HeldOnlyRes tflushBus :=
  .ite (fun _ _ => rfl) (heldOnlyRes_pure _) heldOnlyRes_sendHeld

theorem heldOnlyRes_treleaseBitbang : HeldOnlyRes treleaseBitbang := by
  have hmark : HeldOnly fun s => { s with txReleased := true } := heldOnly_of_passes (fun _ _ => rfl) fun _ => le_rfl
  have hdata : HeldOnlyRes fun s => ignoreCall (.gpioRelease s.pinData) { s with txReleased := true } :=
    .read (fun p => (heldOnlyRes_ignoreCall (.gpioRelease p)).comp hmark) fun _ _ => rfl
  have hclock : HeldOnlyRes fun s => ignoreCall (.gpioRelease s.pinClock) s :=
    .read (fun p => heldOnlyRes_ignoreCall (.gpioRelease p)) fun _ _ => rfl
  exact .ite (fun _ _ => rfl) (heldOnlyRes_pure _) (hdata.andThen hclock)

theorem heldOnlyRes_treleaseBus : HeldOnlyRes treleaseBus := by
  have hmark : HeldOnly fun s => { s with txReleased := true, idx := 0 } :=
    heldOnly_of_passes (fun _ _ => rfl) fun s => Nat.zero_le s.idx
  exact .ite (fun _ _ => rfl) (heldOnlyRes_pure _) (hmark.withRes _)

/-- An operation of the transport contract, by its two variants. -/
theorem heldOnlyRes_byBackend {f k : State → State × Res} (hf : HeldOnlyRes f) (hk : HeldOnlyRes k) :
    HeldOnlyRes fun s => match s.backend with
      | .bitbang => f s
      | .bus => k s := by
  intro s s' h
  have hb : s'.backend = s.backend := ReadsNoBuf.eq (fun _ _ => rfl) h
  simp only [hb]
  cases s.backend with
  | bitbang => exact hf h
  | bus => exact hk h

theorem heldOnlyRes_twrite (bytes : List Byte) : HeldOnlyRes (twrite bytes) :=
  heldOnlyRes_byBackend (heldOnlyRes_twriteBitbang bytes) (heldOnlyRes_twriteBus bytes)

theorem heldOnlyRes_tflush : HeldOnlyRes tflush := heldOnlyRes_byBackend (heldOnlyRes_pure _) heldOnlyRes_tflushBus

theorem heldOnlyRes_trelease : HeldOnlyRes trelease :=
  heldOnlyRes_byBackend heldOnlyRes_treleaseBitbang heldOnlyRes_treleaseBus

theorem heldOnlyRes_sendFrame (bytes : List (SeqPos × Byte)) : HeldOnlyRes (sendFrame bytes) := by
  induction bytes with
  | nil => exact heldOnlyRes_pure _
  | cons b rest ih => exact ((heldOnlyRes_twrite [b.2]).comp (heldOnly_setSeq b.1)).andThen ih

theorem heldOnlyRes_render : HeldOnlyRes render := by
  have hframe : HeldOnlyRes fun s => sendFrame (frame s) s := .read heldOnlyRes_sendFrame fun _ _ => rfl
  exact hframe.andThen ((heldOnlyRes_tflush.comp (heldOnly_setSeq .flush)).andThen ((heldOnly_setSeq .idle).withRes _))

/-! ## Construction and release -/

theorem heldOnlyRes_releasePins (pins : List Byte) : HeldOnlyRes (releasePins pins) := by
  induction pins with
  | nil => exact heldOnlyRes_pure _
  | cons p rest ih => exact (heldOnlyRes_ignoreCall _).andThen ih

theorem heldOnly_initFail (k : ErrKind) (pins : List Byte) : HeldOnly (initFail k pins) := by
  intro s s' h
  obtain ⟨hstate, hres⟩ := heldOnlyRes_releasePins pins h
  simp only [initFail, hres]
  cases (releasePins pins s).2 with
  | ok | err | fault => exact heldOnly_finish _ _ hstate
  | hang => exact hstate

theorem heldOnly_construct (calls : List (Call × List Byte)) {complete : State → State} (hc : HeldOnly complete) :
    HeldOnly (construct calls complete) := by
  induction calls with
  | nil => exact (heldOnly_finish .ok 0).comp hc
  | cons c rest ih =>
    intro s s' h
    have hstate := heldOnly_collab c.1 h
    have hres : (collab c.1 s').2 = (collab c.1 s).2 := (readsNoBuf_collab c.1).eq h
    simp only [construct, hres]
    cases (collab c.1 s).2 with
    | ok => exact ih hstate
    | err k => exact heldOnly_initFail _ _ hstate
    | noReturn => exact hstate

/-- A completed construction has forgotten the buffer. -/
theorem heldOnly_of_readsNoBuf {g : State → State} (hg : ReadsNoBuf g) : HeldOnly g := fun s s' h => by
  rw [hg.eq h]
  exact ⟨(g s).buf, rfl, fun _ _ => rfl⟩

theorem heldOnly_constructBitbang (count : Nat) (pd pc : Byte) : HeldOnly (constructBitbang count pd pc) :=
  heldOnly_construct _ (heldOnly_of_readsNoBuf fun _ _ => rfl)

theorem heldOnly_constructBus (count : Nat) (hz : Word) : HeldOnly (constructBus count hz) := fun s s' h => by
  have hparams : s'.params = s.params := ReadsNoBuf.eq (fun _ _ => rfl) h
  rw [constructBus, constructBus, hparams]
  exact heldOnly_construct _ (heldOnly_of_readsNoBuf fun _ _ => rfl) h

theorem heldOnly_teardown (st : Status) : HeldOnly (teardown st) := by
  have hend : HeldOnly fun s => finish st 0 { s with life := .released, seq := .idle } :=
    heldOnly_of_passes (fun _ _ => rfl) fun _ => le_rfl
  intro s s' h
  obtain ⟨hstate, hres⟩ := heldOnlyRes_trelease h
  simp only [teardown, hres]
  cases (trelease s).2 with
  | ok | err | fault => exact hend hstate
  | hang => exact hstate

theorem heldOnlyRes_releaseRender : HeldOnlyRes releaseRender := by
  have hclear : HeldOnly fun s => { s with pix := clearColours s.n s.pix } :=
    heldOnly_of_passes (fun _ _ => rfl) fun _ => le_rfl
  exact .ite (fun _ _ => rfl) (heldOnlyRes_render.comp hclear) (heldOnlyRes_pure _)

theorem heldOnly_releaseHandle (explicit : Bool) : HeldOnly (releaseHandle explicit) := by
  intro s s' h
  have hlife : s'.life = s.life := ReadsNoBuf.eq (fun _ _ => rfl) h
  obtain ⟨hstate, hres⟩ := heldOnlyRes_releaseRender h
  simp only [releaseHandle, hlife, hres]
  cases s.life with
  | released => exact heldOnly_finish _ _ h
  | unconfigured | active =>
    cases (releaseRender s).2 with
    | ok | err => exact heldOnly_teardown _ hstate
    | fault c => exact heldOnly_raiseFault _ (heldOnly_setSeq _ hstate)
    | hang => exact hstate

/-! ## The commands -/

theorem heldOnly_storePixelBytes (a : Nat) (bytes : List Byte) : HeldOnly (storePixelBytes a bytes) :=
  heldOnly_of_passes (fun _ _ => rfl) fun _ => le_rfl

/-- No check looks at `buf`. -/
theorem HeldOnly.checked {body : State → State} (hb : HeldOnly body) (cls : CmdClass) {rf : State → Option FaultCode}
    (hrf : ReadsNoBuf rf) : HeldOnly fun s => checked cls (rf s) body s := by
  intro s s' h
  have hfault : s'.fault = s.fault := ReadsNoBuf.eq (fun _ _ => rfl) h
  have hlife : s'.life = s.life := ReadsNoBuf.eq (fun _ _ => rfl) h
  simp only [Machine.checked, hfault, hlife, hrf.eq h]
  cases s.fault with
  | some _ => exact heldOnly_respond _ _ h
  | none =>
    cases lifecycleFault cls s.life with
    | some c => exact heldOnly_raiseFault c h
    | none =>
      cases rf s with
      | some c => exact heldOnly_raiseFault c h
      | none => exact hb h

theorem readsNoBuf_indexFault (x : Nat) : ReadsNoBuf (indexFault x) := fun _ _ => rfl

theorem readsNoBuf_pinsFault (count : Nat) (pd pc : Byte) : ReadsNoBuf (pinsFault count pd pc) := fun _ _ => rfl

/-- Every command is a change of the state that depends on the held bytes only. -/
theorem exec_heldOnly (i : Instr) : ∃ g, HeldOnly g ∧ ∀ s, exec i s = .next (g s) := by
  cases i with
  | initdef =>
    have hinit (p : Params) := (heldOnly_constructBitbang Config.defaultNumPixels p.defaultPinData p.defaultPinClock).checked
      .construction (readsNoBuf_pinsFault Config.defaultNumPixels p.defaultPinData p.defaultPinClock)
    exact ⟨_, .read hinit (r := State.params) fun _ _ => rfl, fun _ => rfl⟩
  | initbb count pd pc =>
    exact ⟨_, (heldOnly_constructBitbang count pd pc).checked .construction (readsNoBuf_pinsFault count pd pc), fun _ => rfl⟩
  | initbus count hz =>
    exact ⟨_, (heldOnly_constructBus count hz).checked .construction (rf := countFault count) fun _ _ => rfl, fun _ => rfl⟩
  | setrgb x red green blue =>
    exact ⟨_, (heldOnly_storePixelBytes _ _).checked .handle (readsNoBuf_indexFault x), fun _ => rfl⟩
  | setbri x level =>
    exact ⟨_, (heldOnly_storePixelBytes _ _).checked .handle (readsNoBuf_indexFault x), fun _ => rfl⟩
  | setrgbb x red green blue level =>
    exact ⟨_, (heldOnly_storePixelBytes _ _).checked .handle (readsNoBuf_indexFault x), fun _ => rfl⟩
  | getpix x =>
    have hget : HeldOnly fun s => finish .ok (pixWord s.pix x) s :=
      heldOnly_of_passes (fun _ _ => rfl) fun _ => le_rfl
    exact ⟨_, hget.checked .handle (readsNoBuf_indexFault x), fun _ => rfl⟩
  | render => exact ⟨_, heldOnlyRes_render.endCommand.checked .handle fun _ _ => rfl, fun _ => rfl⟩
  | txwr v => exact ⟨_, (heldOnlyRes_twrite [v]).endCommand.checked .handle fun _ _ => rfl, fun _ => rfl⟩
  | flush => exact ⟨_, heldOnlyRes_tflush.endCommand.checked .handle fun _ _ => rfl, fun _ => rfl⟩
  | setcor b =>
    have hcor : HeldOnly fun s => finish .ok 0 { s with cor := b } := heldOnly_of_passes (fun _ _ => rfl) fun _ => le_rfl
    exact ⟨_, hcor.checked .handle fun _ _ => rfl, fun _ => rfl⟩
  | rdreg g =>
    have hreg : HeldOnly fun s => respond .ok (s.readReg g) s :=
      .read (heldOnly_respond .ok) (r := (State.readReg · g)) fun _ _ => rfl
    exact ⟨_, hreg, fun _ => rfl⟩
  | release => exact ⟨_, (heldOnly_releaseHandle true).checked .releasing fun _ _ => rfl, fun _ => rfl⟩
  | drop => exact ⟨_, (heldOnly_releaseHandle false).checked .releasing fun _ _ => rfl, fun _ => rfl⟩

/-- Settles O37: the command is one change of both states, and it depends on the held bytes only. -/
theorem bufferBeyondIndexIsUnobservable : Obligations.BufferBeyondIndexIsUnobservable := by
  intro i s m hm
  obtain ⟨g, hg, hexec⟩ := exec_heldOnly i
  have hsame : SameHeld s { s with buf := m } := ⟨m, rfl, hm⟩
  obtain ⟨m', hstate, hheld⟩ := hg hsame
  exact ⟨g s, g { s with buf := m }, hexec _, hexec _, by rw [hstate], by rw [hstate]; exact hheld⟩

end Sys2Proof.Machine
end

section
/-! PROOFS. What the chain reads off the wires (20_memory.md R55, R56): a bit pulse that comes out Ok carries its bit and
leaves the clock low, so a byte string bit-banged Ok is read back byte for byte. -/

namespace Sys2Proof.Machine

/-! ## One pulse -/

@[simp] theorem clocksBit_gpioWrite_false (pinClock p : Byte) (d : Draw) :
    clocksBit pinClock (.call (.gpioWrite p false) d) = false := rfl

@[simp] theorem clocksBit_gpioWrite_true (pinClock p : Byte) (d : Draw) :
    clocksBit pinClock (.call (.gpioWrite p true) d) = (p == pinClock && lineChanged d) := rfl

/-- A clock rise by a call that changed its line carries the data line's level (R56). -/
theorem bitsFrom_clockHigh (pinData pinClock : Byte) (k : Nat) (level : Bool) (d : Draw) :
    bitsFrom pinData pinClock k level [.call (.gpioWrite pinClock true) d] = if lineChanged d then [level] else [] := by
  simp [bitsFrom]

theorem lineChanged_of_ok {d : Draw} (h : d.result = .ok) : lineChanged d = true := by simp [lineChanged, h]

theorem lineChanged_iff (d : Draw) : lineChanged d = true ↔ d.result = .ok ∨ d.effect ≠ 0 := by simp [lineChanged]

/-- The events of one pulse with its three answers. -/
theorem callEvents_bitPulse (s : State) (pinData pinClock : Byte) (b : Bool) :
    s.callEvents (bitPulse pinData pinClock b) =
      [.call (.gpioWrite pinData b) (s.drawAt 0), .call (.gpioWrite pinClock true) (s.drawAt 1),
        .call (.gpioWrite pinClock false) (s.drawAt 2)] := rfl

section
variable {s : State} {pinData pinClock : Byte} (hpins : pinData ≠ pinClock) (hok : s.AnswersOk 3)
include hpins hok

/-- A pulse carries its bit. -/
theorem bitsFrom_bitPulse (k : Nat) (level b : Bool) :
    bitsFrom pinData pinClock k level (s.callEvents (bitPulse pinData pinClock b)) = [b] := by
  have h0 := lineChanged_of_ok (hok 0 (by decide))
  have h1 := lineChanged_of_ok (hok 1 (by decide))
  have hdata : clocksBit pinClock (.call (.gpioWrite pinData b) (s.drawAt 0)) = false := by
    cases b <;> simp [hpins]
  simp [callEvents_bitPulse, bitsFrom, levelAfter, hdata, h0, h1]

/-- A pulse leaves the data line at its bit. -/
theorem levelFrom_data_bitPulse (k : Nat) (level b : Bool) :
    levelFrom pinData k level (s.callEvents (bitPulse pinData pinClock b)) = b := by
  have h0 := lineChanged_of_ok (hok 0 (by decide))
  simp [callEvents_bitPulse, levelFrom, levelAfter, h0, hpins.symm]

omit hpins in
/-- A pulse leaves the clock line low. -/
theorem levelFrom_clock_bitPulse (k : Nat) (level b : Bool) :
    levelFrom pinClock k level (s.callEvents (bitPulse pinData pinClock b)) = false := by
  have h2 := lineChanged_of_ok (hok 2 (by decide))
  simp [callEvents_bitPulse, levelFrom, levelAfter, h2]

end

/-! ## A run of pulses -/

theorem flatMap_bitPulse_length (pinData pinClock : Byte) (bits : List Bool) :
    (bits.flatMap (bitPulse pinData pinClock)).length = 3 * bits.length := by
  simp [List.length_flatMap, bitPulse, Nat.mul_comm]

/-- The chain reads the bits pulsed. -/
theorem bitsFrom_pulses {pinData pinClock : Byte} (hpins : pinData ≠ pinClock) (bits : List Bool) {s : State} (k : Nat)
    (level : Bool) (hok : s.AnswersOk (3 * bits.length)) :
    bitsFrom pinData pinClock k level (s.callEvents (bits.flatMap (bitPulse pinData pinClock))) = bits := by
  induction bits generalizing s k level with
  | nil => rfl
  | cons b rest ih =>
    have hfirst : s.AnswersOk 3 := AnswersOk.mono hok (by simp)
    have hrest : (s.called (bitPulse pinData pinClock b)).AnswersOk (3 * rest.length) :=
      AnswersOk.called _ (by simpa [bitPulse, Nat.mul_add, Nat.add_comm] using hok)
    rw [List.flatMap_cons, callEvents_append, bitsFrom_append, bitsFrom_bitPulse hpins hfirst, ih _ _ hrest,
      List.singleton_append]

/-- After the last pulse the clock line is low and the data line at the last bit. -/
theorem levelFrom_pulses {pinData pinClock : Byte} (hpins : pinData ≠ pinClock) {bits : List Bool} {s : State} (k : Nat)
    (level : Bool) (hok : s.AnswersOk (3 * bits.length)) {b : Bool} (hlast : bits.getLast? = some b) :
    levelFrom pinClock k level (s.callEvents (bits.flatMap (bitPulse pinData pinClock))) = false ∧
      levelFrom pinData k level (s.callEvents (bits.flatMap (bitPulse pinData pinClock))) = b := by
  obtain ⟨front, rfl⟩ := List.getLast?_eq_some_iff.mp hlast
  have hpulse : (s.called (front.flatMap (bitPulse pinData pinClock))).AnswersOk 3 :=
    AnswersOk.called _ (by rw [flatMap_bitPulse_length]; simpa [Nat.mul_add] using hok)
  rw [List.flatMap_append, List.flatMap_singleton, callEvents_append, levelFrom_append, levelFrom_append]
  exact ⟨levelFrom_clock_bitPulse hpulse _ _ _, levelFrom_data_bitPulse hpins hpulse _ _ _⟩

/-! ## Bytes as bits -/

/-- The calls of a byte string are the pulses of its bits, MSB first (41_transport.md R97). -/
theorem bitbangCallsOf_eq_pulses (s : State) (bytes : List Byte) :
    s.bitbangCallsOf bytes = (bytes.flatMap bitsMsbFirst).flatMap (bitPulse s.pinData s.pinClock) := by
  rw [List.flatMap_assoc]
  exact List.flatMap_congr fun v _ => by simp [bitsMsbFirst, byteCalls]

theorem flatMap_bitsMsbFirst_length (bytes : List Byte) : (bytes.flatMap bitsMsbFirst).length = 8 * bytes.length := by
  simp [List.length_flatMap, bitsMsbFirst, Nat.mul_comm]

/-- The eight bits of a byte, MSB first, make that byte. -/
theorem bytesOfBits_bitsMsbFirst_append (v : Byte) (bits : List Bool) :
    bytesOfBits (bitsMsbFirst v ++ bits) = v :: bytesOfBits bits := by
  have hbyte : (BitVec.ofBool (v.getLsbD 7) ++ BitVec.ofBool (v.getLsbD 6) ++ BitVec.ofBool (v.getLsbD 5) ++
      BitVec.ofBool (v.getLsbD 4) ++ BitVec.ofBool (v.getLsbD 3) ++ BitVec.ofBool (v.getLsbD 2) ++
      BitVec.ofBool (v.getLsbD 1) ++ BitVec.ofBool (v.getLsbD 0) : Byte) = v := by
    revert v; decide
  simp only [bitsMsbFirst, List.cons_append, List.nil_append, bytesOfBits, hbyte]

theorem bytesOfBits_flatMap_bitsMsbFirst (bytes : List Byte) : bytesOfBits (bytes.flatMap bitsMsbFirst) = bytes := by
  induction bytes with
  | nil => rfl
  | cons v rest ih => rw [List.flatMap_cons, bytesOfBits_bitsMsbFirst_append, ih]

/-- The last bit of a byte string is bit 0 of its last byte. -/
theorem getLast?_flatMap_bitsMsbFirst {bytes : List Byte} {v : Byte} (h : bytes.getLast? = some v) :
    (bytes.flatMap bitsMsbFirst).getLast? = some (v.getLsbD 0) := by
  obtain ⟨front, rfl⟩ := List.getLast?_eq_some_iff.mp h
  simp [bitsMsbFirst]

/-- Settles O27: the calls of the bytes are the pulses of their bits, each of which the chain reads; a further clock-high
write carries the level the earlier events leave, if it raised the line. -/
theorem bitbangBytesReachTheWire : Obligations.BitbangBytesReachTheWire := by
  refine ⟨fun bytes s k level hpins hok => ?_, fun pinData pinClock k level trace d => ?_⟩
  · have hbits : s.AnswersOk (3 * (bytes.flatMap bitsMsbFirst).length) := by
      rw [flatMap_bitsMsbFirst_length, ← Nat.mul_assoc]; exact hok
    rw [bitbangCallsOf_eq_pulses, bitsFrom_pulses hpins _ k level hbits, bytesOfBits_flatMap_bitsMsbFirst]
    exact ⟨rfl, fun v hv => levelFrom_pulses hpins k level hbits (getLast?_flatMap_bitsMsbFirst hv)⟩
  · rw [bitsFrom_append, bitsFrom_clockHigh]
    simp only [lineChanged_iff]

end Sys2Proof.Machine
end

section
/-! PROOFS. On the bus nothing presented is lost or reordered (20_memory.md R57, R65, 70_reset_and_hazards.md R166): what
was accepted and what is held together grow by the bytes presented, one after another. -/

namespace Sys2Proof.Machine

/-! ## The account of the bus -/

/-- The bytes accepted by the bus, then the bytes held for it. -/
def busAccount (s : State) : List Byte := busAcceptedStream s.trace ++ heldBytes s

/-- A micro-operation that is given `bytes` adds an initial part of them to the account, and all of
them if it comes out Ok. -/
def Accounts (bytes : List Byte) (s : State) (r : State × Res) : Prop :=
  ∃ sent, sent <+: bytes ∧ busAccount r.1 = busAccount s ++ sent ∧ (r.2 = .ok → sent = bytes)

theorem busAcceptedStream_append (xs ys : List Event) :
    busAcceptedStream (xs ++ ys) = busAcceptedStream xs ++ busAcceptedStream ys := List.flatMap_append

/-- A response is no byte. -/
@[simp] theorem busAcceptedStream_response (st : Status) (data : Word) :
    busAcceptedStream [.response st data] = [] := rfl

/-- What is accounted depends on the trace, `buf` and `idx` alone. -/
theorem busAccount_congr {s t : State} (ht : t.trace = s.trace) (hb : t.buf = s.buf) (hi : t.idx = s.idx) :
    busAccount t = busAccount s := by
  rw [busAccount, busAccount, ht, heldBytes_congr hb hi]

theorem busAccount_response {s t : State} {st : Status} {data : Word} (ht : t.trace = s.trace ++ [.response st data])
    (hb : t.buf = s.buf) (hi : t.idx = s.idx) : busAccount t = busAccount s := by
  rw [busAccount, busAccount, ht, heldBytes_congr hb hi, busAcceptedStream_append, busAcceptedStream_response,
    List.append_nil]

/-! ## Micro-operations in general -/

/-- An operation that leaves the account as it is. -/
theorem Accounts.of_eq {s : State} {r : State × Res} (h : busAccount r.1 = busAccount s) : Accounts [] s r :=
  ⟨[], List.prefix_rfl, by rw [h, List.append_nil], fun _ => rfl⟩

/-- One that comes out otherwise than Ok and leaves the account as it is has taken no byte, whatever it was given. -/
theorem Accounts.of_ne {bytes : List Byte} {s : State} {r : State × Res} (h : busAccount r.1 = busAccount s)
    (hr : r.2 ≠ .ok) : Accounts bytes s r :=
  ⟨[], List.nil_prefix, by rw [h, List.append_nil], fun hok => absurd hok hr⟩

/-- The account may be taken from another state that has the same. -/
theorem Accounts.of_start {bytes : List Byte} {s t : State} {r : State × Res} (h : Accounts bytes t r)
    (ht : busAccount t = busAccount s) : Accounts bytes s r := by
  obtain ⟨sent, hpre, hacc, hall⟩ := h
  exact ⟨sent, hpre, by rw [hacc, ht], hall⟩

/-- One after another: the bytes of the second follow those of the first, which were all taken. -/
theorem Accounts.andThen {xs ys : List Byte} {s : State} {r : State × Res} {f : State → State × Res}
    (h : Accounts xs s r) (hf : r.2 = .ok → Accounts ys r.1 (f r.1)) : Accounts (xs ++ ys) s (andThen r f) := by
  obtain ⟨sent, hpre, hacc, hall⟩ := h
  by_cases hr : r.2 = .ok
  · obtain ⟨sent', hpre', hacc', hall'⟩ := hf hr
    rw [andThen_of_ok hr]
    rw [hall hr] at hacc
    exact ⟨xs ++ sent', (List.prefix_append_right_inj xs).mpr hpre', by rw [hacc', hacc, List.append_assoc],
      fun hok => by rw [hall' hok]⟩
  · rw [andThen_of_ne hr]
    exact ⟨sent, hpre.trans (List.prefix_append xs ys), hacc, fun hok => absurd hok hr⟩

/-! ## The bus -/

theorem busAcceptedStream_busWrite (bytes : List Byte) (d : Draw) :
    busAcceptedStream [.call (.busWrite bytes) d] = if d.result = .ok then bytes else [] := by
  simp [busAcceptedStream, busAccepted]

/-- A transmission is one call, with what is held. -/
theorem sendHeld_trace (s : State) :
    (sendHeld s).1.trace = s.trace ++ [.call (.busWrite (heldBytes s)) (s.drawAt 0)] := by
  by_cases h : (s.drawAt 0).result = .ok
  · rw [sendHeld_of_ok h]; rfl
  · rw [sendHeld_of_fail h]; rfl

theorem heldBytes_sendHeld (s : State) :
    heldBytes (sendHeld s).1 = if (s.drawAt 0).result = .ok then [] else heldBytes s := by
  by_cases h : (s.drawAt 0).result = .ok
  · rw [if_pos h, sendHeld_of_ok h]; exact heldBytes_zero rfl
  · rw [if_neg h, sendHeld_of_fail h]; rfl

/-- A transmission that returns Ok moves what is held to what is accepted; any other leaves both (41_transport.md R105,
R106). -/
theorem accounts_sendHeld (s : State) : Accounts [] s (sendHeld s) := by
  refine .of_eq ?_
  rw [busAccount, busAccount, sendHeld_trace, heldBytes_sendHeld, busAcceptedStream_append, busAcceptedStream_busWrite]
  split
  · rw [List.append_nil]
  · rw [List.append_nil]

/-- An appended byte is held, then sent with the rest if it fills the buffer; at `idx = CAP` it is not taken (R102). -/
theorem accounts_appendByte (v : Byte) (s : State) : Accounts [v] s (appendByte v s) := by
  unfold appendByte
  split
  · exact .of_ne rfl (by simp)
  · have hadd : busAccount { s with buf := bufWrite s.buf s.idx v, idx := s.idx + 1 } = busAccount s ++ [v] := by
      rw [busAccount, heldBytes_append, ← List.append_assoc]; rfl
    have happ : Accounts [v] s ({ s with buf := bufWrite s.buf s.idx v, idx := s.idx + 1 }, .ok) :=
      ⟨[v], List.prefix_rfl, hadd, fun _ => rfl⟩
    split
    · exact happ.andThen (f := sendHeld) fun _ => accounts_sendHeld _
    · exact happ

theorem accounts_twriteBus (bytes : List Byte) (s : State) : Accounts bytes s (twriteBus bytes s) := by
  induction bytes generalizing s with
  | nil => exact .of_eq rfl
  | cons v rest ih => exact (accounts_appendByte v s).andThen fun _ => ih _

theorem accounts_tflushBus (s : State) : Accounts [] s (tflushBus s) := by
  unfold tflushBus
  split
  · exact .of_eq rfl
  · exact accounts_sendHeld s

theorem accounts_twrite (bytes : List Byte) {s : State} (hb : s.backend = .bus) : Accounts bytes s (twrite bytes s) := by
  simp only [twrite, hb]
  exact accounts_twriteBus bytes s

theorem accounts_tflush {s : State} (hb : s.backend = .bus) : Accounts [] s (tflush s) := by
  simp only [tflush, hb]
  exact accounts_tflushBus s

/-! ## The frame -/

/-- No micro-operation changes the variant. -/
theorem Ran.backend {s : State} {r : State × Res} (h : Ran s r) : r.1.backend = s.backend := by
  obtain ⟨cs, x, b, i, p, g, e, -⟩ := h
  rw [e, called_backend]

/-- `seq` is no byte. -/
theorem busAccount_setSeq (p : SeqPos) (s : State) : busAccount (setSeq p s) = busAccount s := rfl

theorem accounts_sendFrame (bytes : List (SeqPos × Byte)) {s : State} (hb : s.backend = .bus) :
    Accounts (bytes.map (·.2)) s (sendFrame bytes s) := by
  induction bytes generalizing s with
  | nil => exact .of_eq rfl
  | cons b rest ih =>
    have hfirst := accounts_twrite [b.2] (s := setSeq b.1 s) hb
    have hbackend := (ran_twrite [b.2] (setSeq b.1 s)).backend.trans hb
    exact (hfirst.of_start (busAccount_setSeq b.1 s)).andThen fun _ => ih hbackend

/-- The bytes of the frame, without their positions, are those of R121. -/
theorem frame_map_snd (s : State) : (frame s).map (·.2) = s.frameBytes := by
  have hpixel (i : Nat) : (pixelFrame s.pix i).map (·.2) =
      [pixRead s.pix (4 * i), pixRead s.pix (4 * i + 1), pixRead s.pix (4 * i + 2), pixRead s.pix (4 * i + 3)] := rfl
  have hend : (endFrame s.L).map (·.2) = List.replicate s.L 0x00#8 := by
    simp [endFrame, List.map_map, Function.comp_def]
  have hstart : startFrame.map (·.2) = List.replicate 4 0x00#8 := rfl
  simp only [frame, List.map_append, List.map_flatMap, hpixel, hend, hstart, State.frameBytes, frameBytesOf,
    List.append_assoc]

/-- A render presents its frame; the flush adds nothing to the account (42_frame_protocol.md R112). -/
theorem accounts_render {s : State} (hb : s.backend = .bus) : Accounts s.frameBytes s (render s) := by
  have hframe := accounts_sendFrame (frame s) hb
  have hbackend := (ran_sendFrame (frame s) s).backend.trans hb
  rw [frame_map_snd] at hframe
  rw [← List.append_nil s.frameBytes]
  refine hframe.andThen fun _ => ?_
  have hflush := accounts_tflush (s := setSeq .flush (sendFrame (frame s) s).1) hbackend
  exact (hflush.of_start (busAccount_setSeq .flush _)).andThen fun _ => .of_eq (busAccount_setSeq .idle _)

/-! ## The commands -/

/-- The end of a command adds a response at most. -/
theorem busAccount_endCommand (r : State × Res) : busAccount (endCommand r) = busAccount r.1 := by
  obtain ⟨s, q⟩ := r
  cases q with
  | ok => exact busAccount_response (s := s) rfl rfl rfl
  | err k => exact busAccount_response (s := s) rfl rfl rfl
  | fault c => exact busAccount_response (s := s) rfl rfl rfl
  | hang => rfl

/-- A command answers `(OK, 0)` only if its micro-operation came out Ok; one that hangs ends in a call. -/
theorem res_ok_of_endCommand_answers {s : State} {r : State × Res} (hr : Ran s r)
    (h : (endCommand r).trace.getLast? = some (.response .ok 0)) : r.2 = .ok := by
  cases hq : r.2 with
  | ok => rfl
  | err k => simp [endCommand, hq] at h
  | fault c => simp [endCommand, hq] at h
  | hang =>
    obtain ⟨cs, x, b, i, p, e, c, d, hlast, -⟩ := hr.hangs hq
    have hcall : r.1.trace.getLast? = some (.call c d) := by
      rw [e]; exact List.mem_getLast?_append_of_mem_getLast? hlast
    simp [endCommand, hq, hcall] at h

/-- A handle command that passes its checks runs its body. -/
theorem checked_of_ready {s : State} (h : s.Ready) (body : State → State) : checked .handle none body s = body s :=
  checked_run h.1 (by rw [h.2]; rfl) body

/-- Settles O35: each of the three commands ends a micro-operation, which accounts for what it was given. -/
theorem busLosesAndReordersNothing : Obligations.BusLosesAndReordersNothing := by
  intro i presented s t hready hb hpresented hexec
  obtain ⟨r, hran, ⟨sent, hpre, hacc, hall⟩, he⟩ :
      ∃ r, Ran s r ∧ Accounts presented s r ∧ exec i s = .next (endCommand r) := by
    rcases hpresented with ⟨v, rfl, rfl⟩ | ⟨rfl, rfl⟩ | ⟨rfl, rfl⟩
    · exact ⟨twrite [v] s, ran_twrite _ s, accounts_twrite _ hb, congrArg _ (checked_of_ready hready _)⟩
    · exact ⟨tflush s, ran_tflush s, accounts_tflush hb, congrArg _ (checked_of_ready hready _)⟩
    · exact ⟨render s, ran_render s, accounts_render hb, congrArg _ (checked_of_ready hready _)⟩
  obtain rfl : endCommand r = t := by rw [he] at hexec; injection hexec
  exact ⟨sent, hpre, (busAccount_endCommand r).trans hacc, fun h => hall (res_ok_of_endCommand_answers hran h)⟩

end Sys2Proof.Machine
end

section
/-! PROOFS. Decoding and encoding (30_encoding.md R70 to R74) undo each other, command by command. -/

namespace Sys2Proof

/-! ## A field part of `k` operand bits below `m` reserved ones (R71) -/

/-- The reserved bits of an encoded header are zero. -/
theorem reservedBits_headerWord {m k : Nat} (h : m + k = 24) (op : Byte) (v : BitVec k) :
    (headerWord op ((0#m ++ v).cast h)).extractLsb' k m = 0#m := by
  simp only [headerWord, BitVec.eq_of_getLsbD_eq_iff, BitVec.getLsbD_extractLsb', BitVec.getLsbD_append,
    BitVec.getLsbD_cast]
  grind

/-- The operand bits of an encoded header are the operand. -/
theorem operandBits_headerWord {m k : Nat} (h : m + k = 24) (op : Byte) (v : BitVec k) :
    (headerWord op ((0#m ++ v).cast h)).extractLsb' 0 k = v := by
  simp only [headerWord, BitVec.eq_of_getLsbD_eq_iff, BitVec.getLsbD_extractLsb', BitVec.getLsbD_append,
    BitVec.getLsbD_cast]
  grind

/-- A header whose reserved bits are zero is its opcode and its operand bits. -/
theorem headerWord_operandBits {m k : Nat} (h : m + k = 24) {w : Word} (hw : w.extractLsb' k m = 0#m) :
    headerWord (opcodeOf w) ((0#m ++ w.extractLsb' 0 k).cast h) = w := by
  have hfield : (0#m ++ w.extractLsb' 0 k).cast h = headerField w := by
    rw [← hw, BitVec.extractLsb'_append_extractLsb'_eq_extractLsb' (Nat.zero_add k).symm, headerField]
    ext i hi
    simp
  rw [hfield, headerWord_fields]

/-! ## The formats with reserved header bits (R71) -/

/-- Format -: a header without a 1 in its field part is its opcode. -/
theorem headerWord_noField {w : Word} {op : Byte} (hop : opcodeOf w = op) (h : (headerField w == 0#24) = true) :
    headerWord op 0#24 = w := by
  rw [← hop, ← beq_iff_eq.mp h, headerWord_fields]

@[simp] theorem byteReserved_headerWord (op v : Byte) : (headerWord op (0#16 ++ v)).extractLsb' 8 16 = 0#16 :=
  reservedBits_headerWord rfl op v

/-- Format B: a header with zeros above its byte. -/
theorem headerWord_byteField {w : Word} {op : Byte} (hop : opcodeOf w = op)
    (h : (w.extractLsb' 8 16 == 0#16) = true) : headerWord op (0#16 ++ byteField w) = w :=
  hop ▸ headerWord_operandBits rfl (beq_iff_eq.mp h)

@[simp] theorem flagReserved_headerWord (op : Byte) (flag : Bool) :
    (headerWord op (0#23 ++ BitVec.ofBool flag)).extractLsb' 1 23 = 0#23 := reservedBits_headerWord rfl op _

@[simp] theorem flag_headerWord (op : Byte) (flag : Bool) : (headerWord op (0#23 ++ BitVec.ofBool flag))[0] = flag := by
  simp only [← BitVec.getLsbD_eq_getElem, headerWord, BitVec.getLsbD_append]
  simp

/-- Bit 0 of a header is the one operand bit of format F. -/
theorem ofBool_getLsbD_zero (w : Word) : BitVec.ofBool (w.getLsbD 0) = w.extractLsb' 0 1 := by
  simp only [BitVec.eq_of_getLsbD_eq_iff, BitVec.getLsbD_extractLsb']
  grind

/-- Format F: a header with zeros above its flag. -/
theorem headerWord_flag {w : Word} {op : Byte} (hop : opcodeOf w = op) (h : (w.extractLsb' 1 23 == 0#23) = true) :
    headerWord op (0#23 ++ BitVec.ofBool (w.getLsbD 0)) = w := by
  rw [ofBool_getLsbD_zero]
  exact hop ▸ headerWord_operandBits rfl (beq_iff_eq.mp h)

@[simp] theorem regReserved_headerWord (op : Byte) (g : BitVec 3) :
    (headerWord op (0#21 ++ g)).extractLsb' 3 21 = 0#21 := reservedBits_headerWord rfl op g

@[simp] theorem regBits_headerWord (op : Byte) (g : BitVec 3) : (headerWord op (0#21 ++ g)).extractLsb' 0 3 = g :=
  operandBits_headerWord (m := 21) rfl op g

/-- Format G: a header with zeros above its register number. -/
theorem headerWord_regNumber {w : Word} {op : Byte} (hop : opcodeOf w = op)
    (h : (w.extractLsb' 3 21 == 0#21) = true) :
    headerWord op (0#21 ++ regNumber (regOfNumber (w.extractLsb' 0 3))) = w := by
  rw [regNumber_regOfNumber]
  exact hop ▸ headerWord_operandBits rfl (beq_iff_eq.mp h)

/-! ## Decoding what was encoded -/

/-- Settles O2: the header selects the command's row of the decoder, and each field reads back what was put in it. -/
theorem decodeOfEncodeIsTheCommand : Obligations.DecodeOfEncodeIsTheCommand := by
  intro i rest hwf
  cases i with
  | initdef => simp [encode, decode_initdef, headerOnly]
  | initbb count pinData pinClock =>
    simp [encode, decode_initbb, withOneOperand, xField_headerX _ (of_decide_eq_true hwf)]
  | initbus count hz => simp [encode, decode_initbus, withOneOperand, xField_headerX _ (of_decide_eq_true hwf)]
  | setrgb index red green blue =>
    simp [encode, decode_setrgb, withOneOperand, xField_headerX _ (of_decide_eq_true hwf)]
  | setbri index level => simp [encode, decode_setbri, withOneOperand, xField_headerX _ (of_decide_eq_true hwf)]
  | setrgbb index red green blue level =>
    simp [encode, decode_setrgbb, withTwoOperands, xField_headerX _ (of_decide_eq_true hwf)]
  | getpix index => simp [encode, decode_getpix, xField_headerX _ (of_decide_eq_true hwf)]
  | render => simp [encode, decode_render, headerOnly]
  | txwr byte => simp [encode, decode_txwr, headerOnly]
  | flush => simp [encode, decode_flush, headerOnly]
  | setcor flag => simp [encode, decode_setcor, headerOnly]
  | rdreg r => simp [encode, decode_rdreg, headerOnly]
  | release => simp [encode, decode_release, headerOnly]
  | drop => simp [encode, decode_drop, headerOnly]

/-! ## Encoding what was decoded -/

/-- `ws` is the encoding of the well-formed command `i`, then `rest`. -/
def Spells (ws : List Word) (i : Instr) (rest : List Word) : Prop := i.wellFormed = true ∧ ws = encode i ++ rest

theorem spells_headerOnly {b : Bool} {i j : Instr} {w : Word} {r rest : List Word}
    (h : headerOnly b i r = .command j rest) (hwf : i.wellFormed = true) (henc : b = true → encode i = [w]) :
    Spells (w :: r) j rest := by
  obtain ⟨hb, rfl, rfl⟩ := headerOnly_command h
  exact ⟨hwf, by rw [henc hb]; rfl⟩

theorem spells_withOneOperand {ok : Word → Bool} {make : Word → Instr} {j : Instr} {w : Word} {r rest : List Word}
    (h : withOneOperand ok make r = .command j rest) (hwf : ∀ w1, (make w1).wellFormed = true)
    (henc : ∀ w1, ok w1 = true → encode (make w1) = [w, w1]) : Spells (w :: r) j rest := by
  obtain ⟨w1, rfl, hok, rfl⟩ := withOneOperand_command h
  exact ⟨hwf w1, by rw [henc w1 hok]; rfl⟩

theorem spells_withTwoOperands {ok : Word → Bool} {make : Word → Word → Instr} {j : Instr} {w : Word}
    {r rest : List Word} (h : withTwoOperands ok make r = .command j rest)
    (hwf : ∀ w1 w2, (make w1 w2).wellFormed = true)
    (henc : ∀ w1 w2, ok w1 = true → encode (make w1 w2) = [w, w1, w2]) : Spells (w :: r) j rest := by
  obtain ⟨w1, w2, rfl, hok, rfl⟩ := withTwoOperands_command h
  exact ⟨hwf w1 w2, by rw [henc w1 w2 hok]; rfl⟩

/-- Format X: every field part is the number it holds. -/
theorem headerX_xField {w : Word} {op : Byte} (hop : opcodeOf w = op) : headerX op (xField w) = w :=
  hop ▸ headerX_fields w

/-- Settles O3: each row of the decoder gives a command of its own opcode, made of all the bits of its words. -/
theorem encodeOfDecodeIsTheWords : Obligations.EncodeOfDecodeIsTheWords := by
  intro ws i rest hd
  change Spells ws i rest
  cases ws with
  | nil => simp [decode] at hd
  | cons w r =>
    have hfits : decide (FitsX (xField w)) = true := decide_eq_true (fitsX_xField w)
    rcases opcode_cases (opcodeOf w) with h | h | h | h | h | h | h | h | h | h | h | h | h | h | h
    · rw [decode_initdef h] at hd
      exact spells_headerOnly hd rfl fun hb => congrArg ([·]) (headerWord_noField h hb)
    · rw [decode_initbb h] at hd
      exact spells_withOneOperand hd (fun _ => hfits) fun p hp => by simp [encode, headerX_xField h, pinsWord_fields hp]
    · rw [decode_initbus h] at hd
      exact spells_withOneOperand hd (fun _ => hfits) fun hz _ => by simp [encode, headerX_xField h]
    · rw [decode_setrgb h] at hd
      exact spells_withOneOperand hd (fun _ => hfits) fun c hc => by simp [encode, headerX_xField h, rgbWord_fields hc]
    · rw [decode_setbri h] at hd
      exact spells_withOneOperand hd (fun _ => hfits) fun level _ => by simp [encode, headerX_xField h]
    · rw [decode_setrgbb h] at hd
      exact spells_withTwoOperands hd (fun _ _ => hfits) fun c level hc => by
        simp [encode, headerX_xField h, rgbWord_fields hc]
    · rw [decode_getpix h] at hd
      obtain ⟨rfl, rfl⟩ := Decoded.command.inj hd
      exact ⟨hfits, by rw [encode, headerX_xField h]; rfl⟩
    · rw [decode_render h] at hd
      exact spells_headerOnly hd rfl fun hb => congrArg ([·]) (headerWord_noField h hb)
    · rw [decode_txwr h] at hd
      exact spells_headerOnly hd rfl fun hb => congrArg ([·]) (headerWord_byteField h hb)
    · rw [decode_flush h] at hd
      exact spells_headerOnly hd rfl fun hb => congrArg ([·]) (headerWord_noField h hb)
    · rw [decode_setcor h] at hd
      exact spells_headerOnly hd rfl fun hb => congrArg ([·]) (headerWord_flag h hb)
    · rw [decode_rdreg h] at hd
      exact spells_headerOnly hd rfl fun hb => congrArg ([·]) (headerWord_regNumber h hb)
    · rw [decode_release h] at hd
      exact spells_headerOnly hd rfl fun hb => congrArg ([·]) (headerWord_noField h hb)
    · rw [decode_drop h] at hd
      exact spells_headerOnly hd rfl fun hb => congrArg ([·]) (headerWord_noField h hb)
    · rw [decode_unassigned h] at hd
      cases hd

end Sys2Proof
end

section
/-! PROOFS. The opcode map (30_encoding.md R74 to R76): what a header with a row's opcode decodes to, row by row, and
the refusal of words that spell no command. -/

namespace Sys2Proof.Machine

/-! ## Match and mask -/

/-- Match and mask ask for the opcode and for zeros in the `m` reserved bits above `k` operand bits. -/
theorem selected_iff {m k : Nat} (h : m + k = 24) (w : Word) (op : Byte) :
    w &&& headerWord (BitVec.allOnes 8) (BitVec.allOnes 24 <<< k) = headerWord op 0#24 ↔
      opcodeOf w = op ∧ w.extractLsb' k m = 0#m := by
  simp only [headerWord, opcodeOf, BitVec.eq_of_getLsbD_eq_iff, BitVec.getLsbD_extractLsb', BitVec.getLsbD_append,
    BitVec.getLsbD_and, BitVec.getLsbD_shiftLeft, BitVec.getLsbD_allOnes, BitVec.getLsbD_zero]
  constructor
  · grind
  · rintro ⟨hop, hzero⟩ i hi
    have h24 := hop (i - 24)
    have hk := hzero (i - k)
    grind

theorem opcodeOf_and (a b : Word) : opcodeOf (a &&& b) = opcodeOf a &&& opcodeOf b := BitVec.extractLsb'_and ..

/-- A header that a row's match and mask select has the row's opcode. -/
theorem opcodeOf_of_selected {row : Byte × Nat × Word × Word} (hrow : row ∈ opcodeMap) {w : Word}
    (h : w &&& row.2.2.2 = row.2.2.1) : opcodeOf w = row.1 := by
  have htop : ∀ row ∈ opcodeMap, opcodeOf row.2.2.2 = BitVec.allOnes 8 ∧ opcodeOf row.2.2.1 = row.1 := by decide
  obtain ⟨hmask, hmatch⟩ := htop row hrow
  rw [← hmatch, ← h, opcodeOf_and, hmask, BitVec.and_allOnes]

/-! ## The rows -/

/-- What a header word with a row's opcode decodes to by R74 and R75: with its reserved bits zero it takes the row's
operand words and names the row's command; else its reserved bits are reported. -/
structure FollowsRow (row : Byte × Nat × Word × Word) (w : Word) (rest : List Word) : Prop where
  selected : w &&& row.2.2.2 = row.2.2.1 →
    (rest.length < row.2.1 → decode (w :: rest) = .incomplete) ∧
    (row.2.1 ≤ rest.length →
      (∃ i, i.opcode = row.1 ∧ decode (w :: rest) = .command i (rest.drop row.2.1)) ∨
      decode (w :: rest) = .reservedOperandBits (rest.drop row.2.1))
  reserved : w &&& row.2.2.2 ≠ row.2.2.1 → decode (w :: rest) = .reservedHeaderBits rest

theorem followsRow_headerOnly {w mtch mask : Word} {rest : List Word} {b : Bool} {i : Instr}
    (hd : decode (w :: rest) = headerOnly b i rest) (hb : w &&& mask = mtch ↔ b = true) :
    FollowsRow (i.opcode, 0, mtch, mask) w rest := by
  refine ⟨fun hm => ⟨fun h => absurd h (Nat.not_lt_zero _), fun _ => .inl ⟨i, rfl, ?_⟩⟩, fun hm => ?_⟩
  · rw [hd, hb.mp hm]; rfl
  · rw [hd, Bool.eq_false_iff.mpr fun h => hm (hb.mpr h)]; rfl

theorem followsRow_withOneOperand {op : Byte} {w mtch mask : Word} {rest : List Word} {ok : Word → Bool}
    {make : Word → Instr} (hd : decode (w :: rest) = withOneOperand ok make rest) (hm : w &&& mask = mtch)
    (hop : ∀ w1, (make w1).opcode = op) : FollowsRow (op, 1, mtch, mask) w rest := by
  refine ⟨fun _ => ?_, fun h => absurd hm h⟩
  rw [hd]
  cases rest with
  | nil => exact ⟨fun _ => rfl, fun h => absurd h (by simp)⟩
  | cons w1 rest =>
    refine ⟨fun h => absurd h (by simp), fun _ => ?_⟩
    cases hok : ok w1 with
    | true => exact .inl ⟨make w1, hop w1, by simp [withOneOperand, hok]⟩
    | false => exact .inr (by simp [withOneOperand, hok])

theorem followsRow_withTwoOperands {op : Byte} {w mtch mask : Word} {rest : List Word} {ok : Word → Bool}
    {make : Word → Word → Instr} (hd : decode (w :: rest) = withTwoOperands ok make rest) (hm : w &&& mask = mtch)
    (hop : ∀ w1 w2, (make w1 w2).opcode = op) : FollowsRow (op, 2, mtch, mask) w rest := by
  refine ⟨fun _ => ?_, fun h => absurd hm h⟩
  rw [hd]
  match rest with
  | [] => exact ⟨fun _ => rfl, fun h => absurd h (by simp)⟩
  | [_] => exact ⟨fun _ => rfl, fun h => absurd h (by simp)⟩
  | w1 :: w2 :: rest =>
    refine ⟨fun h => absurd h (by simp), fun _ => ?_⟩
    cases hok : ok w1 with
    | true => exact .inl ⟨make w1 w2, hop w1 w2, by simp [withTwoOperands, hok]⟩
    | false => exact .inr (by simp [withTwoOperands, hok])

/-- With its opcode given, a header is selected exactly if the decoder's test of its reserved bits holds. -/
theorem selected_iff_reservedZero {m k : Nat} (hmk : m + k = 24) {w : Word} {op : Byte} (h : opcodeOf w = op) :
    w &&& headerWord (BitVec.allOnes 8) (BitVec.allOnes 24 <<< k) = headerWord op 0#24 ↔
      (w.extractLsb' k m == 0#m) = true := by
  rw [selected_iff hmk, beq_iff_eq, and_iff_right h]

/-- Format - reserves every bit of the field part. -/
theorem selected_noField {w : Word} {op : Byte} (h : opcodeOf w = op) :
    w &&& headerWord (BitVec.allOnes 8) (BitVec.allOnes 24) = headerWord op 0#24 ↔ (headerField w == 0#24) = true :=
  selected_iff_reservedZero (m := 24) (k := 0) rfl h

/-- Format X reserves no header bit. -/
theorem selected_formatX {w : Word} {op : Byte} (h : opcodeOf w = op) :
    w &&& headerWord (BitVec.allOnes 8) (BitVec.allOnes 24 <<< 24) = headerWord op 0#24 :=
  (selected_iff (Nat.zero_add 24) w op).mpr ⟨h, BitVec.eq_nil _⟩

/-- A header with a row's opcode follows that row, by its line of the decoder. -/
theorem followsRow {row : Byte × Nat × Word × Word} (hrow : row ∈ opcodeMap) {w : Word} (h : opcodeOf w = row.1)
    (rest : List Word) : FollowsRow row w rest := by
  simp only [opcodeMap, List.mem_cons, List.not_mem_nil, or_false] at hrow
  rcases hrow with rfl | rfl | rfl | rfl | rfl | rfl | rfl | rfl | rfl | rfl | rfl | rfl | rfl | rfl
  · exact followsRow_headerOnly (decode_initdef h rest) (selected_noField h)
  · exact followsRow_withOneOperand (decode_initbb h rest) (selected_formatX h) fun _ => rfl
  · exact followsRow_withOneOperand (decode_initbus h rest) (selected_formatX h) fun _ => rfl
  · exact followsRow_withOneOperand (decode_setrgb h rest) (selected_formatX h) fun _ => rfl
  · exact followsRow_withOneOperand (decode_setbri h rest) (selected_formatX h) fun _ => rfl
  · exact followsRow_withTwoOperands (decode_setrgbb h rest) (selected_formatX h) fun _ _ => rfl
  · exact followsRow_headerOnly (b := true) (decode_getpix h rest) (iff_of_true (selected_formatX h) rfl)
  · exact followsRow_headerOnly (decode_render h rest) (selected_noField h)
  · exact followsRow_headerOnly (decode_txwr h rest) (selected_iff_reservedZero (m := 16) (k := 8) rfl h)
  · exact followsRow_headerOnly (decode_flush h rest) (selected_noField h)
  · exact followsRow_headerOnly (decode_setcor h rest) (selected_iff_reservedZero (m := 23) (k := 1) rfl h)
  · exact followsRow_headerOnly (decode_rdreg h rest) (selected_iff_reservedZero (m := 21) (k := 3) rfl h)
  · exact followsRow_headerOnly (decode_release h rest) (selected_noField h)
  · exact followsRow_headerOnly (decode_drop h rest) (selected_noField h)

/-- An opcode of no row is none of the decoder's. -/
theorem decode_of_noRow {w : Word} (h : ∀ row ∈ opcodeMap, opcodeOf w ≠ row.1) (rest : List Word) :
    decode (w :: rest) = .unassignedOpcode rest :=
  decode_unassigned (fun hmem => by
    obtain ⟨row, hrow, hop⟩ := List.mem_map.mp (show opcodeOf w ∈ opcodeMap.map Prod.fst from hmem)
    exact h row hrow hop.symm) rest

/-- Settles O4: a header with a row's opcode follows that row, and an opcode of no row is unassigned. -/
theorem headerSelectsItsRow : Obligations.HeaderSelectsItsRow := by
  refine ⟨fun row hrow w rest hm => (followsRow hrow (opcodeOf_of_selected hrow hm) rest).selected hm,
    fun w rest hnone => ?_, fun w rest hnone => decode_of_noRow hnone rest⟩
  by_cases hop : ∃ row ∈ opcodeMap, opcodeOf w = row.1
  · obtain ⟨row, hrow, h⟩ := hop
    exact .inl ((followsRow hrow h rest).reserved (hnone row hrow))
  · exact .inr (decode_of_noRow (fun row hrow h => hop ⟨row, hrow, h⟩) rest)

/-! ## Refusals -/

/-- Words that spell no command (30_encoding.md R75, R76); `rest` is what follows the words taken. -/
def SpellsNone (ws rest : List Word) : Prop :=
  decode ws = .unassignedOpcode rest ∨ decode ws = .reservedHeaderBits rest ∨ decode ws = .reservedOperandBits rest

/-- A running block without a fault takes such words and raises IllegalCommand, with no other effect. -/
theorem step_of_spellsNone {s : State} {ws rest : List Word} (hrun : s.hung = false) (hfault : s.fault = none)
    (hcmds : s.cmds = ws) (h : SpellsNone ws rest) :
    step s = .next (raiseFault .illegalCommand { s with cmds := rest }) := by
  rw [step_of_running hrun, takeCommand, hcmds]
  rcases h with h | h | h <;> simp [h, refuseIllegal, hfault]

/-- Settles O5: reserved bits are reported by the decoder, and the words refused. -/
theorem reservedBitsAreIllegal : Obligations.ReservedBitsAreIllegal := by
  intro s rest hrun hfault
  refine ⟨fun w hcmds hrow => ?_, fun w w1 hcmds hbits => ?_, fun w w1 w2 hcmds hop hbits => ?_⟩
  · obtain ⟨row, hrow, hop, hm⟩ := hrow
    exact step_of_spellsNone hrun hfault hcmds (.inr (.inl ((followsRow hrow hop rest).reserved hm)))
  · have hnone : SpellsNone (w :: w1 :: rest) rest := by
      refine .inr (.inr ?_)
      rcases hbits with ⟨hop, hbits⟩ | ⟨hop, hbits⟩
      · simp [decode_setrgb hop, withOneOperand, rgbReservedZero, hbits]
      · simp [decode_initbb hop, withOneOperand, pinsReservedZero, hbits]
    exact step_of_spellsNone hrun hfault hcmds hnone
  · have hnone : SpellsNone (w :: w1 :: w2 :: rest) rest :=
      .inr (.inr (by simp [decode_setrgbb hop, withTwoOperands, rgbReservedZero, hbits]))
    exact step_of_spellsNone hrun hfault hcmds hnone

/-- The opcodes R76 lists are in no row. -/
theorem noRow_of_listed : ∀ op : Byte,
    (op = 0x00 ∨ (0x04 ≤ op ∧ op ≤ 0x0F) ∨ (0x14 ≤ op ∧ op ≤ 0x1F) ∨ (0x23 ≤ op ∧ op ≤ 0x2F) ∨
      (0x32 ≤ op ∧ op ≤ 0x3D) ∨ 0x40 ≤ op) → ∀ row ∈ opcodeMap, op ≠ row.1 := by
  decide

/-- Settles O6: an opcode R76 lists is in no row, so the header is taken alone and refused. -/
theorem unassignedOpcodesAreIllegal : Obligations.UnassignedOpcodesAreIllegal := by
  intro s w rest hrun hfault hcmds hop
  exact step_of_spellsNone hrun hfault hcmds (.inl (decode_of_noRow (noRow_of_listed _ hop) rest))

end Sys2Proof.Machine
end

section
/-! PROOFS. Whole command lines (30_encoding.md R80, R83): the commands of CLEAR N run one after another, and the worked
assembly lines. -/

namespace Sys2Proof.Machine

/-! ## CLEAR N -/

/-- A run one step longer ends as its last step does. -/
theorem run_succ_of_run {M : Host.Core} {k : Nat} {s t : M.State} (h : M.run k s = .next t) :
    M.run (k + 1) s = M.step t := by
  induction k generalizing s with
  | zero =>
    obtain rfl : s = t := by injection h
    rw [Host.Core.run]
    cases M.step s <;> rfl
  | succ k ih =>
    rw [Host.Core.run] at h ⊢
    cases hstep : M.step s with
    | next u => rw [hstep] at h; exact ih h
    | fault r => rw [hstep] at h; cases h
    | refused r => rw [hstep] at h; cases h

/-- A ready block stores the colour of a pixel it has and answers `(OK, 0)` (40_pixel_encoder.md R90). -/
theorem exec_setrgb_of_ready {s : State} (hready : s.Ready) {index : Nat} (hi : index < s.n) (red green blue : Byte) :
    exec (.setrgb index red green blue) s =
      .next (storePixelBytes (4 * index + 1) (encodeColour red green blue) s) := by
  rw [exec, execSetrgb, indexFault_none hi, checked_of_ready hready]

/-- The state once the first `count` commands of a CLEAR are done and `rest` is still presented. -/
def clearedUpTo (count : Nat) (rest : List Word) (s : State) : State :=
  { s with
    cmds := rest
    pix := clearColours count s.pix
    trace := s.trace ++ List.replicate count (.response .ok 0) }

/-- The next command of a CLEAR clears the next pixel's colours. -/
theorem step_clearedUpTo {s : State} (hready : s.Ready) (hrun : s.hung = false) (hstatus : s.status = .ok)
    (hfits : s.n < 2 ^ 24) {i : Nat} (hi : i < s.n) (rest : List Word) :
    step (clearedUpTo i (encode (.setrgb i 0 0 0) ++ rest) s) = .next (clearedUpTo (i + 1) rest s) := by
  have hdec : decode (encode (.setrgb i 0 0 0) ++ rest) = .command (.setrgb i 0 0 0) rest :=
    decodeOfEncodeIsTheCommand _ _ (decide_eq_true (hi.trans hfits))
  calc step (clearedUpTo i (encode (.setrgb i 0 0 0) ++ rest) s)
      = exec (.setrgb i 0 0 0) (clearedUpTo i rest s) := stepRunsDecodedCommand _ _ rest hrun hdec
    _ = .next (storePixelBytes (4 * i + 1) (encodeColour 0 0 0) (clearedUpTo i rest s)) :=
      exec_setrgb_of_ready (s := clearedUpTo i rest s) hready hi 0 0 0
    _ = .next (clearedUpTo (i + 1) rest s) := by
      simp [clearedUpTo, storePixelBytes, finish, encodeColour, clearColours, List.replicate_succ', hstatus]

/-- The commands of a CLEAR run one after another. -/
theorem run_clearExpansion {s : State} (hready : s.Ready) (hrun : s.hung = false) (hstatus : s.status = .ok)
    (hfits : s.n < 2 ^ 24) {count : Nat} (hcount : count ≤ s.n) {rest : List Word}
    (hcmds : s.cmds = (clearExpansion count).flatMap encode ++ rest) :
    core.run count s = .next (clearedUpTo count rest s) := by
  induction count generalizing rest with
  | zero =>
    obtain rfl : s.cmds = rest := hcmds
    simp [Host.Core.run, clearedUpTo, clearColours]
  | succ i ih =>
    have hsplit : s.cmds = (clearExpansion i).flatMap encode ++ (encode (.setrgb i 0 0 0) ++ rest) := by
      rw [hcmds]; simp [clearExpansion, List.range_succ]
    exact (run_succ_of_run (ih (Nat.le_of_succ_le hcount) hsplit)).trans
      (step_clearedUpTo hready hrun hstatus hfits hcount rest)

/-- Settles O7: after `n` steps every pixel is cleared and no word is left. -/
theorem clearExpansionClearsColours : Obligations.ClearExpansionClearsColours := by
  intro s hready hrun hfits hstatus hcmds
  refine ⟨clearColours s.n s.pix,
    run_clearExpansion hready hrun hstatus hfits le_rfl (by rw [hcmds, List.append_nil]), fun a => ?_⟩
  rw [pixRead_clearColours, clearedByte]
  by_cases hlt : a < 4 * s.n <;> by_cases hbri : a % 4 = 0 <;> simp [hlt, hbri]

/-! ## The worked lines -/

/-- Settles O1: the assembler runs on each line, and each row's words are those of the command it must decode to. -/
theorem workedEncodings : Obligations.WorkedEncodings := by
  refine ⟨by decide, fun rest => ?_⟩
  have hdecode := fun i hwf => decodeOfEncodeIsTheCommand i rest hwf
  exact ⟨hdecode .initdef rfl, hdecode (.initbb 8 23 24) rfl, hdecode (.initbus 3 8000000) rfl,
    hdecode (.setrgbb 0 255 0 0 0x3F800000) rfl, hdecode (.setrgbb 1 0 255 0 0x3F000000) rfl,
    hdecode (.setbri 2 0x3E4CCCCD) rfl, hdecode (.getpix 2) rfl, hdecode (.txwr 0xA5) rfl,
    hdecode (.setcor false) rfl, hdecode (.rdreg .txidx) rfl, hdecode .release rfl⟩

end Sys2Proof.Machine
end

section
/-! PROOFS. The brightness code (40_pixel_encoder.md R85 to R88) as a function of the clamped level's bit pattern: it rises
with the pattern, so that its values at the thresholds of R86, and just below them, say all. -/

namespace Sys2Proof.Machine

/-- Rounding keeps the order: of two numbers whose roundings change places, each would be nearer to the other's. -/
theorem roundF32_mono : Monotone roundF32 := by
  intro x y hxy
  by_contra hlt
  have hx := roundF32_nearest x (f32Representable_roundF32 y)
  have hy := roundF32_nearest y (f32Representable_roundF32 x)
  obtain rfl : x = y := by omega
  exact hlt le_rfl

/-! ## Magnitudes by bit pattern -/

/-- The magnitude, in units of 2^-149, of the non-negative binary32 value with bit pattern `p`. -/
def patternUnits (p : Nat) : Nat :=
  if p / 2 ^ 23 = 0 then p % 2 ^ 23 else (2 ^ 23 + p % 2 ^ 23) * 2 ^ (p / 2 ^ 23 - 1)

/-- A word without its sign bit is its bit pattern. -/
theorem f32Units_eq_patternUnits {w : Word} (h : f32Sign w = false) : f32Units w = patternUnits w.toNat := by
  have hlt : w.toNat < 2 ^ 31 := by
    rw [f32Sign, BitVec.getLsbD, Nat.testBit_eq_decide_div_mod_eq, decide_eq_false_iff_not] at h
    have := w.isLt
    omega
  have hexp : f32Exponent w = w.toNat / 2 ^ 23 := by
    rw [f32Exponent, BitVec.extractLsb'_toNat, Nat.shiftRight_eq_div_pow]
    omega
  have hfrac : f32Fraction w = w.toNat % 2 ^ 23 := by rw [f32Fraction, BitVec.extractLsb'_toNat, Nat.shiftRight_zero]
  rw [f32Units, patternUnits, hexp, hfrac]

/-- The next pattern is one unit of the last place more, whether or not the fraction runs over into the exponent. -/
theorem patternUnits_succ (p : Nat) : patternUnits (p + 1) = patternUnits p + 2 ^ (p / 2 ^ 23 - 1) := by
  rcases Nat.lt_or_ge (p % 2 ^ 23 + 1) (2 ^ 23) with h | h
  · have hdiv : (p + 1) / 2 ^ 23 = p / 2 ^ 23 := by omega
    have hmod : (p + 1) % 2 ^ 23 = p % 2 ^ 23 + 1 := by omega
    simp only [patternUnits, hdiv, hmod]
    split
    case isTrue hexp => rw [hexp]; rfl
    case isFalse => ring
  · have hdiv : (p + 1) / 2 ^ 23 = p / 2 ^ 23 + 1 := by omega
    have hmod : (p + 1) % 2 ^ 23 = 0 := by omega
    have hlast : p % 2 ^ 23 = 2 ^ 23 - 1 := by omega
    simp only [patternUnits, hdiv, hmod, hlast]
    cases p / 2 ^ 23 with
    | zero => rfl
    | succ e =>
      show (2 ^ 23 + 0) * 2 ^ (e + 1) = (2 ^ 23 + (2 ^ 23 - 1)) * 2 ^ e + 2 ^ e
      rw [pow_succ 2 e]
      omega

theorem patternUnits_mono : Monotone patternUnits :=
  monotone_nat_of_le_succ fun p => by rw [patternUnits_succ]; exact Nat.le_add_right _ _

theorem clampedPattern_of_neg {w : Word} (h : w.getLsbD 31 = true) : clampedPattern w = 0 := if_pos h

theorem clampedPattern_of_nonneg {w : Word} (h : w.getLsbD 31 = false) : clampedPattern w = min w.toNat 0x3F800000 :=
  if_neg (Bool.not_eq_true _ ▸ h)

/-- Clamping the magnitude is clamping the pattern (R85). -/
theorem clampedUnits_eq_patternUnits (w : Word) : clampedUnits w = patternUnits (clampedPattern w) := by
  rw [clampedUnits]
  cases h : f32Sign w with
  | true => rw [if_pos rfl, clampedPattern_of_neg h]; rfl
  | false =>
    have hone : patternUnits 0x3F800000 = unitsOfOne := by decide
    rw [if_neg Bool.false_ne_true, f32Units_eq_patternUnits h, clampedPattern_of_nonneg h, patternUnits_mono.map_min,
      hone, min_comm, min_def_lt]

/-! ## The code by bit pattern -/

/-- The brightness code of the level with bit pattern `p`, by the rounded product of R85. -/
def patternCode (p : Nat) : Nat := roundF32 (31 * patternUnits p) / unitsOfOne

theorem briCode_eq_patternCode {w : Word} (h : isNaN w = false) : briCode w = patternCode (clampedPattern w) := by
  rw [briCode, h, if_neg Bool.false_ne_true, clampedUnits_eq_patternUnits, patternCode]

theorem patternCode_mono : Monotone patternCode := fun _ _ h =>
  Nat.div_le_div_right (roundF32_mono (Nat.mul_le_mul_left 31 (patternUnits_mono h)))

/-- Each code is reached at its threshold, and not just below it. -/
theorem patternCode_at_thresholds :
    ∀ t ∈ briThresholds.zipIdx, patternCode t.1 = t.2 ∧ (t.1 = 0 ∨ patternCode (t.1 - 1) < t.2) := by
  decide

/-- A pattern's code is at least `k` exactly from the threshold of `k` on. -/
theorem threshold_le_iff {k t : Nat} (ht : briThresholds[k]? = some t) (p : Nat) : t ≤ p ↔ k ≤ patternCode p := by
  obtain ⟨hat, hbelow⟩ : patternCode t = k ∧ (t = 0 ∨ patternCode (t - 1) < k) :=
    patternCode_at_thresholds (t, k) (List.mem_zipIdx_iff_getElem?.mpr ht)
  refine ⟨fun h => hat.ge.trans (patternCode_mono h), fun h => ?_⟩
  by_contra hlt
  have hle : patternCode p ≤ patternCode (t - 1) := patternCode_mono (by omega)
  omega

theorem clampedPattern_le (w : Word) : clampedPattern w ≤ 0x3F800000 := by
  rw [clampedPattern]
  split
  · exact Nat.zero_le _
  · exact min_le_right _ _

/-- The code of 1.0. -/
theorem patternCode_one : patternCode 0x3F800000 = 31 := by decide

/-- The code is a number of 5 bits, whatever the level. -/
theorem briCode_le (w : Word) : briCode w ≤ 31 := by
  cases h : isNaN w with
  | true => simp [briCode, h]
  | false => exact briCode_eq_patternCode h ▸ patternCode_one ▸ patternCode_mono (clampedPattern_le w)

/-- Settles O22: a threshold is reached exactly if its code is, so the code's own is the largest reached. -/
theorem brightnessCodeIsLargestThreshold : Obligations.BrightnessCodeIsLargestThreshold := by
  intro w hnan
  have hlt : briCode w < briThresholds.length := Nat.lt_succ_of_le (briCode_le w)
  rw [briCode_eq_patternCode hnan] at hlt ⊢
  exact ⟨briThresholds[patternCode (clampedPattern w)], List.getElem?_eq_getElem hlt,
    (threshold_le_iff (List.getElem?_eq_getElem hlt) _).mpr le_rfl, fun k u hu => (threshold_le_iff hu _).mp⟩

/-! ## Levels outside the unit interval -/

theorem isNaN_iff (w : Word) : isNaN w = true ↔ w.extractLsb' 23 8 = 0xFF#8 ∧ w.extractLsb' 0 23 ≠ 0#23 := by
  simp [isNaN, f32Exponent, f32Fraction, ← BitVec.toNat_inj]

/-- Settles O23: a NaN's code is 0, and the other levels are clamped to the pattern of 0 or to that of 1. -/
theorem brightnessOutsideUnitInterval : Obligations.BrightnessOutsideUnitInterval := by
  intro w
  rw [← isNaN_iff, Bool.not_eq_true]
  refine ⟨fun hnan => by rw [encodeBrightness, briCode, if_pos hnan]; rfl, fun hnum => ?_⟩
  rw [encodeBrightness, briCode_eq_patternCode hnum]
  refine ⟨fun hneg => ?_, fun hpos hlt => ?_⟩
  · rw [clampedPattern_of_neg hneg]; rfl
  · rw [clampedPattern_of_nonneg hpos, min_eq_right hlt.le, patternCode_one]; rfl

end Sys2Proof.Machine
end

section
/-! PROOFS. The pixel commands (40_pixel_encoder.md R90 to R93): their words, their checks, and what they read and write of
one pixel's four bytes; and that a pixel's bytes stay until a command writes them (R89). -/

namespace Sys2Proof.Machine

/-! ## The checks of a command that needs a handle -/

/-- A command that goes through the checks of a handle and of the pixel index answers them as R147 orders them. -/
theorem indexChecks_of_exec {i : Instr} {x : Nat} {s : State} {body : State → State}
    (h : exec i s = .next (checked .handle (indexFault x s) body s)) : IndexChecks i x s := by
  refine ⟨⟨fun hf => ?_, fun hf hl => ?_, fun hf hl => ?_⟩, fun hf hl hx => ?_⟩
  · rw [GivesHalted, h, checked_halted hf]; rfl
  · rw [RaisesFault, h, checked_lifecycle hf (c := .noHandle) (by rw [hl]; rfl)]; rfl
  · rw [RaisesFault, h, checked_lifecycle hf (c := .afterRelease) (by rw [hl]; rfl)]; rfl
  · rw [RaisesFault, h, indexFault_some hx, checked_range hf (by rw [hl]; rfl)]; rfl

theorem exec_setbri_of_ready {s : State} (hready : s.Ready) {index : Nat} (hi : index < s.n) (level : Word) :
    exec (.setbri index level) s = .next (storePixelBytes (4 * index) [encodeBrightness level] s) := by
  rw [exec, execSetbri, indexFault_none hi, checked_of_ready hready]

theorem exec_setrgbb_of_ready {s : State} (hready : s.Ready) {index : Nat} (hi : index < s.n) (red green blue : Byte)
    (level : Word) :
    exec (.setrgbb index red green blue level) s =
      .next (storePixelBytes (4 * index) (encodeBrightness level :: encodeColour red green blue) s) := by
  rw [exec, execSetrgbb, indexFault_none hi, checked_of_ready hready]

theorem exec_getpix_of_ready {s : State} (hready : s.Ready) {index : Nat} (hi : index < s.n) :
    exec (.getpix index) s = .next (finish .ok (pixWord s.pix index) s) := by
  rw [exec, execGetpix, indexFault_none hi, checked_of_ready hready]

/-! ## Bytes of the pixel store -/

/-- Inside a run of writes an address reads as the byte written. -/
theorem pixRead_pixWriteBytes_inside (m : Memory) (a : Nat) {bytes : List Byte} {j : Nat} {v : Byte}
    (h : bytes[j]? = some v) : pixRead (pixWriteBytes m a bytes) (a + j) = v := by
  rw [pixRead_pixWriteBytes, if_pos (Nat.le_add_right a j), Nat.add_sub_cancel_left, h, Option.getD_some]

/-- Outside a run of writes an address reads as before. -/
theorem pixRead_pixWriteBytes_outside (m : Memory) {a b : Nat} {bytes : List Byte} (h : b < a ∨ a + bytes.length ≤ b) :
    pixRead (pixWriteBytes m a bytes) b = pixRead m b := by
  rw [pixRead_pixWriteBytes]
  split
  · rw [List.getElem?_eq_none (by omega), Option.getD_none]
  · rfl

/-- The bits of a pixel's word from bit 24 up are those of its brightness byte. -/
theorem extractLsb'_pixWord_brightness (m : Memory) (i start len : Nat) :
    (pixWord m i).extractLsb' (24 + start) len = (pixRead m (4 * i)).extractLsb' start len := by
  rw [pixWord, BitVec.extractLsb'_append_eq_of_le (by omega), BitVec.extractLsb'_append_eq_of_le (by omega),
    BitVec.extractLsb'_append_eq_of_le (by omega)]
  congr 1
  omega

/-- The four byte fields of a pixel's word (20_memory.md R51). -/
theorem pixWord_fields (m : Memory) (i : Nat) :
    (pixWord m i).extractLsb' 24 8 = pixRead m (4 * i) ∧ (pixWord m i).extractLsb' 16 8 = pixRead m (4 * i + 1) ∧
      (pixWord m i).extractLsb' 8 8 = pixRead m (4 * i + 2) ∧ (pixWord m i).extractLsb' 0 8 = pixRead m (4 * i + 3) := by
  refine ⟨(extractLsb'_pixWord_brightness m i 0 8).trans BitVec.extractLsb'_eq_self, ?_, ?_, ?_⟩
  · rw [pixWord, BitVec.extractLsb'_append_eq_of_le (by decide), BitVec.extractLsb'_append_eq_of_le (by decide)]
    exact (BitVec.extractLsb'_append_eq_of_add_le (by decide)).trans BitVec.extractLsb'_eq_self
  · rw [pixWord, BitVec.extractLsb'_append_eq_of_le (by decide)]
    exact (BitVec.extractLsb'_append_eq_of_add_le (by decide)).trans BitVec.extractLsb'_eq_self
  · exact (BitVec.extractLsb'_append_eq_of_add_le (by decide)).trans BitVec.extractLsb'_eq_self

/-- The low bits of the brightness byte hold the code. -/
theorem code_encodeBrightness (level : Word) : ((encodeBrightness level).extractLsb' 0 5).toNat = briCode level := by
  have hzero : (0xE0#8).extractLsb' 0 5 = 0#5 := rfl
  rw [encodeBrightness, BitVec.extractLsb'_or, hzero, BitVec.zero_or, BitVec.extractLsb'_toNat, BitVec.toNat_ofNat,
    Nat.shiftRight_zero]
  have := briCode_le level
  omega

/-! ## Each command -/

@[simp] theorem xField_headerWord (op : Byte) (x : BitVec 24) : xField (headerWord op x) = x.toNat := by
  rw [xField, headerField_headerWord]

/-- Settles O17: the row of SETRGB, its checks, and a write of three bytes from the pixel's second on. -/
theorem setrgbWritesColour : Obligations.SetrgbWritesColour := by
  refine ⟨fun x w rest => (decode_setrgb (opcodeOf_headerWord 0x10#8 x) _).trans ?_,
    fun x red green blue s => ⟨indexChecks_of_exec rfl, fun hready hx =>
      ⟨_, exec_setrgb_of_ready hready hx red green blue, ?_, ?_, ?_, ?_⟩⟩⟩
  · simp [withOneOperand, rgbReservedZero, redField, greenField, blueField]
  · exact pixRead_pixWriteBytes_inside s.pix (4 * x + 1) (j := 0) rfl
  · exact pixRead_pixWriteBytes_inside s.pix (4 * x + 1) (j := 1) rfl
  · exact pixRead_pixWriteBytes_inside s.pix (4 * x + 1) (j := 2) rfl
  · exact fun a ha => pixRead_pixWriteBytes_outside s.pix ha

/-- Settles O18: the row of SETBRI, its checks, and a write of the pixel's first byte. -/
theorem setbriWritesBrightness : Obligations.SetbriWritesBrightness := by
  refine ⟨fun x w rest => (decode_setbri (opcodeOf_headerWord 0x11#8 x) _).trans ?_,
    fun x level s => ⟨indexChecks_of_exec rfl, fun hready hx =>
      ⟨_, exec_setbri_of_ready hready hx level, ?_, ?_⟩⟩⟩
  · simp [withOneOperand]
  · exact pixRead_pixWriteBytes_inside s.pix (4 * x) (j := 0) rfl
  · exact fun a ha => pixRead_pixWriteBytes_outside s.pix (Nat.lt_or_gt_of_ne ha)

/-- Settles O19: the row of SETRGBB, its checks, and a write of the pixel's four bytes. -/
theorem setrgbbWritesPixel : Obligations.SetrgbbWritesPixel := by
  refine ⟨fun x w level rest => (decode_setrgbb (opcodeOf_headerWord 0x12#8 x) _).trans ?_,
    fun x red green blue level s => ⟨indexChecks_of_exec rfl, fun hready hx =>
      ⟨_, exec_setrgbb_of_ready hready hx red green blue level, ?_, ?_, ?_, ?_, ?_⟩⟩⟩
  · simp [withTwoOperands, rgbReservedZero, redField, greenField, blueField]
  · exact pixRead_pixWriteBytes_inside s.pix (4 * x) (j := 0) rfl
  · exact pixRead_pixWriteBytes_inside s.pix (4 * x) (j := 1) rfl
  · exact pixRead_pixWriteBytes_inside s.pix (4 * x) (j := 2) rfl
  · exact pixRead_pixWriteBytes_inside s.pix (4 * x) (j := 3) rfl
  · exact fun a ha => pixRead_pixWriteBytes_outside s.pix ha

/-- Settles O20: the row of GETPIX, its checks, and the fields of the word it answers. -/
theorem getpixReadsPixel : Obligations.GetpixReadsPixel := by
  refine ⟨fun x rest => (decode_getpix (opcodeOf_headerWord 0x13#8 x) rest).trans (by rw [xField_headerWord]),
    fun x s => ⟨indexChecks_of_exec rfl, fun hready hx => ⟨pixWord s.pix x, exec_getpix_of_ready hready hx, ?_⟩⟩⟩
  obtain ⟨h0, h1, h2, h3⟩ := pixWord_fields s.pix x
  exact ⟨h0, h1, h2, h3, fun hinv => (extractLsb'_pixWord_brightness s.pix x 5 3).trans (hinv.marker x hx)⟩

/-! ## A pixel from one command to another -/

/-- The pixel count is the same, and so are the four bytes of pixel `x`. -/
def PixelKept (x : Nat) (s t : State) : Prop := t.n = s.n ∧ pixWord t.pix x = pixWord s.pix x

theorem PixelKept.trans {x : Nat} {s t u : State} (h : PixelKept x s t) (k : PixelKept x t u) : PixelKept x s u :=
  ⟨k.1.trans h.1, k.2.trans h.2⟩

/-- Writes inside another pixel keep this one. -/
theorem pixWord_pixWriteBytes_other (m : Memory) {x y a : Nat} {bytes : List Byte} (hxy : x ≠ y) (hlo : 4 * y ≤ a)
    (hhi : a + bytes.length ≤ 4 * y + 4) : pixWord (pixWriteBytes m a bytes) x = pixWord m x := by
  have hout : ∀ j < 4, pixRead (pixWriteBytes m a bytes) (4 * x + j) = pixRead m (4 * x + j) := fun j hj =>
    pixRead_pixWriteBytes_outside m (by omega)
  rw [pixWord, pixWord, hout 1 (by decide), hout 2 (by decide), hout 3 (by decide)]
  exact congrArg (· ++ _ ++ _ ++ _) (hout 0 (by decide))

/-- A micro-operation keeps every pixel, and so does the end of its command. -/
theorem pixelKept_of_ran {s : State} {r : State × Res} (h : Ran s r) (x : Nat) : PixelKept x s (endCommand r) := by
  obtain ⟨t, q⟩ := r
  obtain ⟨cs, b, m, j, p, g, e, -, -⟩ := h
  dsimp only at e
  subst e
  cases q <;> exact ⟨rfl, rfl⟩

theorem not_construction_of_keepsPixel {x : Nat} {i : Instr} (h : keepsPixel x i = true) :
    ¬ (i.opcode = 0x01#8 ∨ i.opcode = 0x02#8 ∨ i.opcode = 0x03#8) := by
  revert h
  cases i <;> simp [keepsPixel, Instr.opcode]

/-- A command that neither writes the pixel nor builds or releases a handle keeps the pixel. -/
theorem Ends.pixelKept {i : Instr} {s t : State} {x : Nat} (h : Ends i s t) (hkeeps : keepsPixel x i = true) :
    PixelKept x s t := by
  cases h with
  | halted | faulted | read | got | flag | noop => exact ⟨rfl, rfl⟩
  | stored y a bytes _ _ hwrites hlo hhi =>
    have hxy : x ≠ y := by
      rintro rfl
      exact Bool.false_ne_true (hwrites.symm.trans hkeeps)
    exact ⟨rfl, pixWord_pixWriteBytes_other s.pix hxy hlo hhi⟩
  | ran _ _ hi => exact pixelKept_of_ran (Ends.ran_ran hi) x
  | bitbang _ _ _ _ _ hop => exact absurd (hop.imp_right .inl) (not_construction_of_keepsPixel hkeeps)
  | bus _ _ _ hop => exact absurd (.inr (.inr hop)) (not_construction_of_keepsPixel hkeeps)
  | release b _ hi =>
    subst hi
    cases b <;> exact absurd hkeeps Bool.false_ne_true

theorem execAll_pixelKept {x : Nat} {later : List Instr} (hlater : ∀ i ∈ later, keepsPixel x i = true) {s u : State}
    (h : execAll later s = .next u) : PixelKept x s u := by
  induction later generalizing s with
  | nil =>
    obtain rfl : s = u := by injection h
    exact ⟨rfl, rfl⟩
  | cons i rest ih =>
    obtain ⟨t, ht, hends⟩ := exec_ends i s
    rw [execAll, ht] at h
    exact (hends.pixelKept (hlater i List.mem_cons_self)).trans (ih (fun j hj => hlater j (List.mem_cons_of_mem i hj)) h)

/-- Settles O21: SETRGBB writes the pixel's four bytes, the later commands keep them, and GETPIX answers them. -/
theorem pixelRoundTrip : Obligations.PixelRoundTrip := by
  intro x red green blue level s t hready hx hset later u hlater hrun hu
  obtain ⟨-, hsetrgbb⟩ := setrgbbWritesPixel
  obtain ⟨m, hcompletes, h0, h1, h2, h3, -⟩ := (hsetrgbb x red green blue level s).2 hready hx
  obtain rfl := Host.Outcome.next.inj (hcompletes.symm.trans hset)
  obtain ⟨hn, hpix⟩ := execAll_pixelKept hlater hrun
  refine ⟨pixWord m x, hpix ▸ exec_getpix_of_ready hu (hn ▸ hx), ?_⟩
  obtain ⟨-, hblue, hgreen, hred⟩ := pixWord_fields m x
  have hbri := fun start len => (extractLsb'_pixWord_brightness m x start len).trans
    (congrArg (·.extractLsb' start len) h0)
  exact ⟨hred.trans h3, hgreen.trans h2, hblue.trans h1, (congrArg _ (hbri 0 5)).trans (code_encodeBrightness level),
    (hbri 5 3).trans (marker_encodeBrightness level)⟩

end Sys2Proof.Machine
end

section
/-! PROOFS. The commands TXWR and FLUSH and the bus write (41_transport.md): on bit-bang a command is a run of GPIO calls;
on the bus it stores a byte, or ends in one transmission of what is held. -/

namespace Sys2Proof.Machine

/-! ## The commands of a ready handle -/

theorem exec_txwr_bitbang {s : State} (hready : s.Ready) (hb : s.backend = .bitbang) (v : Byte) :
    exec (.txwr v) s = .next (endCommand (runCalls (byteCalls s.pinData s.pinClock v) s)) := by
  rw [exec, execTxwr, checked_of_ready hready, twrite, hb]
  simp only [twriteBitbang_eq, State.bitbangCallsOf, List.flatMap_singleton]

theorem exec_txwr_bus {s : State} (hready : s.Ready) (hb : s.backend = .bus) (v : Byte) :
    exec (.txwr v) s = .next (endCommand (appendByte v s)) := by
  rw [exec, execTxwr, checked_of_ready hready, twrite, hb]
  simp only [twriteBus, andThen_pure]

theorem exec_flush_bitbang {s : State} (hready : s.Ready) (hb : s.backend = .bitbang) :
    exec .flush s = .next (endCommand (s, .ok)) := by
  rw [exec, execFlush, checked_of_ready hready, tflush, hb]

theorem exec_flush_bus {s : State} (hready : s.Ready) (hb : s.backend = .bus) :
    exec .flush s = .next (endCommand (tflushBus s)) := by
  rw [exec, execFlush, checked_of_ready hready, tflush, hb]

/-- A micro-operation that comes out Ok completes its command. -/
theorem completes_of_ok {i : Instr} {s u : State} {r : State × Res} (h : exec i s = .next (endCommand r))
    (hr : r = (u, .ok)) : Completes i s .ok 0 { u with seq := .idle } := by
  rw [Completes, h, hr]; rfl

/-- One that ends in an error is answered with it. -/
theorem completes_of_err {i : Instr} {s u : State} {r : State × Res} {e : ErrKind} (h : exec i s = .next (endCommand r))
    (hr : r = (u, .err e)) : Completes i s (.error e) 0 { u with seq := .idle } := by
  rw [Completes, h, hr]; rfl

/-- One that hangs ends its command where it stands. -/
theorem exec_of_hang {i : Instr} {s u : State} {r : State × Res} (h : exec i s = .next (endCommand r))
    (hr : r = (u, .hang)) : exec i s = .next u := by
  rw [h, hr, endCommand_hang]

/-! ## Errors of a call (00_scope.md R22) -/

theorem resultOf_of_deviceError (c : Call) {d : Draw} (h : d.result = .deviceError) :
    c.resultOf d = .err c.deviceErrKind := by simp [Call.resultOf, h]

theorem resultOf_of_ioError (c : Call) {d : Draw} (h : d.result = .ioError) : c.resultOf d = .err .ioError := by
  simp [Call.resultOf, h]

/-! ## Bit-bang -/

/-- Settles O26: the calls of the byte are a run, and all their answers are Ok. -/
theorem bitbangTxwrMakesTheBitCalls : Obligations.BitbangTxwrMakesTheBitCalls := by
  intro v s hready hb hok
  have hrun := runCalls_of_ok (calls := byteCalls s.pinData s.pinClock v) (s := s) (by rwa [byteCalls_length])
  exact ⟨completes_of_ok (exec_txwr_bitbang hready hb v) hrun, rfl⟩

/-- A byte is sent by GPIO writes only, whose own error is PeripheralError (R98, R22). -/
theorem deviceErrKind_byteCalls {pinData pinClock v : Byte} {c : Call} (hc : c ∈ byteCalls pinData pinClock v) :
    c.deviceErrKind = .peripheralError := by
  simp only [byteCalls, List.mem_flatten, List.mem_map] at hc
  obtain ⟨_, ⟨j, -, rfl⟩, hc⟩ := hc
  simp only [bitPulse, List.mem_cons, List.not_mem_nil, or_false] at hc
  rcases hc with rfl | rfl | rfl
  · rfl
  · rfl
  · rfl

/-- Settles O28: the first answer that is not Ok ends the run of the byte's calls, and the command with it. -/
theorem bitbangTxwrStopsAtTheFirstError : Obligations.BitbangTxwrStopsAtTheFirstError := by
  intro v s k hready hb hk hok
  have hexec := exec_txwr_bitbang hready hb v
  have hlt : k < (byteCalls s.pinData s.pinClock v).length := by rwa [byteCalls_length]
  refine ⟨fun hd => ?_, fun hd => ?_, fun hd => exec_of_hang hexec (runCalls_of_hang hlt hok hd)⟩
  · have herr := resultOf_of_deviceError (byteCalls s.pinData s.pinClock v)[k] hd
    rw [deviceErrKind_byteCalls (List.getElem_mem hlt)] at herr
    exact completes_of_err hexec (runCalls_of_err hlt hok herr)
  · exact completes_of_err hexec (runCalls_of_err hlt hok (resultOf_of_ioError _ hd))

/-- Settles O30: the flush of bit-bang is the operation that does nothing. -/
theorem bitbangFlushMakesNoCall : Obligations.BitbangFlushMakesNoCall := fun _ hready hb =>
  completes_of_ok (exec_flush_bitbang hready hb) rfl

/-! ## The bus -/

/-- A transmission that returns an error leaves what is held (R103, R106). -/
theorem sendHeld_of_err {s : State} {e : ErrKind} (h : (Call.busWrite (heldBytes s)).resultOf (s.drawAt 0) = .err e) :
    sendHeld s = (s.called [.busWrite (heldBytes s)], .err e) := by
  have hok : (s.drawAt 0).result ≠ .ok := fun hd => by simp [Call.resultOf, hd] at h
  have hret : (s.drawAt 0).result ≠ .noReturn := fun hd => by simp [Call.resultOf, hd] at h
  rw [sendHeld_of_fail hok, tryCall_of_returns hret, h, CallResult.toRes]

theorem sendHeld_of_noReturn {s : State} (h : (s.drawAt 0).result = .noReturn) :
    sendHeld s = ({ s.called [.busWrite (heldBytes s)] with hung := true }, .hang) := by
  rw [sendHeld_of_fail (by simp [h]), tryCall_of_noReturn h]

/-- A command that ends in the transmission of what `t` holds, by the answer of its call: Ok empties the buffer, an error
is the response, and a call that does not return hangs the block. -/
theorem command_sends {i : Instr} {s t : State} (h : exec i s = .next (endCommand (sendHeld t))) :
    let made := t.called [.busWrite (heldBytes t)]
    ((t.drawAt 0).result = .ok → Completes i s .ok 0 { made with idx := 0, seq := .idle }) ∧
    ((t.drawAt 0).result = .deviceError → Completes i s (.error .busError) 0 { made with seq := .idle }) ∧
    ((t.drawAt 0).result = .ioError → Completes i s (.error .ioError) 0 { made with seq := .idle }) ∧
    ((t.drawAt 0).result = .noReturn → exec i s = .next { made with hung := true }) :=
  ⟨fun hd => completes_of_ok h (sendHeld_of_ok hd),
    fun hd => completes_of_err h (sendHeld_of_err (resultOf_of_deviceError _ hd)),
    fun hd => completes_of_err h (sendHeld_of_err (resultOf_of_ioError _ hd)),
    fun hd => exec_of_hang h (sendHeld_of_noReturn hd)⟩

theorem bufRead_bufWrite_same (m : Memory) (j : Nat) (v : Byte) : bufRead (bufWrite m j v) j = v := by
  rw [bufRead_bufWrite, if_pos rfl]

theorem bufRead_bufWrite_other (m : Memory) {j k : Nat} (h : k ≠ j) (v : Byte) :
    bufRead (bufWrite m j v) k = bufRead m k := by rw [bufRead_bufWrite, if_neg h.symm]

/-- With the buffer full an append raises BufferFull and stores nothing (R102, R104). -/
theorem appendByte_full {s : State} (v : Byte) (h : s.idx = s.params.cap) : appendByte v s = (s, .fault .bufferFull) :=
  if_pos h

/-- Settles O31: below CAP the byte is stored, the one that fills the buffer is followed by a transmission of the held bytes
and it, and on a full buffer the append faults. -/
theorem busTxwrAppendsAndSendsFullBuffer : Obligations.BusTxwrAppendsAndSendsFullBuffer := by
  intro v s hready hb
  have hexec := exec_txwr_bus hready hb v
  have hstored := bufRead_bufWrite_same s.buf s.idx v
  have hkept (j : Nat) (hj : j ≠ s.idx) := bufRead_bufWrite_other s.buf hj v
  refine ⟨fun hroom => ⟨_, completes_of_ok hexec (appendByte_holds v hroom), hstored, hkept⟩,
    fun hlast => ⟨_, hstored, hkept, ?_⟩, fun hfull => ?_⟩
  · rw [appendByte_sends v hlast] at hexec
    have hsends := command_sends hexec
    rw [heldBytes_append, hlast] at hsends
    exact hsends
  · rw [hexec, appendByte_full v hfull]; rfl

theorem tflushBus_of_empty {s : State} (h : s.idx = 0) : tflushBus s = (s, .ok) := if_pos h

theorem tflushBus_of_held {s : State} (h : s.idx ≠ 0) : tflushBus s = sendHeld s := if_neg h

/-- Settles O32: a flush of an empty buffer does nothing, any other is one transmission of what is held. -/
theorem busFlushSendsWhatIsHeld : Obligations.BusFlushSendsWhatIsHeld := by
  intro s hready hb
  have hexec := exec_flush_bus hready hb
  refine ⟨fun hempty => completes_of_ok hexec (tflushBus_of_empty hempty), fun hheld => ?_⟩
  rw [tflushBus_of_held hheld] at hexec
  exact command_sends hexec

/-! ## Chunks -/

/-- Every full chunk is one transmission of `cap` bytes (R108). -/
theorem busWrite_of_mem_fullChunkCalls {cap : Nat} {bytes : List Byte} {c : Call} (hc : c ∈ fullChunkCalls cap bytes) :
    ∃ b, c = .busWrite b ∧ b.length = cap := by
  simp only [fullChunkCalls, List.mem_map, List.mem_range] at hc
  obtain ⟨j, hj, rfl⟩ := hc
  have hfits : (j + 1) * cap ≤ bytes.length :=
    (Nat.mul_le_mul_right cap hj).trans (Nat.div_mul_le_self bytes.length cap)
  rw [Nat.add_one_mul] at hfits
  exact ⟨_, rfl, by rw [List.length_take, List.length_drop]; omega⟩

/-- Settles O33: a write sends the full chunks of what is held and what is new and holds the rest, which a flush then
transmits. -/
theorem busWriteChunkCounts : Obligations.BusWriteChunkCounts := by
  intro bytes s hi all chunks
  have hlength : all.length = s.idx + bytes.length := by rw [List.length_append, heldBytes_length]
  have hchunks : chunks.length = (s.idx + bytes.length) / s.params.cap := by rw [fullChunkCalls_length, hlength]
  refine ⟨hchunks, fun _ => busWrite_of_mem_fullChunkCalls, fun hok => ?_⟩
  obtain ⟨m, hwrite, hheld⟩ := twriteBus_of_ok (by omega) hi (hchunks ▸ hok)
  rw [chunkRest_length, hlength] at hwrite hheld
  refine ⟨m, ?_⟩
  intro t
  have hrest : heldBytes t = chunkRest s.params.cap all := hheld
  refine ⟨hwrite, hrest, tflushBus_of_empty, fun hne hd => ?_⟩
  have hlast : (t.drawAt 0).result = .ok := by
    rw [← hchunks] at hd
    exact (congrArg Draw.result (drawAt_called s chunks 0)).trans hd
  rw [tflushBus_of_held hne, sendHeld_of_ok hlast, hrest, called_append]
  rfl

end Sys2Proof.Machine
end

section
/-! PROOFS. The frame (42_frame_protocol.md R113 to R121): how its bytes are split into writes is unobservable, how long its
end is, and which byte stands where. -/

namespace Sys2Proof.Machine

/-! ## Splitting a write (R120) -/

theorem twriteBitbang_append (xs ys : List Byte) (s : State) :
    twriteBitbang (xs ++ ys) s = andThen (twriteBitbang xs s) (twriteBitbang ys) := by
  induction xs generalizing s with
  | nil => rfl
  | cons v rest ih =>
    simp only [List.cons_append, twriteBitbang, andThen_assoc]
    exact andThen_congr fun _ => ih _

theorem twriteBus_append (xs ys : List Byte) (s : State) :
    twriteBus (xs ++ ys) s = andThen (twriteBus xs s) (twriteBus ys) := by
  induction xs generalizing s with
  | nil => rfl
  | cons v rest ih =>
    simp only [List.cons_append, twriteBus, andThen_assoc]
    exact andThen_congr fun _ => ih _

theorem twrite_of_bitbang {s : State} (hb : s.backend = .bitbang) (bytes : List Byte) :
    twrite bytes s = twriteBitbang bytes s := by rw [twrite, hb]

theorem twrite_of_bus {s : State} (hb : s.backend = .bus) (bytes : List Byte) : twrite bytes s = twriteBus bytes s := by
  rw [twrite, hb]

/-- Settles O34: each variant takes the bytes one after another, and the first write keeps the variant. -/
theorem writeSplitIsUnobservable : Obligations.WriteSplitIsUnobservable := by
  intro xs ys s
  have hkept := (ran_twrite xs s).backend
  cases hb : s.backend with
  | bitbang =>
    rw [twrite_of_bitbang hb, twriteBitbang_append, ← twrite_of_bitbang hb]
    exact andThen_congr fun _ => (twrite_of_bitbang (hkept.trans hb) ys).symm
  | bus =>
    rw [twrite_of_bus hb, twriteBus_append, ← twrite_of_bus hb]
    exact andThen_congr fun _ => (twrite_of_bus (hkept.trans hb) ys).symm

/-! ## The end frame (R115, R116, R118) -/

/-- Settles O39: the two formulas agree on every count, and a handle's `L` is the length its count gives. -/
theorem endFrameLengths : Obligations.EndFrameLengths := by
  refine ⟨fun N hlo hhi => ?_, by decide, fun s hinv hlife => ?_⟩
  · simp only [endFrameLen]
    omega
  · obtain ⟨-, -, hL⟩ := hinv.configured hlife
    simp only [hL, endFrameLen]
    omega

/-! ## The layout (R113, R114, R117, R121) -/

/-- The four bytes of pixels 0, 1, ... are the bytes of the store from address 0 on. -/
theorem flatMap_pixelBytes (n : Nat) (pixelByte : Nat → Byte) :
    ((List.range n).flatMap fun i =>
      [pixelByte (4 * i), pixelByte (4 * i + 1), pixelByte (4 * i + 2), pixelByte (4 * i + 3)]) =
    (List.range (4 * n)).map pixelByte := by
  induction n with
  | zero => rfl
  | succ n ih =>
    rw [List.range_succ, List.flatMap_append, ih, Nat.mul_succ]
    simp [List.range_succ]

theorem frameBytes_eq (s : State) :
    s.frameBytes =
      List.replicate 4 0x00#8 ++ (List.range (4 * s.n)).map (pixRead s.pix) ++ List.replicate s.L 0x00#8 := by
  rw [State.frameBytes, frameBytesOf, flatMap_pixelBytes]

@[simp] theorem frameBytes_length (s : State) : s.frameBytes.length = 4 + 4 * s.n + s.L := by
  simp only [frameBytes_eq, List.length_append, List.length_map, List.length_range, List.length_replicate]

theorem frameBytes_start (s : State) {j : Nat} (hj : j < 4) : s.frameBytes[j]? = some 0x00#8 := by
  rw [frameBytes_eq, List.append_assoc, List.getElem?_append_left (by rwa [List.length_replicate]),
    List.getElem?_replicate_of_lt hj]

theorem frameBytes_pixel (s : State) {a : Nat} (ha : a < 4 * s.n) : s.frameBytes[4 + a]? = some (pixRead s.pix a) := by
  rw [frameBytes_eq, List.append_assoc, List.getElem?_append_right (by simp), List.getElem?_append_left (by simpa using ha)]
  simp [ha]

theorem frameBytes_end (s : State) {j : Nat} (hj : j < s.L) : s.frameBytes[4 + 4 * s.n + j]? = some 0x00#8 := by
  have hbefore : (List.replicate 4 0x00#8 ++ (List.range (4 * s.n)).map (pixRead s.pix)).length = 4 + 4 * s.n := by
    rw [List.length_append, List.length_replicate, List.length_map, List.length_range]
  rw [frameBytes_eq, List.getElem?_append_right (by omega), hbefore, Nat.add_sub_cancel_left,
    List.getElem?_replicate_of_lt hj]

/-- Settles O40: the three parts of the frame, each byte read off its part. -/
theorem frameLayout : Obligations.FrameLayout := by
  intro s hL
  refine ⟨frame_map_snd s, ?_, fun j => frameBytes_start s, fun i hi k hk => ?_, fun j => frameBytes_end s⟩
  · rw [frameBytes_length, hL, endFrameLen]
    omega
  · rw [Nat.add_assoc]
    exact frameBytes_pixel s (by omega)

end Sys2Proof.Machine
end

section
/-! PROOFS. The command RENDER (42_frame_protocol.md R119 to R124): a write of the frame's bytes, then the flush, ended by the
first call that does not return Ok. -/

namespace Sys2Proof.Machine

/-! ## `seq` during a render (10_state.md R43) -/

theorem twrite_setSeq (bytes : List Byte) (p : SeqPos) (s : State) :
    twrite bytes (setSeq p s) = (setSeq p (twrite bytes s).1, (twrite bytes s).2) := by
  cases hb : s.backend with
  | bitbang =>
    rw [twrite_of_bitbang hb, twrite_of_bitbang (s := setSeq p s) hb, twriteBitbang_eq, twriteBitbang_eq]
    exact runCalls_seq p _ s
  | bus =>
    rw [twrite_of_bus hb, twrite_of_bus (s := setSeq p s) hb]
    exact twriteBus_seq bytes p s

theorem twrite_nil (s : State) : twrite [] s = (s, .ok) := by
  cases hb : s.backend with
  | bitbang => exact twrite_of_bitbang hb []
  | bus => exact twrite_of_bus hb []

/-- A frame is one write of its bytes, with `seq` left at the position of one of them (R120). -/
theorem sendFrame_eq_twrite {bytes : List (SeqPos × Byte)} (hne : bytes ≠ []) (s : State) :
    ∃ b ∈ bytes, sendFrame bytes s =
      (setSeq b.1 (twrite (bytes.map (·.2)) s).1, (twrite (bytes.map (·.2)) s).2) := by
  induction bytes generalizing s with
  | nil => exact absurd rfl hne
  | cons b rest ih =>
    have hsplit : twrite ((b :: rest).map (·.2)) s = andThen (twrite [b.2] s) (twrite (rest.map (·.2))) :=
      writeSplitIsUnobservable [b.2] _ s
    rw [hsplit, sendFrame, twrite_setSeq]
    by_cases hok : (twrite [b.2] s).2 = .ok
    · rw [andThen_of_ok hok, andThen_of_ok (by exact hok)]
      by_cases hrest : rest = []
      · subst hrest
        exact ⟨b, by simp, by rw [List.map_nil, twrite_nil]; rfl⟩
      · obtain ⟨c, hc, e⟩ := ih hrest (setSeq b.1 (twrite [b.2] s).1)
        exact ⟨c, by simp [hc], by rw [e, twrite_setSeq]; rfl⟩
    · exact ⟨b, by simp, by rw [andThen_of_ne hok, andThen_of_ne (by exact hok)]⟩

theorem frame_ne_nil (s : State) : frame s ≠ [] := by simp [frame, startFrame]

/-- No byte of the frame is at the position of the flush. -/
theorem ne_flush_of_mem_frame {s : State} {b : SeqPos × Byte} (hb : b ∈ frame s) : b.1 ≠ .flush := by
  simp only [frame, startFrame, pixelFrame, endFrame, List.mem_append, List.mem_map, List.mem_flatMap] at hb
  rcases hb with ⟨j, -, rfl⟩ | ⟨i, -, j, -, rfl⟩ | ⟨j, -, rfl⟩
  · simp
  · simp
  · simp

/-- Steps 1 to 3 of a render are one write of the frame's bytes, which leaves `seq` at a position of the frame. -/
theorem sendFrame_frame (s : State) :
    ∃ p : SeqPos, p.Legal s.n s.L ∧ p ≠ .flush ∧
      sendFrame (frame s) s = (setSeq p (twrite s.frameBytes s).1, (twrite s.frameBytes s).2) := by
  obtain ⟨b, hb, e⟩ := sendFrame_eq_twrite (frame_ne_nil s) s
  rw [frame_map_snd] at e
  exact ⟨b.1, legal_of_mem_frame hb, ne_flush_of_mem_frame hb, e⟩

/-! ## The first `k` calls of a run -/

/-- The `k`-th call is made in the state the calls before it leave. -/
theorem drawAt_called_take {s : State} {calls : List Call} {k : Nat} (hk : k ≤ calls.length) :
    (s.called (calls.take k)).drawAt 0 = s.drawAt k := by
  rw [drawAt_called, List.length_take, Nat.min_eq_left hk, Nat.add_zero]

theorem called_take_succ (s : State) {calls : List Call} {k : Nat} (hk : k < calls.length) :
    (s.called (calls.take k)).called [calls[k]] = s.called (calls.take (k + 1)) := by
  rw [← called_append, List.take_append_getElem hk]

/-! ## How RENDER ends (R119, R124) -/

theorem exec_render_of_ready {s : State} (hready : s.Ready) : exec .render s = .next (endCommand (render s)) := by
  rw [exec, execRender, checked_of_ready hready]

/-- A write of the frame that does not come out Ok is the whole render. -/
theorem exec_render_of_write_stops {s t : State} {r : Res} (hready : s.Ready) (hw : twrite s.frameBytes s = (t, r))
    (hr : r ≠ .ok) :
    ∃ p : SeqPos, p.Legal s.n s.L ∧ p ≠ .flush ∧ exec .render s = .next (endCommand (setSeq p t, r)) := by
  obtain ⟨p, hlegal, hflush, e⟩ := sendFrame_frame s
  rw [hw] at e
  exact ⟨p, hlegal, hflush, by rw [exec_render_of_ready hready, render, e, andThen_of_ne hr]⟩

/-- A write of the frame that ends in a call's failure ends the render with it, `seq` at a position of the frame. -/
theorem exec_render_of_write_fails {s t : State} {c : Call} (hready : s.Ready)
    (hw : twrite s.frameBytes s = tryCall c t) (hbad : (t.drawAt 0).result ≠ .ok) :
    ∃ p : SeqPos, p.Legal s.n s.L ∧ p ≠ .flush ∧ exec .render s = .next (endCommand (tryCall c (setSeq p t))) :=
  exec_render_of_write_stops hready hw ((tryCall_ok_iff c t).not.mpr hbad)

/-- A write that comes out Ok is followed by the flush. -/
theorem exec_render_of_write_ok {s t : State} (hready : s.Ready) (hw : twrite s.frameBytes s = (t, .ok)) :
    exec .render s = .next (endCommand (andThen (tflush (setSeq .flush t)) fun u => (setSeq .idle u, .ok))) := by
  obtain ⟨p, -, -, e⟩ := sendFrame_frame s
  rw [hw] at e
  rw [exec_render_of_ready hready, render, e, andThen_ok]
  rfl

/-- A render whose flush comes out Ok too completes. -/
theorem render_completes {s t u : State} (hready : s.Ready) (hw : twrite s.frameBytes s = (t, .ok))
    (hf : tflush (setSeq .flush t) = (setSeq .flush u, .ok)) : Completes .render s .ok 0 { u with seq := .idle } := by
  have hexec := exec_render_of_write_ok hready hw
  rw [hf, andThen_ok] at hexec
  exact completes_of_ok (u := setSeq .idle u) hexec rfl

/-- A command ended by a call that does not return Ok, by what the call comes to. -/
theorem command_fails {i : Instr} {s t : State} {c : Call} (h : exec i s = .next (endCommand (tryCall c t))) :
    ((t.drawAt 0).result = .deviceError → Completes i s (.error c.deviceErrKind) 0 { t.called [c] with seq := .idle }) ∧
    ((t.drawAt 0).result = .ioError → Completes i s (.error .ioError) 0 { t.called [c] with seq := .idle }) ∧
    ((t.drawAt 0).result = .noReturn → exec i s = .next { t.called [c] with hung := true }) := by
  refine ⟨fun hd => ?_, fun hd => ?_, fun hd => exec_of_hang h (tryCall_of_noReturn hd)⟩
  · exact completes_of_err h (by rw [tryCall_of_returns (by simp [hd]), resultOf_of_deviceError c hd]; rfl)
  · exact completes_of_err h (by rw [tryCall_of_returns (by simp [hd]), resultOf_of_ioError c hd]; rfl)

/-! ## Bit-bang (R122) -/

theorem twrite_frameBytes_bitbang {s : State} (hb : s.backend = .bitbang) :
    twrite s.frameBytes s = runCalls (s.bitbangCallsOf s.frameBytes) s := by
  rw [twrite_of_bitbang hb, twriteBitbang_eq]

/-- Settles O41: all the calls of the frame's bytes return Ok, and the flush does nothing. -/
theorem bitbangRenderSendsTheFrame : Obligations.BitbangRenderSendsTheFrame := by
  intro s hready hb hok
  have hlength : (s.bitbangCallsOf s.frameBytes).length = 24 * (4 + 4 * s.n + s.L) := by
    rw [bitbangCallsOf_length, frameBytes_length]
  have hw := (twrite_frameBytes_bitbang hb).trans (runCalls_of_ok (hlength ▸ hok))
  refine ⟨render_completes hready hw (u := s.called (s.bitbangCallsOf s.frameBytes)) ?_, hlength⟩
  rw [tflush, setSeq_backend, called_backend, hb]

/-- Bit-banging makes GPIO writes only, whose own error is PeripheralError (00_scope.md R22). -/
theorem deviceErrKind_bitbangCallsOf {s : State} {bytes : List Byte} {c : Call} (hc : c ∈ s.bitbangCallsOf bytes) :
    c.deviceErrKind = .peripheralError := by
  obtain ⟨v, -, hv⟩ := List.mem_flatMap.mp hc
  exact deviceErrKind_byteCalls hv

/-- Settles O42: the first answer that is not Ok ends the run of the frame's calls, and the render with it. -/
theorem bitbangRenderStopsAtTheFirstError : Obligations.BitbangRenderStopsAtTheFirstError := by
  intro s k hready hb hk hok made
  have hlt : k < (s.bitbangCallsOf s.frameBytes).length := by rwa [bitbangCallsOf_length, frameBytes_length]
  by_cases hbad : (s.drawAt k).result = .ok
  · simp [hbad]
  · have hdraw := drawAt_called_take (s := s) hlt.le
    have hw := (twrite_frameBytes_bitbang hb).trans (runCalls_of_fail hlt hok hbad)
    obtain ⟨p, hlegal, -, hexec⟩ := exec_render_of_write_fails hready hw (by rwa [hdraw])
    obtain ⟨hdevice, hio, hhang⟩ := command_fails hexec
    rw [deviceErrKind_bitbangCallsOf (List.getElem_mem hlt)] at hdevice
    rw [called_setSeq, called_take_succ s hlt] at hdevice hio hhang
    rw [← hdraw]
    exact ⟨hdevice, hio, fun hd => ⟨p, hlegal, hhang hd⟩⟩

end Sys2Proof.Machine
end

section
/-! PROOFS. RENDER on the bus (42_frame_protocol.md R119, R123, R124): which bytes each of its transmissions carries, and what
the block holds when the first of them does not return Ok. -/

namespace Sys2Proof.Machine

/-! ## The calls of a render (R123) -/

theorem busCallsOf_length (cap : Nat) (bytes : List Byte) :
    (busCallsOf cap bytes).length = bytes.length / cap + if bytes.length % cap = 0 then 0 else 1 := by
  rw [busCallsOf, List.length_append, fullChunkCalls_length, restCalls, chunkRest_length]
  split <;> rfl

/-- Bytes that fit the buffer, if there are any, are sent in one call. -/
theorem busCallsOf_of_fits {cap : Nat} {bytes : List Byte} (hne : bytes ≠ []) (hfits : bytes.length ≤ cap) :
    busCallsOf cap bytes = [.busWrite bytes] := by
  have hpos : 0 < bytes.length := List.length_pos_iff.mpr hne
  rcases hfits.lt_or_eq with hlt | heq
  · rw [busCallsOf, fullChunkCalls_of_lt hlt, restCalls, chunkRest_of_lt hlt, if_neg (by omega)]
    rfl
  · have happ := fullChunkCalls_append (bytes := []) (by omega) heq
    have hrest := chunkRest_append (bytes := []) (by omega) heq
    rw [List.append_nil] at happ hrest
    rw [busCallsOf, happ, restCalls, hrest]
    simp [fullChunkCalls, chunkRest]

/-- The calls before the flush are the full chunks. -/
theorem busCallsOf_take {cap k : Nat} {bytes : List Byte} (hk : k ≤ bytes.length / cap) :
    (busCallsOf cap bytes).take k = (fullChunkCalls cap bytes).take k :=
  List.take_append_of_le_length (by rwa [fullChunkCalls_length])

/-- The bytes a render from `s` sends: what is held, then the frame. -/
def renderBytes (s : State) : List Byte := heldBytes s ++ s.frameBytes

/-- The transmissions of a render from `s` (R123). -/
def renderCalls (s : State) : List Call := busCallsOf s.params.cap (renderBytes s)

/-- How many of them are of a full buffer. -/
def fullCount (s : State) : Nat := (renderBytes s).length / s.params.cap

theorem renderBytes_length (s : State) : (renderBytes s).length = s.idx + (4 + 4 * s.n + s.L) := by
  rw [renderBytes, List.length_append, heldBytes_length, frameBytes_length]

theorem renderCalls_length (s : State) :
    (renderCalls s).length = fullCount s + if (renderBytes s).length % s.params.cap = 0 then 0 else 1 :=
  busCallsOf_length _ _

/-- The bytes of the `k`-th transmission of a render: a full chunk, or what is left for the flush. -/
def transmitted (s : State) (k : Nat) : List Byte :=
  if k < fullCount s then ((renderBytes s).drop (k * s.params.cap)).take s.params.cap
  else chunkRest s.params.cap (renderBytes s)

theorem transmitted_full {s : State} {k : Nat} (hk : k < fullCount s) :
    transmitted s k = ((renderBytes s).drop (k * s.params.cap)).take s.params.cap := if_pos hk

theorem transmitted_rest (s : State) : transmitted s (fullCount s) = chunkRest s.params.cap (renderBytes s) :=
  if_neg (Nat.lt_irrefl _)

theorem transmitted_length (s : State) (k : Nat) :
    (transmitted s k).length = if k < fullCount s then s.params.cap else (renderBytes s).length % s.params.cap := by
  unfold transmitted
  split
  · rename_i hk
    have hfits : (k + 1) * s.params.cap ≤ (renderBytes s).length :=
      (Nat.mul_le_mul_right _ hk).trans (Nat.div_mul_le_self _ _)
    rw [Nat.add_one_mul] at hfits
    rw [List.length_take, List.length_drop]
    omega
  · exact chunkRest_length _ _

/-- A transmission that is not of a full buffer is the flush's, and bytes are left for it. -/
theorem eq_fullCount_of_rest {s : State} {k : Nat} (hk : k < (renderCalls s).length) (hrest : ¬ k < fullCount s) :
    k = fullCount s ∧ (renderBytes s).length % s.params.cap ≠ 0 := by
  rw [renderCalls_length] at hk
  split at hk
  · omega
  · rename_i hmod
    exact ⟨by omega, hmod⟩

theorem renderCalls_getElem {s : State} {k : Nat} (hk : k < (renderCalls s).length) :
    (renderCalls s)[k] = .busWrite (transmitted s k) := by
  have hchunks : (fullChunkCalls s.params.cap (renderBytes s)).length = fullCount s := fullChunkCalls_length _ _
  by_cases hfull : k < fullCount s
  · simp only [renderCalls, busCallsOf]
    rw [List.getElem_append_left (by rwa [hchunks]), transmitted_full hfull]
    simp [fullChunkCalls]
  · obtain ⟨rfl, hmod⟩ := eq_fullCount_of_rest hk hfull
    rw [← chunkRest_length] at hmod
    simp [renderCalls, busCallsOf, restCalls, hmod, hchunks, transmitted_rest]

/-! ## The flush, after a write that came out Ok (R105, R124) -/

/-- Nothing is held: the render makes no further call. -/
theorem render_completes_of_empty {s t : State} (hready : s.Ready) (hw : twrite s.frameBytes s = (t, .ok))
    (hb : t.backend = .bus) (hempty : t.idx = 0) : Completes .render s .ok 0 { t with seq := .idle } := by
  have hflush : tflush (setSeq .flush t) = (setSeq .flush t, .ok) := by
    rw [tflush, setSeq_backend, hb]
    exact tflushBus_of_empty hempty
  exact render_completes hready hw hflush

theorem tflush_setSeq_of_held {t : State} (hb : t.backend = .bus) (hheld : t.idx ≠ 0) (p : SeqPos) :
    tflush (setSeq p t) = (setSeq p (sendHeld t).1, (sendHeld t).2) := by
  rw [tflush, setSeq_backend, hb]
  exact (tflushBus_of_held (s := setSeq p t) hheld).trans (sendHeld_seq p t)

/-- What is held goes out in one call. -/
theorem render_completes_of_held {s t : State} (hready : s.Ready) (hw : twrite s.frameBytes s = (t, .ok))
    (hb : t.backend = .bus) (hheld : t.idx ≠ 0) (hd : (t.drawAt 0).result = .ok) :
    Completes .render s .ok 0 { t.called [.busWrite (heldBytes t)] with idx := 0, seq := .idle } := by
  have hflush := tflush_setSeq_of_held hb hheld .flush
  rw [sendHeld_of_ok hd] at hflush
  exact render_completes hready hw hflush

/-- The flush's call ends the render if it does not return Ok. -/
theorem exec_render_of_flush_fails {s t : State} (hready : s.Ready) (hw : twrite s.frameBytes s = (t, .ok))
    (hb : t.backend = .bus) (hheld : t.idx ≠ 0) (hbad : (t.drawAt 0).result ≠ .ok) :
    exec .render s = .next (endCommand (tryCall (.busWrite (heldBytes t)) (setSeq .flush t))) := by
  have hstops : (tryCall (.busWrite (heldBytes t)) t).2 ≠ .ok := by rwa [Ne, tryCall_ok_iff]
  rw [exec_render_of_write_ok hready hw, tflush_setSeq_of_held hb hheld, sendHeld_of_fail hbad,
    andThen_of_ne (by exact hstops)]
  rfl

/-! ## The write of the frame -/

/-- The state in which a render makes its `k`-th transmission, but for `seq`: the bytes to send are held. At
`k = fullCount s` it is the state after the write of the frame, also where nothing is left to flush. -/
def beforeTransmission (s : State) (k : Nat) (m : Memory) : State :=
  { s.called ((renderCalls s).take k) with buf := m, idx := (transmitted s k).length }

theorem beforeTransmission_drawAt {s : State} {k : Nat} (hk : k < (renderCalls s).length) (m : Memory) :
    (beforeTransmission s k m).drawAt 0 = s.drawAt k :=
  drawAt_called_take hk.le

theorem beforeTransmission_called {s : State} {k : Nat} (hk : k < (renderCalls s).length) (m : Memory) :
    (beforeTransmission s k m).called [(renderCalls s)[k]] =
      { s.called ((renderCalls s).take (k + 1)) with buf := m, idx := (transmitted s k).length } := by
  rw [← called_take_succ s hk]
  rfl

/-- With every full transmission Ok, the frame is written and the rest is held. -/
theorem twrite_frameBytes_of_ok {s : State} (hb : s.backend = .bus) (hi : s.idx < s.params.cap)
    (hok : s.AnswersOk (fullCount s)) :
    ∃ m, twrite s.frameBytes s = (beforeTransmission s (fullCount s) m, .ok) ∧
      heldBytes (beforeTransmission s (fullCount s) m) = transmitted s (fullCount s) := by
  have hchunks : (fullChunkCalls s.params.cap (renderBytes s)).length = fullCount s := fullChunkCalls_length _ _
  have hmade : (renderCalls s).take (fullCount s) = fullChunkCalls s.params.cap (renderBytes s) := by
    rw [renderCalls, busCallsOf_take (k := fullCount s) le_rfl, List.take_of_length_le hchunks.le]
  obtain ⟨m, hw, hheld⟩ := twriteBus_of_ok (bytes := s.frameBytes) (by omega) hi (hchunks ▸ hok)
  refine ⟨m, ?_⟩
  rw [beforeTransmission, hmade, transmitted_rest, twrite_of_bus hb]
  exact ⟨hw, hheld⟩

/-- With the `k`-th transmission, of a full buffer, the first that is not Ok, the write of the frame ends in that call. -/
theorem twrite_frameBytes_of_fail {s : State} {k : Nat} (hb : s.backend = .bus) (hi : s.idx < s.params.cap)
    (hk : k < fullCount s) (hok : s.AnswersOk k) (hbad : (s.drawAt k).result ≠ .ok) :
    ∃ m, twrite s.frameBytes s = tryCall (.busWrite (transmitted s k)) (beforeTransmission s k m) ∧
      heldBytes (beforeTransmission s k m) = transmitted s k := by
  obtain ⟨m, hheld, hw⟩ := twriteBus_of_fail (bytes := s.frameBytes) (by omega) hi hk hok hbad
  refine ⟨m, ?_⟩
  rw [beforeTransmission, renderCalls, busCallsOf_take hk.le, transmitted_length, if_pos hk, transmitted_full hk,
    twrite_of_bus hb]
  exact ⟨hw, hheld⟩

/-! ## A render with every transmission Ok (R123) -/

/-- With every transmission Ok, a render makes them all and leaves nothing held. -/
theorem render_completes_bus {s : State} (hready : s.Ready) (hb : s.backend = .bus) (hi : s.idx < s.params.cap)
    (hok : s.AnswersOk (renderCalls s).length) :
    ∃ m, Completes .render s .ok 0 { s.called (renderCalls s) with buf := m, idx := 0, seq := .idle } := by
  have hlength := renderCalls_length s
  have hidx : (transmitted s (fullCount s)).length = (renderBytes s).length % s.params.cap := by
    rw [transmitted_length, if_neg (Nat.lt_irrefl _)]
  obtain ⟨m, hw, hheld⟩ := twrite_frameBytes_of_ok hb hi (AnswersOk.mono hok (by omega))
  refine ⟨m, ?_⟩
  by_cases hrest : (renderBytes s).length % s.params.cap = 0
  · rw [if_pos hrest, Nat.add_zero] at hlength
    have hdone := render_completes_of_empty hready hw hb (hidx.trans hrest)
    rw [beforeTransmission, hidx, hrest, List.take_of_length_le hlength.le] at hdone
    exact hdone
  · rw [if_neg hrest] at hlength
    have hlast : fullCount s < (renderCalls s).length := by omega
    have hdraw := congrArg Draw.result (beforeTransmission_drawAt hlast m)
    have hdone := render_completes_of_held hready hw hb (hidx.trans_ne hrest) (hdraw.trans (hok _ hlast))
    rw [hheld, ← renderCalls_getElem hlast, beforeTransmission_called hlast, List.take_of_length_le hlength.le] at hdone
    exact hdone

/-- Settles O43: the full chunks of what is held and the frame go out, and the flush sends the rest. -/
theorem busRenderSendsTheFrame : Obligations.BusRenderSendsTheFrame := by
  intro s hready hb hi calls hok
  refine ⟨render_completes_bus hready hb hi hok, ?_, fun hempty hfits => ?_⟩
  · have hlength := renderCalls_length s
    rw [fullCount, renderBytes_length] at hlength
    exact hlength
  · have hall : heldBytes s ++ s.frameBytes = s.frameBytes := by rw [heldBytes_zero hempty, List.nil_append]
    have hne : s.frameBytes ≠ [] := List.ne_nil_of_length_pos (by rw [frameBytes_length]; omega)
    show busCallsOf s.params.cap (heldBytes s ++ s.frameBytes) = _
    rw [hall, busCallsOf_of_fits hne (by rwa [frameBytes_length])]

/-! ## A render with a transmission that is not Ok (R103, R106) -/

/-- Any bytes can be held. -/
theorem exists_buf_holding (s : State) (bytes : List Byte) :
    ∃ m, heldBytes { s with buf := m, idx := bytes.length } = bytes := by
  induction bytes using List.reverseRecOn with
  | nil => exact ⟨s.buf, rfl⟩
  | append_singleton bytes v ih =>
    obtain ⟨m, hm⟩ := ih
    refine ⟨bufWrite m bytes.length v, ?_⟩
    have happ := heldBytes_append { s with buf := m, idx := bytes.length } v
    rw [hm] at happ
    rw [List.length_append]
    exact happ

/-- A render whose `k`-th transmission is the first that is not Ok ends in that call, with `seq` at a position of the frame
or, if the call is the flush's, at the flush. -/
theorem exec_render_of_transmission_fails {s : State} {k : Nat} (hready : s.Ready) (hb : s.backend = .bus)
    (hi : s.idx < s.params.cap) (hk : k < (renderCalls s).length) (hok : s.AnswersOk k)
    (hbad : (s.drawAt k).result ≠ .ok) :
    ∃ m, ∃ p : SeqPos, heldBytes (beforeTransmission s k m) = transmitted s k ∧ p.Legal s.n s.L ∧
      (k < fullCount s ↔ p ≠ .flush) ∧
      exec .render s = .next (endCommand (tryCall (renderCalls s)[k] (setSeq p (beforeTransmission s k m)))) := by
  have hfails (m : Memory) : ((beforeTransmission s k m).drawAt 0).result ≠ .ok := by
    rwa [beforeTransmission_drawAt hk]
  rw [renderCalls_getElem hk]
  by_cases hfull : k < fullCount s
  · obtain ⟨m, hw, hheld⟩ := twrite_frameBytes_of_fail hb hi hfull hok hbad
    obtain ⟨p, hlegal, hflush, hexec⟩ := exec_render_of_write_fails hready hw (hfails m)
    exact ⟨m, p, hheld, hlegal, iff_of_true hfull hflush, hexec⟩
  · obtain ⟨rfl, hrest⟩ := eq_fullCount_of_rest hk hfull
    obtain ⟨m, hw, hheld⟩ := twrite_frameBytes_of_ok hb hi hok
    refine ⟨m, .flush, hheld, trivial, iff_of_false hfull (not_not.mpr rfl), ?_⟩
    have hidx : (transmitted s (fullCount s)).length ≠ 0 := by rwa [transmitted_length, if_neg hfull]
    have hexec := exec_render_of_flush_fails hready hw hb hidx (hfails m)
    rwa [hheld] at hexec

/-- A render that finds the buffer full raises BufferFull on its first byte (R104). -/
theorem exec_render_of_full {s : State} (hready : s.Ready) (hb : s.backend = .bus) (hfull : s.idx = s.params.cap) :
    exec .render s = .next (raiseFault .bufferFull (setSeq .idle s)) := by
  have hne : s.frameBytes ≠ [] := List.ne_nil_of_length_pos (by rw [frameBytes_length]; omega)
  obtain ⟨v, rest, e⟩ := List.exists_cons_of_ne_nil hne
  have hw : twrite s.frameBytes s = (s, .fault .bufferFull) := by
    rw [twrite_of_bus hb, e, twriteBus, appendByte_full v hfull]
    rfl
  obtain ⟨p, -, -, hexec⟩ := exec_render_of_write_stops hready hw (by simp)
  exact hexec

/-- Settles O44: a render ends in its first transmission that is not Ok, whose bytes stay held; on a full buffer it faults. -/
theorem busRenderReportsTheError : Obligations.BusRenderReportsTheError := by
  intro s hready hb
  refine ⟨?_, exec_render_of_full hready hb⟩
  intro hi all full calls k hk hok
  have hfull : full = fullCount s := by rw [fullCount, renderBytes_length]
  have hidx : (if k < full then s.params.cap else (s.idx + (4 + 4 * s.n + s.L)) % s.params.cap) =
      (transmitted s k).length := by rw [transmitted_length, renderBytes_length, hfull]
  have hsent : (if k < full then (all.drop (k * s.params.cap)).take s.params.cap else chunkRest s.params.cap all) =
      transmitted s k := by rw [hfull]; rfl
  rw [hidx, hsent, hfull]
  by_cases hbad : (s.drawAt k).result = .ok
  · obtain ⟨m, hm⟩ := exists_buf_holding (s.called (calls.take (k + 1))) (transmitted s k)
    exact ⟨m, hm, by simp [hbad]⟩
  · obtain ⟨m, p, hheld, hlegal, hflush, hexec⟩ := exec_render_of_transmission_fails hready hb hi hk hok hbad
    obtain ⟨hdevice, hio, hhang⟩ := command_fails hexec
    rw [called_setSeq, beforeTransmission_called hk] at hdevice hio hhang
    have hdraw := beforeTransmission_drawAt hk m
    rw [← hdraw]
    rw [renderCalls_getElem hk] at hdevice
    exact ⟨m, hheld, hdevice, hio, fun hd => ⟨p, hlegal, hflush, hhang hd⟩⟩

end Sys2Proof.Machine
end

section
/-! PROOFS. Which commands change the lifecycle (60_exceptions.md R153), and the checks and the control commands of a handle
(43_lifecycle.md R125, R131, R132, R136). -/

namespace Sys2Proof.Machine

/-! ## The lifecycle (R153) -/

/-- The lifecycle is kept, or a construction entered ACTIVE, or a release left it. -/
def LifeFollows (i : Instr) (s t : State) : Prop :=
  t.life = s.life ∨ (i.opcode = 0x01#8 ∨ i.opcode = 0x02#8 ∨ i.opcode = 0x03#8) ∧ t.life = .active ∨
    (i.opcode = 0x3E#8 ∨ i.opcode = 0x3F#8) ∧ s.life = .active ∧ t.life = .released

/-- However a command settles, only an answered construction or release changes the lifecycle. -/
theorem Settled.lifeFollows {i : Instr} {s t : State} (h : Settled i s t) : LifeFollows i s t := by
  cases h with
  | halted _ _ e => exact .inl (e ▸ respond_life _ _ _)
  | read _ _ e => exact .inl (e ▸ respond_life _ _ _)
  | answered _ _ _ _ _ _ _ _ _ _ _ _ _ hs =>
    rcases hs with ⟨-, hkept | ⟨hi, hlife⟩⟩ | ⟨-, -, hop, hactive⟩
    · exact .inl hkept
    · exact .inr (.inr ⟨by rcases hi with rfl | rfl <;> simp [Instr.opcode], hlife⟩)
    · exact .inr (.inl ⟨hop, hactive⟩)
  | faulted _ _ _ _ _ _ _ _ _ _ hs => exact .inl hs.2
  | hung _ _ _ _ _ _ _ _ _ _ hs => exact .inl hs.2

theorem refuseIllegal_life (s : State) : (refuseIllegal s).life = s.life := by
  rcases refuseIllegal_cases s with ⟨-, e⟩ | ⟨-, e⟩
  · rw [e, respond_life]
  · rw [e, raiseFault_life]

/-- Settles O13: idle steps and refusals keep the lifecycle, and so does every command but a construction and a release. -/
theorem onlyConstructionAndReleaseChangeLife : Obligations.OnlyConstructionAndReleaseChangeLife := by
  refine ⟨fun s t h hne => ?_, fun s => powerOn_life s⟩
  obtain ⟨-, ⟨-, rfl⟩ | ⟨i, rest, hd, he⟩ | ⟨rest, -, rfl⟩⟩ := step_cases h
  · exact absurd rfl hne
  · exact ⟨i, rest, hd, he.settled.lifeFollows.resolve_left hne⟩
  · exact absurd (refuseIllegal_life { s with cmds := rest }) hne

/-! ## The checks (R125, 60_exceptions.md R147) -/

section
variable {i : Instr} {s : State} {cls : CmdClass} {rf : Option FaultCode} {body : State → State}

theorem givesHalted_of_exec (h : exec i s = .next (checked cls rf body s)) (hf : s.fault ≠ none) : GivesHalted i s := by
  rw [GivesHalted, h, checked_halted hf]; rfl

theorem raisesFault_of_lifecycle (h : exec i s = .next (checked cls rf body s)) (hf : s.fault = none) {c : FaultCode}
    (hc : lifecycleFault cls s.life = some c) : RaisesFault i s c := by
  rw [RaisesFault, h, checked_lifecycle hf hc]; rfl

theorem raisesFault_of_range (h : exec i s = .next (checked cls rf body s)) (hf : s.fault = none)
    (hl : lifecycleFault cls s.life = none) {c : FaultCode} (hc : rf = some c) : RaisesFault i s c := by
  rw [RaisesFault, h, hc, checked_range hf hl]; rfl

/-- A command that goes through the checks of a handle answers them as R147 orders them. -/
theorem handleChecks_of_exec (h : exec i s = .next (checked .handle rf body s)) : HandleChecks i s :=
  ⟨givesHalted_of_exec h, fun hf hl => raisesFault_of_lifecycle h hf (by rw [hl]; rfl),
    fun hf hl => raisesFault_of_lifecycle h hf (by rw [hl]; rfl)⟩

end

/-- Settles O29: each encoding is the command's own, and each command goes through the checks of a handle. -/
theorem handleCommandsAreChecked : Obligations.HandleCommandsAreChecked := by
  refine ⟨fun v rest => ?_, fun rest => decodeOfEncodeIsTheCommand .flush rest rfl,
    fun rest => decodeOfEncodeIsTheCommand .render rest rfl, fun b rest => ?_,
    fun v b s =>
      ⟨handleChecks_of_exec rfl, handleChecks_of_exec rfl, handleChecks_of_exec rfl, handleChecks_of_exec rfl⟩⟩
  · have hword : (0x21#8 ++ 0#16 ++ v : Word) = headerWord 0x21#8 (0#16 ++ v) := BitVec.append_assoc
    rw [hword]
    exact decodeOfEncodeIsTheCommand (.txwr v) rest rfl
  · have hword : (0x30#8 ++ 0#23 ++ BitVec.ofBool b : Word) = headerWord 0x30#8 (0#23 ++ BitVec.ofBool b) :=
      BitVec.append_assoc
    rw [hword]
    exact decodeOfEncodeIsTheCommand (.setcor b) rest rfl

/-! ## Control (R131, R132) -/

/-- Settles O49: SETCOR passes its checks and writes the flag. -/
theorem setcorWritesTheFlag : Obligations.SetcorWritesTheFlag := by
  intro b s hready
  rw [Completes, exec, execSetcor, checked_of_ready hready]
  rfl

/-- Zeros above a value leave the number it is. -/
theorem toNat_zeros_append (m : Nat) {k : Nat} (x : BitVec k) : (0#m ++ x).toNat = x.toNat := by
  rw [BitVec.toNat_append]
  simp

/-- Settles O50: the words are those of the registers' numbers, and RDREG answers the register's fields as numbers. -/
theorem rdregReadsTheRegisterView : Obligations.RdregReadsTheRegisterView := by
  refine ⟨fun rest => ?_, fun g s hn hL hidx hcap => ⟨s.readReg g, rfl, ?_⟩⟩
  · have hdecode := fun g => decodeOfEncodeIsTheCommand (.rdreg g) rest rfl
    exact ⟨hdecode .life, hdecode .npix, hdecode .eflen, hdecode .ctrl, hdecode .status, hdecode .txidx, hdecode .fault,
      hdecode .txcap⟩
  · cases g with
    | life =>
      simp only [State.readReg]
      rcases s.life with _ | _ | _ <;> rcases s.backend with _ | _ <;> rcases s.txReleased with _ | _ <;> rfl
    | npix => exact (toNat_zeros_append 8 _).trans (Nat.mod_eq_of_lt hn)
    | eflen => exact (toNat_zeros_append 11 _).trans (Nat.mod_eq_of_lt hL)
    | ctrl =>
      refine (toNat_zeros_append 31 _).trans ?_
      cases s.cor <;> rfl
    | status =>
      refine (toNat_zeros_append 24 _).trans ?_
      rcases s.status with _ | ⟨_ | _ | _⟩ | ⟨_ | _ | _ | _ | _ | _ | _⟩ | _ <;> rfl
    | txidx => exact Nat.mod_eq_of_lt hidx
    | fault =>
      refine (toNat_zeros_append 24 _).trans ?_
      rcases s.fault with _ | ⟨_ | _ | _ | _ | _ | _ | _⟩ <;> rfl
    | txcap =>
      have hnum : (BitVec.ofNat 32 s.params.cap).toNat = s.params.cap := Nat.mod_eq_of_lt hcap
      simp only [State.readReg]
      cases s.backend with
      | bitbang => rfl
      | bus =>
        cases s.life with
        | unconfigured => rfl
        | active => exact hnum
        | released => exact hnum

/-! ## A released handle (R136) -/

theorem releaseHandle_of_released (explicit : Bool) {s : State} (h : s.life = .released) :
    releaseHandle explicit s = finish .ok 0 s := by rw [releaseHandle, h]

/-- RELEASE and DROP are the checked release, explicit or not (R134, R135). -/
theorem exec_releasing {i : Instr} (hi : i ∈ [Instr.release, Instr.drop]) (s : State) :
    ∃ explicit, exec i s = .next (checked .releasing none (releaseHandle explicit) s) := by
  simp only [List.mem_cons, List.not_mem_nil, or_false] at hi
  rcases hi with rfl | rfl
  · exact ⟨true, rfl⟩
  · exact ⟨false, rfl⟩

/-- Settles O51: both go through the checks of a release, and in RELEASED the release itself does nothing. -/
theorem releasedHandleReleaseIsNoop : Obligations.ReleasedHandleReleaseIsNoop := by
  refine ⟨fun rest => ⟨decodeOfEncodeIsTheCommand .release rest rfl, decodeOfEncodeIsTheCommand .drop rest rfl⟩,
    fun i hi s => ?_⟩
  obtain ⟨explicit, hexec⟩ := exec_releasing hi s
  refine ⟨givesHalted_of_exec hexec, fun hf hl => raisesFault_of_lifecycle hexec hf (by rw [hl]; rfl), fun hf hl => ?_⟩
  rw [Completes, hexec, checked_run hf (by rw [hl]; rfl), releaseHandle_of_released explicit hl]
  rfl

end Sys2Proof.Machine
end

section
/-! PROOFS. Construction (43_lifecycle.md R126 to R130): its calls are made in order up to the first that does not return Ok;
then the handle is built, or the pins acquired are released and the error is reported. -/

namespace Sys2Proof.Machine

/-! ## The calls of a construction -/

/-- As long as its calls return Ok, a construction goes on with the next. -/
theorem construct_after_ok {calls : List (Call × List Byte)} (complete : State → State) {s : State} {k : Nat}
    (hk : k ≤ calls.length) (hok : s.AnswersOk k) :
    construct calls complete s = construct (calls.drop k) complete (s.called ((calls.map (·.1)).take k)) := by
  induction calls generalizing s k with
  | nil => simp
  | cons c rest ih =>
    cases k with
    | zero => simp
    | succ k =>
      have hd : (s.drawAt 0).result = .ok := hok 0 (Nat.succ_pos k)
      have hres : (collab c.1 s).2 = .ok := by simp [collab, Call.resultOf, hd]
      have hrest : (s.called [c.1]).AnswersOk k := AnswersOk.called [c.1] (by rwa [List.length_singleton, Nat.add_comm])
      rw [construct, hres, collab_of_ok hd]
      dsimp only
      rw [ih (Nat.le_of_succ_le_succ hk) hrest, ← called_append]
      rfl

/-- With every call Ok, the handle is built (R128, R129). -/
theorem construct_of_ok {calls : List (Call × List Byte)} (complete : State → State) {s : State}
    (hok : s.AnswersOk calls.length) :
    construct calls complete s = finish .ok 0 (complete (s.called (calls.map (·.1)))) := by
  rw [construct_after_ok complete le_rfl hok, List.drop_length, List.take_of_length_le (by simp)]
  rfl

/-- A call that does not return is made and hangs the block (00_scope.md R23). -/
theorem collab_of_noReturn {c : Call} {s : State} (h : (s.drawAt 0).result = .noReturn) :
    collab c s = ({ s.called [c] with hung := true }, .noReturn) :=
  Prod.ext (congrArg Prod.fst (tryCall_of_noReturn h) : (tryCall c s).1 = _) (by simp [collab, Call.resultOf, h])

section
variable {calls : List (Call × List Byte)} (complete : State → State) {s : State} {k : Nat} (hk : k < calls.length)
  (hok : s.AnswersOk k)
include hk hok

/-- The `k`-th call is made in the state the calls before it leave. -/
theorem construct_at_call :
    construct calls complete s =
        construct (calls[k] :: calls.drop (k + 1)) complete (s.called ((calls.map (·.1)).take k)) ∧
      (s.called ((calls.map (·.1)).take k)).drawAt 0 = s.drawAt k ∧
      (s.called ((calls.map (·.1)).take k)).called [calls[k].1] = s.called ((calls.map (·.1)).take (k + 1)) := by
  have hk' : k < (calls.map (·.1)).length := by rwa [List.length_map]
  refine ⟨?_, drawAt_called_take hk'.le, ?_⟩
  · rw [construct_after_ok complete hk.le hok, List.drop_eq_getElem_cons hk]
  · rw [← called_take_succ s hk', List.getElem_map]

/-- The first call that returns an error ends the construction: the pins acquired so far are released (R130). -/
theorem construct_of_err {e : ErrKind} (herr : calls[k].1.resultOf (s.drawAt k) = .err e) :
    construct calls complete s = initFail e calls[k].2 (s.called ((calls.map (·.1)).take (k + 1))) := by
  obtain ⟨hconstruct, hdraw, hcalled⟩ := construct_at_call complete hk hok
  have hret : (s.drawAt k).result ≠ .noReturn := fun h => by simp [Call.resultOf, h] at herr
  rw [hconstruct, construct, show (collab calls[k].1 _).2 = .err e by rw [← herr, ← hdraw]; rfl,
    collab_of_returns (by rwa [hdraw]), hcalled]

/-- A call that does not return hangs the construction (00_scope.md R23). -/
theorem construct_of_noReturn (hd : (s.drawAt k).result = .noReturn) :
    construct calls complete s = { s.called ((calls.map (·.1)).take (k + 1)) with hung := true } := by
  obtain ⟨hconstruct, hdraw, hcalled⟩ := construct_at_call complete hk hok
  rw [hconstruct, construct, collab_of_noReturn (by rwa [hdraw]), hcalled]

end

/-- The pins are released in order, whatever their calls return, so long as they do (R130). -/
theorem releasePins_of_returns (pins : List Byte) {s : State} (h : s.AnswersReturn pins.length) :
    releasePins pins s = (s.called (pins.map .gpioRelease), .ok) := by
  induction pins generalizing s with
  | nil => simp [releasePins]
  | cons p rest ih =>
    have hrest : (s.called [.gpioRelease p]).AnswersReturn rest.length := fun j hj => by
      rw [drawAt_called]; exact h _ (by simp; omega)
    rw [releasePins, ignoreCall_of_returns (h 0 (by simp)), andThen_ok, ih hrest, ← called_append]
    rfl

theorem initFail_of_returns (e : ErrKind) {pins : List Byte} {s : State} (h : s.AnswersReturn pins.length) :
    initFail e pins s = finish (.error e) 0 (s.called (pins.map .gpioRelease)) := by
  rw [initFail, releasePins_of_returns pins h]

/-! ## The checks of a construction (60_exceptions.md R147) -/

theorem lifecycleFault_construction {s : State} (h : s.life ≠ .active) : lifecycleFault .construction s.life = none := by
  cases hl : s.life with
  | unconfigured => rfl
  | active => exact absurd hl h
  | released => rfl

theorem countFault_some {count : Nat} {s : State} (h : count = 0 ∨ s.params.numPixelsMax < count) :
    countFault count s = some .badConfig := if_pos h

/-- A construction that finds a bad count bad answers the checks as R147 orders them. -/
theorem constructionChecks_of_exec {i : Instr} {count : Nat} {s : State} {rf : Option FaultCode} {body : State → State}
    (h : exec i s = .next (checked .construction rf body s))
    (hrf : countFault count s = some .badConfig → rf = some .badConfig) : ConstructionChecks i count s :=
  ⟨givesHalted_of_exec h, fun hf hl => raisesFault_of_lifecycle h hf (by rw [hl]; rfl),
    fun hf hl hc => raisesFault_of_range h hf (lifecycleFault_construction hl) (hrf (countFault_some hc))⟩

/-- A construction that passes its checks runs its body. -/
theorem checked_of_constructible {count : Nat} {s : State} (h : s.Constructible count) (body : State → State) :
    checked .construction none body s = body s := by
  obtain ⟨hf, hl, -, -⟩ := h
  exact checked_run hf (lifecycleFault_construction hl) body

/-- Every pixel of a handle just built is the default `E7 00 00 00` (10_state.md R38). -/
theorem pixWord_nil (i : Nat) : pixWord [] i = 0xE7000000#32 := by
  have h0 : pixDefault (4 * i) = 0xE7#8 := if_pos (by omega)
  have h1 : pixDefault (4 * i + 1) = 0x00#8 := if_neg (by omega)
  have h2 : pixDefault (4 * i + 2) = 0x00#8 := if_neg (by omega)
  have h3 : pixDefault (4 * i + 3) = 0x00#8 := if_neg (by omega)
  simp only [pixWord, pixRead_nil, h0, h1, h2, h3]
  rfl

/-! ## Bit-bang -/

theorem exec_initbb_of_constructible {count : Nat} {pd pc : Byte} {s : State} (h : s.Constructible count) (hp : pd ≠ pc) :
    exec (.initbb count pd pc) s = .next (constructBitbang count pd pc s) := by
  obtain ⟨-, -, hpos, hmax⟩ := id h
  rw [exec, execInitbb, pinsFault_none hpos hmax hp, checked_of_constructible h]

theorem pinsFault_of_countFault {count : Nat} {s : State} {c : FaultCode} (h : countFault count s = some c) (pd pc : Byte) :
    pinsFault count pd pc s = some c := by rw [pinsFault, h]

theorem pinsFault_of_equal {count : Nat} {s : State} (h : countFault count s = none) (p : Byte) :
    pinsFault count p p s = some .badConfig := by rw [pinsFault, h]; exact if_pos rfl

/-- Settles O45: the count is checked before the pins, and with its four calls Ok INITBB builds the handle. -/
theorem initbbBuildsTheHandle : Obligations.InitbbBuildsTheHandle := by
  refine fun N pd pc s => ⟨constructionChecks_of_exec rfl fun hc => pinsFault_of_countFault hc pd pc, ?_, ?_⟩
  · rintro ⟨hf, hl, hpos, hmax⟩ rfl
    exact raisesFault_of_range rfl hf (lifecycleFault_construction hl) (pinsFault_of_equal (countFault_none hpos hmax) pd)
  · intro hs hp hok
    refine ⟨[], [], ?_, fun i _ => pixWord_nil i⟩
    rw [Completes, exec_initbb_of_constructible hs hp, constructBitbang, construct_of_ok _ hok]
    rfl

/-- INITBB makes GPIO calls only, whose own error is PeripheralError (00_scope.md R22). -/
theorem deviceErrKind_bitbangCalls {pd pc : Byte} {c : Call × List Byte} (hc : c ∈ bitbangCalls pd pc) :
    c.1.deviceErrKind = .peripheralError := by
  simp only [bitbangCalls, List.mem_cons, List.not_mem_nil, or_false] at hc
  rcases hc with rfl | rfl | rfl | rfl
  · rfl
  · rfl
  · rfl
  · rfl

/-- Settles O46: the first of the four calls that returns an error is the last, and the pins acquired by then are
released. -/
theorem initbbFailureReleasesThePins : Obligations.InitbbFailureReleasesThePins := by
  intro N pd pc s k hs hp hk hok calls acquired made hrel
  have hacq : acquired = ((bitbangCalls pd pc)[k]'hk).2 := by
    have hget : ((bitbangCalls pd pc).map (·.2))[k]? = some ((bitbangCalls pd pc)[k]'hk).2 := by
      rw [List.getElem?_map, List.getElem?_eq_getElem hk]; rfl
    exact congrArg (·.getD []) hget
  have hreturn : (s.called (calls.take (k + 1))).AnswersReturn acquired.length := fun j hj => by
    have hlen : (calls.take (k + 1)).length = k + 1 := by
      rw [List.length_take]; exact Nat.min_eq_left hk
    rw [drawAt_called, hlen]
    exact hrel j hj
  have hfails {e : ErrKind} (herr : ((bitbangCalls pd pc)[k]'hk).1.resultOf (s.drawAt k) = .err e) :
      Completes (.initbb N pd pc) s (.error e) 0 made := by
    rw [Completes, exec_initbb_of_constructible hs hp, constructBitbang, construct_of_err _ hk hok herr, ← hacq]
    have hmade : made = (s.called (calls.take (k + 1))).called (acquired.map .gpioRelease) := called_append s _ _
    rw [hmade]
    exact congrArg _ (initFail_of_returns e hreturn)
  refine ⟨fun hd => ?_, fun hd => hfails (resultOf_of_ioError _ hd)⟩
  have herr := resultOf_of_deviceError ((bitbangCalls pd pc)[k]'hk).1 hd
  rw [deviceErrKind_bitbangCalls (List.getElem_mem hk)] at herr
  exact hfails herr

/-- Settles O47: both commands go through the same checks to the same body. -/
theorem initdefIsInitbbOfTheDefaults : Obligations.InitdefIsInitbbOfTheDefaults := by
  refine ⟨fun rest => decodeOfEncodeIsTheCommand .initdef rest rfl, fun s => ⟨rfl, fun hs hp hok => ?_⟩⟩
  obtain ⟨-, -, hbuilds⟩ := initbbBuildsTheHandle 8 s.params.defaultPinData s.params.defaultPinClock s
  obtain ⟨m, b, hcompletes, hpix⟩ := hbuilds hs hp hok
  exact ⟨_, hcompletes, rfl, rfl, rfl, rfl, rfl, rfl, rfl, rfl, hpix⟩

/-! ## The bus -/

/-- Settles O48: the one call opens the bus, and its answer decides how INITBUS ends. -/
theorem initbusOpensTheBus : Obligations.InitbusOpensTheBus := by
  refine fun N hz s => ⟨constructionChecks_of_exec rfl id, ?_⟩
  intro hs made
  have hexec : exec (.initbus N hz) s = .next (constructBus N hz s) := by
    obtain ⟨-, -, hpos, hmax⟩ := id hs
    rw [exec, execInitbus, countFault_none hpos hmax, checked_of_constructible hs]
  have hnone : s.AnswersOk 0 := fun j hj => absurd hj (Nat.not_lt_zero j)
  have hfails {e : ErrKind} (herr : (Call.busOpen s.params.busId s.params.chipSelect hz s.params.busMode).resultOf
      (s.drawAt 0) = .err e) : Completes (.initbus N hz) s (.error e) 0 made := by
    rw [Completes, hexec, constructBus, construct_of_err (calls := [(_, _)]) (k := 0) _ Nat.one_pos hnone herr]
    rfl
  refine ⟨fun hd => ⟨[], [], ?_, fun i _ => pixWord_nil i⟩, fun hd => hfails (resultOf_of_deviceError _ hd),
    fun hd => hfails (resultOf_of_ioError _ hd), fun hd => ?_⟩
  · have hok : s.AnswersOk 1 := fun j hj => by rwa [Nat.lt_one_iff.mp hj]
    rw [Completes, hexec, constructBus, construct_of_ok _ hok]
    rfl
  · rw [hexec, constructBus, construct_of_noReturn (calls := [(_, _)]) (k := 0) _ Nat.one_pos hnone hd]
    rfl

end Sys2Proof.Machine
end

section
/-! PROOFS. Release (43_lifecycle.md R133 to R138): with `cor = 1` a release clears the colours and does what RENDER does
from there; then, unless that raised a fault or hangs, it releases the transport, whatever the render reported. -/

namespace Sys2Proof.Machine

/-! ## The clear (R133) -/

/-- The state with every colour byte of the handle cleared. -/
def cleared (s : State) : State := { s with pix := clearColours s.n s.pix }

/-- Inside the handle a byte is as R133 says, outside it is kept. -/
theorem pixRead_cleared (s : State) (a : Nat) :
    pixRead (cleared s).pix a = if a < 4 * s.n then clearedByte s.pix a else pixRead s.pix a := by
  rw [cleared, pixRead_clearColours, clearedByte]
  by_cases hlt : a < 4 * s.n <;> by_cases hbri : a % 4 = 0 <;> simp [hlt, hbri]

/-- The frame of the cleared pixels. -/
theorem frameBytes_cleared (s : State) : (cleared s).frameBytes = s.clearedFrameBytes := by
  rw [frameBytes_eq, State.clearedFrameBytes, frameBytesOf, flatMap_pixelBytes]
  congr 2
  refine List.map_congr_left fun a ha => ?_
  have hlt : a < 4 * s.n := List.mem_range.mp ha
  rw [pixRead_cleared, if_pos hlt]

theorem renderCalls_cleared (s : State) :
    renderCalls (cleared s) = busCallsOf s.params.cap (heldBytes s ++ s.clearedFrameBytes) := by
  rw [← frameBytes_cleared]; rfl

theorem releaseRender_of_cor {s : State} (h : s.cor = true) : releaseRender s = render (cleared s) := if_pos h

theorem releaseRender_of_not_cor {s : State} (h : s.cor = false) : releaseRender s = (s, .ok) := by
  rw [releaseRender, h]; rfl

/-! ## What a release makes of its render (R133, R138) -/

section
variable {s t : State} (explicit : Bool) (hl : s.life = .active)
include hl

theorem releaseHandle_of_ok (h : releaseRender s = (t, .ok)) : releaseHandle explicit s = teardown .ok t := by
  rw [releaseHandle, hl, h]

theorem releaseHandle_of_err {k : ErrKind} (h : releaseRender s = (t, .err k)) :
    releaseHandle explicit s = teardown (if explicit then .error k else .ok) t := by
  rw [releaseHandle, hl, h]

theorem releaseHandle_of_fault {c : FaultCode} (h : releaseRender s = (t, .fault c)) :
    releaseHandle explicit s = endCommand (t, .fault c) := by
  rw [releaseHandle, hl, h, endCommand_fault]

end

/-! ## The render is RENDER's (R124) -/

theorem finish_injective {st st' : Status} {data data' : Word} {s t : State} (hst : s.status = t.status)
    (h : finish st data s = finish st' data' t) : s = t := by
  have hs : s = { finish st data s with status := s.status, trace := (finish st data s).trace.dropLast } := by simp [finish]
  have ht : t = { finish st' data' t with status := t.status, trace := (finish st' data' t).trace.dropLast } := by
    simp [finish]
  rw [hs, ht, h, hst]

/-- States that agree but for `seq`. -/
theorem eq_setSeq_of_idle {s t : State} (h : setSeq .idle s = setSeq .idle t) : s = setSeq s.seq t :=
  (congrArg (setSeq s.seq) h : setSeq s.seq (setSeq .idle s) = setSeq s.seq (setSeq .idle t))

/-- No micro-operation writes the fault or the status. -/
theorem Ran.keeps_fault_status {s : State} {r : State × Res} (h : Ran s r) :
    r.1.fault = s.fault ∧ r.1.status = s.status := by
  obtain ⟨cs, x, b, i, p, g, e, -⟩ := h
  rw [e]
  exact ⟨rfl, rfl⟩

theorem Ran.hung_of_hang {s : State} {r : State × Res} (h : Ran s r) (hr : r.2 = .hang) : r.1.hung = true := by
  obtain ⟨cs, x, b, i, p, e, -⟩ := h.hangs hr
  rw [e]

/-- A micro-operation that hangs ends in a call, so its command gives no response. -/
theorem Ran.no_response_of_hang {s : State} {r : State × Res} (h : Ran s r) (hr : r.2 = .hang) (st : Status)
    (data : Word) : r.1.trace.getLast? ≠ some (.response st data) := by
  obtain ⟨cs, x, b, i, p, e, c, d, hlast, -⟩ := h.hangs hr
  have hcall : r.1.trace.getLast? = some (.call c d) := by
    rw [e]; exact List.mem_getLast?_append_of_mem_getLast? hlast
  simp [hcall]

/-- Where RENDER on the cleared pixels answers OK or an error, a release goes on to its teardown from what RENDER left;
RELEASE will report that answer, DROP will report OK. -/
theorem releaseHandle_of_render_answers {s u : State} {st : Status} (hready : s.Ready) (hcor : s.cor = true)
    (h : Completes .render (cleared s) st 0 { u with seq := .idle }) (hfault : u.fault = none)
    (hstatus : u.status = s.status) (explicit : Bool) :
    ∃ p, releaseHandle explicit s = teardown (if explicit then st else .ok) (setSeq p u) := by
  have hran := ran_render (cleared s)
  have hend : endCommand (render (cleared s)) = finish st 0 (setSeq .idle u) := by
    rw [Completes, exec_render_of_ready (s := cleared s) hready] at h
    injection h
  have hrender := releaseRender_of_cor hcor
  generalize render (cleared s) = r at hran hend hrender
  obtain ⟨t, q⟩ := r
  have hleft {st' : Status} (hf : finish st' 0 (setSeq .idle t) = finish st 0 (setSeq .idle u)) : t = setSeq t.seq u :=
    eq_setSeq_of_idle (finish_injective (hran.keeps_fault_status.2.trans hstatus.symm) hf)
  cases q with
  | ok =>
    obtain rfl : .ok = st := congrArg State.status hend
    refine ⟨t.seq, ?_⟩
    rw [← hleft hend, releaseHandle_of_ok explicit hready.2 hrender, ite_self]
  | err k =>
    obtain rfl : .error k = st := congrArg State.status hend
    exact ⟨t.seq, by rw [← hleft hend, releaseHandle_of_err explicit hready.2 hrender]⟩
  | fault c =>
    have hsome : some c = u.fault := congrArg State.fault hend
    rw [hfault] at hsome
    cases hsome
  | hang =>
    have htrace : t.trace = _ := congrArg State.trace hend
    exact absurd (by rw [htrace, finish_trace, List.getLast?_concat]) (hran.no_response_of_hang rfl st 0)

/-- Where RENDER on the cleared pixels raises a fault, a release ends as RENDER does. -/
theorem releaseHandle_of_render_faults {s t : State} (hready : s.Ready) (hcor : s.cor = true)
    (h : exec .render (cleared s) = .next t) (hfault : t.fault ≠ none) (explicit : Bool) :
    releaseHandle explicit s = t := by
  have hran := ran_render (cleared s)
  have hend : endCommand (render (cleared s)) = t := by
    rw [exec_render_of_ready (s := cleared s) hready] at h
    injection h
  have hrender := releaseRender_of_cor hcor
  generalize render (cleared s) = r at hran hend hrender
  obtain ⟨u, q⟩ := r
  have hnone : u.fault = none := hran.keeps_fault_status.1.trans hready.1
  subst hend
  cases q with
  | fault c => exact releaseHandle_of_fault explicit hready.2 hrender
  | ok => exact absurd hnone hfault
  | err k => exact absurd hnone hfault
  | hang => exact absurd hnone hfault

/-! ## The teardown (41_transport.md R101, R107) -/

theorem trelease_of_bitbang {s : State} (hb : s.backend = .bitbang) : trelease s = treleaseBitbang s := by
  rw [trelease, hb]

theorem trelease_of_bus {s : State} (hb : s.backend = .bus) : trelease s = treleaseBus s := by rw [trelease, hb]

/-- On bit-bang both pins are released, whatever the two calls return, so long as they do. -/
theorem trelease_bitbang {s : State} (hb : s.backend = .bitbang) (hx : s.txReleased = false) (hret : s.AnswersReturn 2) :
    trelease s =
      ({ s.called [.gpioRelease s.pinData, .gpioRelease s.pinClock] with txReleased := true }, .ok) := by
  have hdata := ignoreCall_of_returns (c := .gpioRelease s.pinData) (s := { s with txReleased := true })
    (hret 0 Nat.two_pos)
  have hclock := ignoreCall_of_returns (c := .gpioRelease s.pinClock)
    (s := ({ s with txReleased := true } : State).called [.gpioRelease s.pinData])
    (by rw [drawAt_called]; exact hret 1 Nat.one_lt_two)
  rw [trelease_of_bitbang hb, treleaseBitbang, if_neg (by simp [hx]), hdata, andThen_ok]
  exact hclock.trans (by rw [← called_append]; rfl)

/-- On the bus what is held is discarded, without a call. -/
theorem trelease_bus {s : State} (hb : s.backend = .bus) (hx : s.txReleased = false ∨ s.idx = 0) :
    trelease s = ({ s with txReleased := true, idx := 0 }, .ok) := by
  rw [trelease_of_bus hb, treleaseBus]
  by_cases h : s.txReleased = true
  · have hidx : s.idx = 0 := hx.resolve_left (by simp [h])
    have hsame : s = { s with txReleased := true, idx := 0 } := by rw [← h, ← hidx]
    rw [if_pos h, ← hsame]
  · rw [if_neg h]

/-- A release of the transport marks it released, also where a call of it hangs. -/
theorem trelease_txReleased (s : State) : (trelease s).1.txReleased = true := by
  cases hb : s.backend with
  | bitbang =>
    rw [trelease_of_bitbang hb, treleaseBitbang]
    split
    · assumption
    · by_cases h : (ignoreCall (.gpioRelease s.pinData) { s with txReleased := true }).2 = .ok
      · rw [andThen_of_ok h]; rfl
      · rw [andThen_of_ne h]; rfl
  | bus =>
    rw [trelease_of_bus hb, treleaseBus]
    split
    · assumption
    · rfl

theorem teardown_of_released {s t : State} (h : trelease s = (t, .ok)) (st : Status) :
    teardown st s = finish st 0 { t with life := .released, seq := .idle } := by rw [teardown, h]

/-! ## How a release ends -/

/-- RELEASE would answer `st` and leave `u`, DROP would answer OK and leave the same (R134, R135). -/
def ReleaseEnds (s : State) (st : Status) (u : State) : Prop :=
  ∀ explicit, releaseHandle explicit s = finish (if explicit then st else .ok) 0 u

/-- A release that passes its checks runs its body. -/
theorem checked_releasing_of_ready {s : State} (h : s.Ready) (body : State → State) :
    checked .releasing none body s = body s := checked_run h.1 (by rw [h.2]; rfl) body

theorem exec_releasing_of_ready {i : Instr} (hi : i ∈ [Instr.release, Instr.drop]) {s : State} (h : s.Ready) :
    ∃ explicit, exec i s = .next (releaseHandle explicit s) := by
  obtain ⟨explicit, hexec⟩ := exec_releasing hi s
  exact ⟨explicit, by rw [hexec, checked_releasing_of_ready h]⟩

theorem exec_release_of_ready {s : State} (h : s.Ready) : exec .release s = .next (releaseHandle true s) :=
  congrArg _ (checked_releasing_of_ready h _)

theorem exec_drop_of_ready {s : State} (h : s.Ready) : exec .drop s = .next (releaseHandle false s) :=
  congrArg _ (checked_releasing_of_ready h _)

theorem ReleaseEnds.release_drop {s u : State} {st : Status} (h : ReleaseEnds s st u) (hready : s.Ready) :
    Completes .release s st 0 u ∧ Completes .drop s .ok 0 u :=
  ⟨(exec_release_of_ready hready).trans (congrArg _ (h true)), (exec_drop_of_ready hready).trans (congrArg _ (h false))⟩

/-- A release without an error is the same by RELEASE and by DROP. -/
theorem ReleaseEnds.completes {s u : State} (h : ReleaseEnds s .ok u) (hready : s.Ready) {i : Instr}
    (hi : i ∈ [Instr.release, Instr.drop]) : Completes i s .ok 0 u := by
  obtain ⟨explicit, hexec⟩ := exec_releasing_of_ready hi hready
  rw [Completes, hexec, h explicit, ite_self]
  rfl

/-- On bit-bang, after RENDER's calls on the cleared pixels come the releases of the two pins. -/
theorem releaseEnds_bitbang {s : State} {st : Status} {calls : List Call} (hready : s.Ready) (hb : s.backend = .bitbang)
    (hcor : s.cor = true) (hx : s.txReleased = false) (hret : s.AnswersReturn (calls.length + 2))
    (h : Completes .render (cleared s) st 0 { (cleared s).called calls with seq := .idle }) :
    ReleaseEnds s st { s.called (calls ++ [.gpioRelease s.pinData, .gpioRelease s.pinClock]) with
      pix := (cleared s).pix, txReleased := true, life := .released, seq := .idle } := by
  intro explicit
  obtain ⟨p, hrelease⟩ := releaseHandle_of_render_answers hready hcor h hready.1 rfl explicit
  have hpins : (setSeq p ((cleared s).called calls)).AnswersReturn 2 := fun j hj => by
    have hdraw : (setSeq p ((cleared s).called calls)).drawAt j = s.drawAt (calls.length + j) :=
      drawAt_called (cleared s) calls j
    rw [hdraw]
    exact hret _ (by omega)
  rw [hrelease, teardown_of_released (trelease_bitbang (s := setSeq p ((cleared s).called calls)) hb hx hpins),
    called_append]
  rfl

/-- On the bus, after RENDER's calls on the cleared pixels comes none. -/
theorem releaseEnds_bus {s : State} {st : Status} {calls : List Call} {b : Memory} {x : Nat} (hready : s.Ready)
    (hb : s.backend = .bus) (hcor : s.cor = true) (hx : s.txReleased = false ∨ x = 0)
    (h : Completes .render (cleared s) st 0 { (cleared s).called calls with buf := b, idx := x, seq := .idle }) :
    ReleaseEnds s st { s.called calls with
      pix := (cleared s).pix, buf := b, idx := 0, txReleased := true, life := .released, seq := .idle } := by
  intro explicit
  obtain ⟨p, hrelease⟩ := releaseHandle_of_render_answers (u := { (cleared s).called calls with buf := b, idx := x })
    hready hcor h hready.1 rfl explicit
  rw [hrelease, teardown_of_released
    (trelease_bus (s := setSeq p { (cleared s).called calls with buf := b, idx := x }) hb hx)]
  rfl

/-! ## A release whose render comes out Ok -/

/-- Settles O52: RENDER on the cleared pixels makes the frame's calls, and the two pins are released after them. -/
theorem bitbangReleaseBlanksAndReleasesPins : Obligations.BitbangReleaseBlanksAndReleasesPins := by
  intro i hi s hready hb hcor hx hok hret
  obtain ⟨hrender, hlength⟩ := bitbangRenderSendsTheFrame (cleared s) hready hb hok
  rw [frameBytes_cleared] at hrender hlength
  have hends := releaseEnds_bitbang hready hb hcor hx (by rw [hlength]; exact hret) hrender
  exact ⟨(cleared s).pix, hends.completes hready hi, pixRead_cleared s⟩

/-- Settles O53: RENDER on the cleared pixels sends what is held and the frame, and nothing is held after it. -/
theorem busReleaseBlanksAndDrains : Obligations.BusReleaseBlanksAndDrains := by
  intro i hi s hready hb hcor hidx calls hok
  have hcalls : renderCalls (cleared s) = calls := renderCalls_cleared s
  obtain ⟨b, hrender⟩ := render_completes_bus (s := cleared s) hready hb hidx (by rw [hcalls]; exact hok)
  rw [hcalls] at hrender
  have hends := releaseEnds_bus hready hb hcor (.inr rfl) hrender
  exact ⟨(cleared s).pix, b, hends.completes hready hi, pixRead_cleared s⟩

/-- Settles O54: with `cor = 0` the teardown is all a release does. -/
theorem releaseWithoutClearOnlyReleases : Obligations.ReleaseWithoutClearOnlyReleases := by
  intro i hi s hready hcor hx
  have hteardown (explicit : Bool) : releaseHandle explicit s = teardown .ok s :=
    releaseHandle_of_ok explicit hready.2 (releaseRender_of_not_cor hcor)
  have hends {t : State} (ht : trelease s = (t, .ok)) :
      ReleaseEnds s .ok { t with life := .released, seq := .idle } := fun explicit => by
    rw [hteardown, teardown_of_released ht, ite_self]
  exact ⟨fun hb hret => (hends (trelease_bitbang hb hx hret)).completes hready hi,
    fun hb => (hends (trelease_bus hb (.inl hx))).completes hready hi⟩

/-! ## A release whose render does not come out Ok (R138, R150) -/

/-- Settles O55: RENDER on the cleared pixels ends in its first call that returns an error, and the transport is released
after it. -/
theorem releaseTearsDownAfterRenderError : Obligations.ReleaseTearsDownAfterRenderError := by
  intro s k hready hcor hx hok
  refine ⟨(cleared s).pix, pixRead_cleared s, ?_, ?_⟩
  · intro hb hk hret
    have hlength : ((s.bitbangCallsOf s.clearedFrameBytes).take (k + 1)).length = k + 1 := by
      rw [List.length_take, bitbangCallsOf_length, ← frameBytes_cleared, frameBytes_length]
      exact Nat.min_eq_left hk
    obtain ⟨hdevice, hio, -⟩ := bitbangRenderStopsAtTheFirstError (cleared s) k hready hb hk hok
    rw [frameBytes_cleared] at hdevice hio
    have hends {e : ErrKind} := releaseEnds_bitbang (st := .error e) hready hb hcor hx (by rw [hlength]; exact hret)
    exact ⟨fun hd => (hends (hdevice hd)).release_drop hready, fun hd => (hends (hio hd)).release_drop hready⟩
  · intro hb hidx calls hk
    have hcalls : renderCalls (cleared s) = calls := renderCalls_cleared s
    have hk' : k < (renderCalls (cleared s)).length := by rw [hcalls]; exact hk
    obtain ⟨b, -, hdevice, hio, -⟩ := (busRenderReportsTheError (cleared s) hready hb).1 hidx k hk' hok
    refine ⟨b, ?_⟩
    rw [← hcalls]
    exact ⟨fun hd => (releaseEnds_bus hready hb hcor (.inl hx) (hdevice hd)).release_drop hready,
      fun hd => (releaseEnds_bus hready hb hcor (.inl hx) (hio hd)).release_drop hready⟩

/-- Settles O56: RENDER on the cleared pixels finds the buffer full and raises BufferFull, and so does the release. -/
theorem bufferFullInReleaseHalts : Obligations.BufferFullInReleaseHalts := by
  intro i hi s hready hb hcor hfull
  have hrender := exec_render_of_full (s := cleared s) hready hb hfull
  have hend := releaseHandle_of_render_faults hready hcor hrender (by simp)
  obtain ⟨explicit, hexec⟩ := exec_releasing_of_ready hi hready
  exact ⟨(cleared s).pix, hexec.trans (congrArg _ (hend explicit)), pixRead_cleared s⟩

/-- Settles O57: a DROP ends in a teardown that returns, with status OK; else it raised a fault or hangs. -/
theorem dropNeverSurfacesAnError : Obligations.DropNeverSurfacesAnError := by
  intro s t hready _ hexec hrun hfault
  obtain rfl : releaseHandle false s = t := by
    rw [exec_drop_of_ready hready] at hexec
    injection hexec
  rcases releaseHandle_cases false hready.2 with ⟨st, hst, -, -, e⟩ | ⟨c, -, e⟩ | ⟨hq, e⟩
  · obtain rfl : st = .ok := hst.resolve_right (by simp)
    rcases teardown_cases .ok (releaseRender s).1 with ⟨-, e'⟩ | ⟨hq, e'⟩
    · rw [e, e']
      exact ⟨rfl, by simp, rfl, trelease_txReleased _⟩
    · rw [e, e', (ran_trelease _).hung_of_hang hq] at hrun
      cases hrun
  · rw [e] at hfault
    cases hfault
  · rw [e, (ran_releaseRender s).hung_of_hang hq] at hrun
    cases hrun

end Sys2Proof.Machine
end

section
/-! PROOFS. The words a command takes (30_encoding.md R70, R74), the idle block (60_exceptions.md R158), and the block while a
fault is recorded (R146). -/

namespace Sys2Proof.Machine

/-! ## The words of a command -/

theorem operandWords_of_row : ∀ row ∈ opcodeMap, operandWords row.1 = row.2.1 := by decide

theorem operandWords_of_noRow : ∀ op : Byte, (∀ row ∈ opcodeMap, op ≠ row.1) → operandWords op = 0 := by decide

/-- A row with operand words reserves no header bit, so its opcode alone selects it. -/
theorem selected_of_operandWords {row : Byte × Nat × Word × Word} (hrow : row ∈ opcodeMap) (hk : row.2.1 ≠ 0) {w : Word}
    (h : opcodeOf w = row.1) : w &&& row.2.2.2 = row.2.2.1 := by
  have hformatX : ∀ row ∈ opcodeMap, row.2.1 ≠ 0 →
      row.2.2.2 = headerWord (BitVec.allOnes 8) (BitVec.allOnes 24 <<< 24) ∧ row.2.2.1 = headerWord row.1 0#24 := by
    decide
  obtain ⟨hmask, hmatch⟩ := hformatX row hrow hk
  rw [hmask, hmatch]
  exact selected_formatX h

/-- A header whose operand words are not all there is no command yet. -/
theorem decode_incomplete {w : Word} {rest : List Word} (h : rest.length < operandWords (opcodeOf w)) :
    decode (w :: rest) = .incomplete := by
  by_cases hop : ∃ row ∈ opcodeMap, opcodeOf w = row.1
  · obtain ⟨row, hrow, hop⟩ := hop
    rw [hop, operandWords_of_row row hrow] at h
    have hselected := selected_of_operandWords hrow (by omega) hop
    exact ((followsRow hrow hop rest).selected hselected).1 h
  · have hnone : operandWords (opcodeOf w) = 0 := operandWords_of_noRow _ fun row hrow e => hop ⟨row, hrow, e⟩
    omega

/-- With its operand words there, a header and those words are taken, whether they spell a command or none. -/
theorem decode_takes_operandWords {w : Word} {rest : List Word} (h : operandWords (opcodeOf w) ≤ rest.length) :
    (∃ i, decode (w :: rest) = .command i (rest.drop (operandWords (opcodeOf w)))) ∨
      SpellsNone (w :: rest) (rest.drop (operandWords (opcodeOf w))) := by
  by_cases hop : ∃ row ∈ opcodeMap, opcodeOf w = row.1
  · obtain ⟨row, hrow, hop⟩ := hop
    rw [hop, operandWords_of_row row hrow] at h ⊢
    by_cases hm : w &&& row.2.2.2 = row.2.2.1
    · rcases ((followsRow hrow hop rest).selected hm).2 h with ⟨i, -, hd⟩ | hd
      · exact .inl ⟨i, hd⟩
      · exact .inr (.inr (.inr hd))
    · have hk : row.2.1 = 0 := not_not.mp fun hk => hm (selected_of_operandWords hrow hk hop)
      rw [hk]
      exact .inr (.inr (.inl ((followsRow hrow hop rest).reserved hm)))
  · have hnone : ∀ row ∈ opcodeMap, opcodeOf w ≠ row.1 := fun row hrow e => hop ⟨row, hrow, e⟩
    rw [operandWords_of_noRow _ hnone]
    exact .inr (.inl (decode_of_noRow hnone rest))

/-- Settles O9: with no header, or a header without all its operand words, there is nothing to decode. -/
theorem idleBlockKeepsState : Obligations.IdleBlockKeepsState := by
  intro s hrun hwords
  have hinc : decode s.cmds = .incomplete := by
    rcases hwords with hnil | ⟨w, rest, hcmds, hshort⟩
    · rw [hnil]; rfl
    · rw [hcmds]; exact decode_incomplete hshort
  rw [step_of_running hrun, takeCommand, hinc]

/-! ## While a fault is recorded (R146) -/

/-- A command other than RDREG settles as halted: every other ending asks that no fault was recorded. -/
theorem Settled.eq_halted {i : Instr} {s t : State} (h : Settled i s t) (hfault : s.fault ≠ none)
    (hi : ∀ g, i ≠ .rdreg g) : t = respond .halted 0 s := by
  cases h with
  | halted _ _ e => exact e
  | read g hg => exact absurd hg (hi g)
  | answered hf => exact absurd hf hfault
  | faulted hf => exact absurd hf hfault
  | hung hf => exact absurd hf hfault

/-- Words that spell no command are taken and refused. -/
theorem step_refuses {s : State} {rest : List Word} (hrun : s.hung = false) (h : SpellsNone s.cmds rest) :
    step s = .next (refuseIllegal { s with cmds := rest }) := by
  rw [step_of_running hrun, takeCommand]
  rcases h with h | h | h <;> rw [h]

theorem refuseIllegal_of_fault {s : State} (h : s.fault ≠ none) : refuseIllegal s = respond .halted 0 s := by
  rcases refuseIllegal_cases s with ⟨-, e⟩ | ⟨hf, -⟩
  · exact e
  · exact absurd hf h

/-- Settles O11: the header and its operand words are taken; a command they spell settles as halted, and words that spell
none are refused with the same answer. -/
theorem haltedBlockRefusesCommands : Obligations.HaltedBlockRefusesCommands := by
  intro s w rest hrun hfault hcmds hwords hread
  have htaken := decode_takes_operandWords hwords
  rw [← hcmds] at htaken
  rcases htaken with ⟨i, hd⟩ | hnone
  · obtain ⟨t, hexec, hends⟩ := exec_ends i { s with cmds := rest.drop (operandWords (opcodeOf w)) }
    have hi : ∀ g, i ≠ .rdreg g := fun g e => hread g _ (e ▸ hd)
    rw [stepRunsDecodedCommand s i _ hrun hd, hexec, hends.settled.eq_halted hfault hi]
    rfl
  · exact (step_refuses hrun hnone).trans (congrArg _ (refuseIllegal_of_fault hfault))

end Sys2Proof.Machine
end

section
/-! PROOFS. What a handle reaches (60_exceptions.md R155, 00_scope.md R20, R21): every operation of the transports keeps the
handle's variant and pins, and makes no call but on the collaborator and the pins they name. -/

namespace Sys2Proof.Machine

/-! ## The handle's own calls -/

/-- A call on what the handle of `s` names: on bit-bang a write or a release of one of its two pins, on the bus a write. -/
def State.Owns (s : State) (c : Call) : Prop :=
  (s.backend = .bitbang → (∃ b, c = .gpioWrite s.pinData b) ∨ (∃ b, c = .gpioWrite s.pinClock b) ∨
    c = .gpioRelease s.pinData ∨ c = .gpioRelease s.pinClock) ∧
  (s.backend = .bus → ∃ bytes, c = .busWrite bytes)

theorem owns_busWrite {s : State} (hb : s.backend = .bus) (bytes : List Byte) : s.Owns (.busWrite bytes) :=
  ⟨fun h => by simp [hb] at h, fun _ => ⟨bytes, rfl⟩⟩

theorem owns_gpioWrite {s : State} (hb : s.backend = .bitbang) {p : Byte} (hp : p = s.pinData ∨ p = s.pinClock)
    (level : Bool) : s.Owns (.gpioWrite p level) := by
  refine ⟨fun _ => ?_, fun h => by simp [hb] at h⟩
  rcases hp with rfl | rfl
  · exact .inl ⟨level, rfl⟩
  · exact .inr (.inl ⟨level, rfl⟩)

theorem owns_gpioRelease {s : State} (hb : s.backend = .bitbang) {p : Byte} (hp : p = s.pinData ∨ p = s.pinClock) :
    s.Owns (.gpioRelease p) := by
  refine ⟨fun _ => ?_, fun h => by simp [hb] at h⟩
  rcases hp with rfl | rfl
  · exact .inr (.inr (.inl rfl))
  · exact .inr (.inr (.inr rfl))

/-- The same handle owns the same calls. -/
theorem SameHandle.owns {s t : State} (h : SameHandle s t) : t.Owns = s.Owns := by
  obtain ⟨-, -, hb, hd, hc, -⟩ := h
  funext c
  rw [State.Owns, State.Owns, hb, hd, hc]

/-! ## Operations confined to them -/

/-- `t` is reached from `s` by the handle's own calls, with the handle kept. -/
structure Confined (s t : State) : Prop where
  handle : SameHandle s t
  calls : AddsOnly s.Owns s t

theorem Confined.refl (s : State) : Confined s s := ⟨.refl s, .refl s⟩

theorem Confined.trans {s t u : State} (h : Confined s t) (k : Confined t u) : Confined s u :=
  ⟨h.handle.trans k.handle, h.calls.trans (h.handle.owns ▸ k.calls)⟩

theorem Confined.andThen {s : State} {r : State × Res} {f : State → State × Res} (h : Confined s r.1)
    (hf : Confined r.1 (f r.1).1) : Confined s (andThen r f).1 := by
  by_cases hr : r.2 = .ok
  · rw [andThen_of_ok hr]; exact h.trans hf
  · rwa [andThen_of_ne hr]

/-- An update of other fields is no call. -/
theorem confined_of_update {s t : State} (h : SameHandle s t) (ht : t.trace = s.trace) : Confined s t :=
  ⟨h, [], by simp [ht], by simp⟩

theorem confined_tryCall {c : Call} {s : State} (hc : s.Owns c) : Confined s (tryCall c s).1 :=
  ⟨.refl s, addsOnly_collab hc s⟩

theorem confined_runCalls {cs : List Call} {s : State} (hcs : ∀ c ∈ cs, s.Owns c) : Confined s (runCalls cs s).1 := by
  induction cs generalizing s with
  | nil => exact .refl s
  | cons c rest ih =>
    have hc := confined_tryCall (hcs c (by simp))
    exact hc.andThen (ih fun d hd => hc.handle.owns ▸ hcs d (by simp [hd]))

/-! ## The transports -/

/-- Bit-banging writes the two pins (41_transport.md R98). -/
theorem owns_of_mem_bitbangCallsOf {s : State} (hb : s.backend = .bitbang) {bytes : List Byte} {c : Call}
    (hc : c ∈ s.bitbangCallsOf bytes) : s.Owns c := by
  have hpulse : ∃ level, c ∈ bitPulse s.pinData s.pinClock level := by
    simp only [State.bitbangCallsOf, byteCalls, List.mem_flatMap, List.mem_flatten, List.mem_map] at hc
    obtain ⟨v, -, _, ⟨j, -, rfl⟩, hc⟩ := hc
    exact ⟨v.getLsbD j, hc⟩
  obtain ⟨level, hc⟩ := hpulse
  simp only [bitPulse, List.mem_cons, List.not_mem_nil, or_false] at hc
  rcases hc with rfl | rfl | rfl
  · exact owns_gpioWrite hb (.inl rfl) level
  · exact owns_gpioWrite hb (.inr rfl) true
  · exact owns_gpioWrite hb (.inr rfl) false

theorem confined_sendHeld {s : State} (hb : s.backend = .bus) : Confined s (sendHeld s).1 :=
  (confined_tryCall (owns_busWrite hb _)).andThen (confined_of_update (.refl _) rfl)

theorem confined_appendByte (v : Byte) {s : State} (hb : s.backend = .bus) : Confined s (appendByte v s).1 := by
  have hstore : Confined s { s with buf := bufWrite s.buf s.idx v, idx := s.idx + 1 } := confined_of_update (.refl s) rfl
  unfold appendByte
  split
  · exact .refl s
  · split
    · exact hstore.trans (confined_sendHeld hb)
    · exact hstore

theorem confined_twriteBus (bytes : List Byte) {s : State} (hb : s.backend = .bus) :
    Confined s (twriteBus bytes s).1 := by
  induction bytes generalizing s with
  | nil => exact .refl s
  | cons v rest ih => exact (confined_appendByte v hb).andThen (ih ((ran_appendByte v s).backend.trans hb))

theorem confined_twrite (bytes : List Byte) (s : State) : Confined s (twrite bytes s).1 := by
  cases hb : s.backend with
  | bitbang =>
    rw [twrite_of_bitbang hb, twriteBitbang_eq]
    exact confined_runCalls fun _ => owns_of_mem_bitbangCallsOf hb
  | bus => rw [twrite_of_bus hb]; exact confined_twriteBus bytes hb

theorem confined_tflush (s : State) : Confined s (tflush s).1 := by
  unfold tflush
  cases hb : s.backend with
  | bitbang => exact .refl s
  | bus =>
    show Confined s (tflushBus s).1
    unfold tflushBus
    split
    · exact .refl s
    · exact confined_sendHeld hb

/-- A bit-bang release releases the two pins, a bus release makes no call (41_transport.md R101, R107). -/
theorem confined_trelease (s : State) : Confined s (trelease s).1 := by
  cases hb : s.backend with
  | bitbang =>
    rw [trelease_of_bitbang hb, treleaseBitbang]
    split
    · exact .refl s
    · have hmark : Confined s { s with txReleased := true } := confined_of_update (.refl s) rfl
      have hdata : Confined s (ignoreCall (.gpioRelease s.pinData) { s with txReleased := true }).1 :=
        hmark.trans (confined_tryCall (owns_gpioRelease hb (.inl rfl)))
      exact hdata.andThen (confined_tryCall (owns_gpioRelease hb (.inr rfl)))
  | bus =>
    rw [trelease_of_bus hb, treleaseBus]
    split
    · exact .refl s
    · exact confined_of_update (.refl s) rfl

/-! ## The frame and the release -/

theorem confined_setSeq (p : SeqPos) (s : State) : Confined s (setSeq p s) := confined_of_update (.refl s) rfl

theorem confined_render (s : State) : Confined s (render s).1 := by
  have hframe : Confined s (sendFrame (frame s) s).1 := by
    obtain ⟨p, -, -, e⟩ := sendFrame_frame s
    rw [e]
    exact (confined_twrite _ s).trans (confined_setSeq p _)
  exact hframe.andThen (((confined_setSeq .flush _).trans (confined_tflush _)).andThen (confined_setSeq .idle _))

theorem confined_releaseRender (s : State) : Confined s (releaseRender s).1 := by
  cases hcor : s.cor with
  | true =>
    have hclear : Confined s (cleared s) := confined_of_update (.refl s) rfl
    rw [releaseRender_of_cor hcor]
    exact hclear.trans (confined_render _)
  | false => rw [releaseRender_of_not_cor hcor]; exact .refl s

/-- A release makes the calls of its render and of its teardown. -/
theorem ownCalls_releaseHandle (explicit : Bool) {s : State} (h : s.life = .active) :
    AddsOnly s.Owns s (releaseHandle explicit s) := by
  have hrender := confined_releaseRender s
  rcases releaseHandle_cases explicit h with ⟨st, -, -, -, e⟩ | ⟨c, -, e⟩ | ⟨-, e⟩ <;> rw [e]
  · have hboth := (hrender.trans (confined_trelease _)).calls
    rcases teardown_cases st (releaseRender s).1 with ⟨-, e⟩ | ⟨-, e⟩ <;> rw [e]
    · exact hboth.trans (addsOnly_response rfl)
    · exact hboth
  · exact hrender.calls.trans (addsOnly_response rfl)
  · exact hrender.calls

/-! ## The commands -/

theorem confined_of_command {i : Instr} {s : State} {r : State × Res}
    (hi : (∃ v, i = .txwr v ∧ r = twrite [v] s) ∨ (i = .flush ∧ r = tflush s) ∨ (i = .render ∧ r = render s)) :
    Confined s r.1 := by
  rcases hi with ⟨v, -, rfl⟩ | ⟨-, rfl⟩ | ⟨-, rfl⟩
  · exact confined_twrite _ s
  · exact confined_tflush s
  · exact confined_render s

/-- A command of an ACTIVE handle makes the handle's own calls; a construction does not run there. -/
theorem Ends.ownCalls {i : Instr} {s t : State} (h : Ends i s t) (ha : s.life = .active) : AddsOnly s.Owns s t := by
  cases h with
  | halted => exact addsOnly_response rfl
  | faulted => exact addsOnly_response rfl
  | read => exact addsOnly_response rfl
  | stored => exact addsOnly_response rfl
  | got => exact addsOnly_response rfl
  | ran r _ hi => exact (confined_of_command hi).calls.trans (addsOnly_endCommand r)
  | flag => exact addsOnly_response rfl
  | bitbang _ _ _ hs =>
    obtain ⟨-, hlife, -⟩ := hs
    exact absurd ha hlife
  | bus _ _ hs =>
    obtain ⟨-, hlife, -⟩ := hs
    exact absurd ha hlife
  | noop => exact addsOnly_response rfl
  | release explicit => exact ownCalls_releaseHandle explicit ha

/-- Settles O16: however a command of an ACTIVE handle ends, its calls are the handle's own. -/
theorem handleReachesOnlyItsCollaborator : Obligations.HandleReachesOnlyItsCollaborator := by
  intro i s t ha hexec
  obtain ⟨u, hu, hends⟩ := exec_ends i s
  obtain rfl : u = t := by rw [hu] at hexec; injection hexec
  exact hends.ownCalls ha

end Sys2Proof.Machine
end

section
/-! PROOFS. Power-on reset (70_reset_and_hazards.md R159): the state it leaves meets the invariant and waits for its first
command. -/

namespace Sys2Proof.Machine

/-! ## The parameters at reset (00_scope.md R8, R9, R11) -/

/-- A number from 1 to 255, added to a pin, gives another pin. -/
theorem add_ofNat_gap_ne (pin : Byte) (k : Nat) : pin ≠ pin + BitVec.ofNat 8 (1 + k % 255) := by
  intro h
  have hnat := congrArg BitVec.toNat h
  rw [BitVec.toNat_add, BitVec.toNat_ofNat] at hnat
  have hpin : pin.toNat < 256 := pin.isLt
  omega

/-- Whatever the free parameters are, those of the reset state meet their constraints. -/
theorem valid_configParams : Config.params.Valid := by
  refine ⟨by decide, ?_, ?_, add_ofNat_gap_ne _ _⟩
  · show 1 ≤ 1 + _ % (2 ^ 24 - 1)
    omega
  · show 1 + _ % (2 ^ 24 - 1) ≤ 2 ^ 24 - 1
    omega

/-! ## The invariant after reset -/

/-- Reset leaves nothing stored, nothing held and no handle, so of the invariant only its words on the parameters and on
the count of the draws are left to the state before; what the pins and the clock speed are, unspecified, does not matter. -/
theorem inv_powerOn_withPins {s : State} (hparams : s.params.Valid)
    (hdraws : s.drawNo = (s.trace.filter Event.isCall).length) (pinData pinClock : Byte) (clockHz : Word) :
    ({ s.powerOn with pinData := pinData, pinClock := pinClock, clockHz := clockHz } : State).Inv where
  params_valid := hparams
  pix_wf := pixWf_nil
  pix_inside := nofun
  marker := nofun
  buf_rising := by simp [State.reset, Memory.Rising]
  buf_inside := nofun
  buf_held := nofun
  idx_le := Nat.zero_le _
  idx_bitbang := fun _ => rfl
  unconfigured := fun _ => ⟨rfl, rfl, rfl, rfl, rfl, rfl⟩
  configured := fun h => absurd rfl h
  pins_distinct := fun h => absurd rfl h
  active_transport := nofun
  released_transport := nofun
  seq_legal := trivial
  seq_idle := fun _ => rfl
  fault_is_status := fun _ => ⟨nofun, nofun⟩
  status_not_halted := nofun
  hung_last := nofun
  draw_count := hdraws

/-- Power-on reset keeps the invariant. -/
theorem State.Inv.powerOn {s : State} (h : s.Inv) : s.powerOn.Inv :=
  inv_powerOn_withPins h.params_valid h.draw_count _ _ _

/-- Settles O59: no call was made at reset, and the parameters are valid whatever the free ones are. -/
theorem resetMeetsInvariant : Obligations.ResetMeetsInvariant :=
  inv_powerOn_withPins (s := State.reset) valid_configParams rfl _ _ _

/-! ## What reset leaves -/

/-- The reset state has no word presented to it, so it idles. -/
theorem step_reset : step State.reset = .next State.reset := idleBlockKeepsState State.reset rfl (.inl rfl)

/-- Settles O60: the reset state idles, each named field has its reset value, and the invariant is kept. -/
theorem powerOnResetValues : Obligations.PowerOnResetValues := by
  refine ⟨step_reset, rfl, fun s => ?_⟩
  exact ⟨rfl, rfl, rfl, rfl, rfl, rfl, rfl, rfl, rfl, rfl, rfl, powerOn_trace s, powerOn_params s, State.Inv.powerOn⟩

end Sys2Proof.Machine
end
